-- ==== Sys2Proof/Word.lean ====
section
/-! DEFINITION. The word types of the OWU block (00_scope.md rule R10). -/

namespace Sys2Proof

/-- A byte: 8 bits (R10). -/
abbrev Byte := BitVec 8

/-- A 16-bit quantity: the raw temperature and `TEMP` (R53, R26). -/
abbrev Half := BitVec 16

/-- A request word, 32 bits (R81). -/
abbrev Word := BitVec 32

end Sys2Proof
end

