-- ==== Sys2Proof/Syntax.lean ====
section
/-! DEFINITION. The requests of the block as syntax: one constructor per row of spec/opcode_table.json
(30_encoding.md rules R80, R83, R84, R105). An operand is present only where the row uses it: every other
field of the request word is ignored (R87; log 17). -/

namespace Sys2Proof

/-- A request. The payload of a `C.*` request is the byte sequence of length `PLEN` (R82 (e)). -/
inductive Instr
  /-- `T.RESET` (R122). -/
  | tReset
  /-- `T.WBIT b`, `BIT = ARG0[0]` (R126). -/
  | tWbit (bit : Bool)
  /-- `T.RBIT` (R128). -/
  | tRbit
  /-- `T.WBYTE v`, `BYTE = ARG0` (R130). -/
  | tWbyte (v : Byte)
  /-- `T.RBYTE` (R132). -/
  | tRbyte
  /-- `C.INIT` (R143). -/
  | cInit (payload : List Byte)
  /-- `C.READROM` (R144). -/
  | cReadrom (payload : List Byte)
  /-- `C.SKIPROM` (R145). -/
  | cSkiprom (payload : List Byte)
  /-- `C.CONVERTT` (R146). -/
  | cConvertt (payload : List Byte)
  /-- `C.RSCRATCH` (R147). -/
  | cRscratch (payload : List Byte)
  /-- `C.WSCRATCH` (R148). -/
  | cWscratch (payload : List Byte)
  /-- `K.DECODE` (R162). -/
  | kDecode
  /-- `K.ENCODE th, tl, cfg` (R163). -/
  | kEncode (th tl cfg : Byte)
  /-- `W.WAIT NONE` (R181). -/
  | wWaitNone
  /-- `W.WAIT DATA` (R182). -/
  | wWaitData
  /-- `W.WAIT DELAY` (R183). -/
  | wWaitDelay
  /-- `S.INITIALIZE` (R191). -/
  | sInitialize
  /-- `S.CONVERT NONE` (R192). -/
  | sConvertNone
  /-- `S.CONVERT DATA` (R192). -/
  | sConvertData
  /-- `S.CONVERT DELAY` (R192). -/
  | sConvertDelay
  /-- `S.READSCRATCH` (R193). -/
  | sReadscratch
  /-- `S.WRITESCRATCH th, tl, cfg` (R194). -/
  | sWritescratch (th tl cfg : Byte)
  /-- `S.READROM` (R195). -/
  | sReadrom
  /-- `S.SKIPROM` (R196). -/
  | sSkiprom
deriving DecidableEq, Repr

end Sys2Proof
end

