-- ==== Sys2Proof/WellFormed.lean ====
section
/-! DEFINITION. Which requests a request word can carry: `PLEN` is two bits wide and a word has three operand
bytes, so a payload has at most three bytes (30_encoding.md rules R81, R82 (e)). -/

namespace Sys2Proof

/-- A payload fits the word: 0 to 3 bytes (R81 `PLEN`, R82 (e)). -/
def payloadFits (payload : List Byte) : Bool := decide (payload.length ≤ 3)

/-- A request that some request word encodes. Whether the payload's length suits the descriptor is not
asked here: a mismatch is a well-formed request that fails with `CONTRACT` when performed (R88). -/
def Instr.wf : Instr → Bool
  | .tReset => true
  | .tWbit _ => true
  | .tRbit => true
  | .tWbyte _ => true
  | .tRbyte => true
  | .cInit p => payloadFits p
  | .cReadrom p => payloadFits p
  | .cSkiprom p => payloadFits p
  | .cConvertt p => payloadFits p
  | .cRscratch p => payloadFits p
  | .cWscratch p => payloadFits p
  | .kDecode => true
  | .kEncode _ _ _ => true
  | .wWaitNone => true
  | .wWaitData => true
  | .wWaitDelay => true
  | .sInitialize => true
  | .sConvertNone => true
  | .sConvertData => true
  | .sConvertDelay => true
  | .sReadscratch => true
  | .sWritescratch _ _ _ => true
  | .sReadrom => true
  | .sSkiprom => true

end Sys2Proof
end

