-- ==== Sys2Proof/Decode.lean ====
section
/-! DEFINITION. The decoder of request words, total, rejecting by name, and the encoder, both written from the
field layout of 30_encoding.md rule R81, the operand rules R82, the selector map R83 and the strategy codes R84. -/

namespace Sys2Proof

/-- Why a request word is illegal (R88). -/
inductive Illegal
  /-- `OPSEL` is none of the twenty values of R83. -/
  | reservedOpsel
  /-- `W.WAIT` or `S.CONVERT` with `STRAT = 3`. -/
  | reservedStrat
deriving DecidableEq, Repr

/-- The fields of a request word (R81). -/
structure Fields where
  opsel : BitVec 6
  plen  : BitVec 2
  arg0  : Byte
  arg1  : Byte
  arg2  : Byte
deriving DecidableEq, Repr

/-- Cut a request word into its fields (R81). -/
def Fields.ofWord (w : Word) : Fields where
  opsel := w.extractLsb' 0 6
  plen  := w.extractLsb' 6 2
  arg0  := w.extractLsb' 8 8
  arg1  := w.extractLsb' 16 8
  arg2  := w.extractLsb' 24 8

/-- Put the fields of a request word together (R81). -/
def Fields.toWord (f : Fields) : Word :=
  f.arg2 ++ f.arg1 ++ f.arg0 ++ f.plen ++ f.opsel

/-- The payload of a `C.*` request: `PLEN` bytes, byte `k` is `ARGk` (R82 (e)). -/
def Fields.payload (f : Fields) : List Byte :=
  [f.arg0, f.arg1, f.arg2].take f.plen.toNat

/-- `BIT = ARG0[0]` (R82 (a)). -/
def Fields.bit (f : Fields) : Bool := f.arg0.getLsbD 0

/-- `STRAT = ARG0[1:0]` (R82 (c)). -/
def Fields.strat (f : Fields) : Nat := (f.arg0.extractLsb' 0 2).toNat

/-- The request that `STRAT` picks among three: `0 = NONE`, `1 = DATA`, `2 = DELAY`, `3` reserved (R84). -/
def byStrategy (strat : Nat) (whenNone whenData whenDelay : Instr) : Except Illegal Instr :=
  match strat with
  | 0 => .ok whenNone
  | 1 => .ok whenData
  | 2 => .ok whenDelay
  | _ => .error .reservedStrat

/-- The selector map (R83) with the operand rules (R82). -/
def decodeFields (f : Fields) : Except Illegal Instr :=
  match f.opsel.toNat with
  | 0x01 => .ok .tReset
  | 0x02 => .ok (.tWbit f.bit)
  | 0x03 => .ok .tRbit
  | 0x04 => .ok (.tWbyte f.arg0)
  | 0x05 => .ok .tRbyte
  | 0x10 => .ok (.cInit f.payload)
  | 0x11 => .ok (.cReadrom f.payload)
  | 0x12 => .ok (.cSkiprom f.payload)
  | 0x13 => .ok (.cConvertt f.payload)
  | 0x14 => .ok (.cRscratch f.payload)
  | 0x15 => .ok (.cWscratch f.payload)
  | 0x20 => .ok .kDecode
  | 0x21 => .ok (.kEncode f.arg0 f.arg1 f.arg2)
  | 0x30 => byStrategy f.strat .wWaitNone .wWaitData .wWaitDelay
  | 0x38 => .ok .sInitialize
  | 0x39 => byStrategy f.strat .sConvertNone .sConvertData .sConvertDelay
  | 0x3A => .ok .sReadscratch
  | 0x3B => .ok (.sWritescratch f.arg0 f.arg1 f.arg2)
  | 0x3C => .ok .sReadrom
  | 0x3D => .ok .sSkiprom
  | _ => .error .reservedOpsel

/-- Decode a request word: R83 alone decides (R89), ignored fields are ignored (R87). -/
def decode (w : Word) : Except Illegal Instr := decodeFields (Fields.ofWord w)

/-- A request with no operand: every unused bit 0 (R103). -/
def plainFields (opsel : BitVec 6) : Fields :=
  { opsel := opsel, plen := 0, arg0 := 0, arg1 := 0, arg2 := 0 }

/-- A request whose operands are the three argument bytes (R82 (d), R103). -/
def argFields (opsel : BitVec 6) (a0 a1 a2 : Byte) : Fields :=
  { opsel := opsel, plen := 0, arg0 := a0, arg1 := a1, arg2 := a2 }

/-- A `C.*` request: `PLEN` is the number of payload bytes, `ARGk` is payload byte `k`, the rest 0
(R82 (e), R103). -/
def payloadFields (opsel : BitVec 6) (payload : List Byte) : Fields :=
  { opsel := opsel
    plen := BitVec.ofNat 2 payload.length
    arg0 := payload.getD 0 0
    arg1 := payload.getD 1 0
    arg2 := payload.getD 2 0 }

/-- The fields of a request (R83, R84, R103). -/
def encodeFields : Instr → Fields
  | .tReset => plainFields 0x01
  | .tWbit b => argFields 0x02 (if b then 1 else 0) 0 0
  | .tRbit => plainFields 0x03
  | .tWbyte v => argFields 0x04 v 0 0
  | .tRbyte => plainFields 0x05
  | .cInit p => payloadFields 0x10 p
  | .cReadrom p => payloadFields 0x11 p
  | .cSkiprom p => payloadFields 0x12 p
  | .cConvertt p => payloadFields 0x13 p
  | .cRscratch p => payloadFields 0x14 p
  | .cWscratch p => payloadFields 0x15 p
  | .kDecode => plainFields 0x20
  | .kEncode th tl cfg => argFields 0x21 th tl cfg
  | .wWaitNone => argFields 0x30 0 0 0
  | .wWaitData => argFields 0x30 1 0 0
  | .wWaitDelay => argFields 0x30 2 0 0
  | .sInitialize => plainFields 0x38
  | .sConvertNone => argFields 0x39 0 0 0
  | .sConvertData => argFields 0x39 1 0 0
  | .sConvertDelay => argFields 0x39 2 0 0
  | .sReadscratch => plainFields 0x3A
  | .sWritescratch th tl cfg => argFields 0x3B th tl cfg
  | .sReadrom => plainFields 0x3C
  | .sSkiprom => plainFields 0x3D

/-- The request word of an instruction, as the assembler of R103 writes it. -/
def encode (i : Instr) : Word := (encodeFields i).toWord

/-- The row of `opcode_table.json` a request belongs to: its `match` value (R105). -/
def tableMatch : Instr → Word
  | .tReset => 0x00000001
  | .tWbit _ => 0x00000002
  | .tRbit => 0x00000003
  | .tWbyte _ => 0x00000004
  | .tRbyte => 0x00000005
  | .cInit _ => 0x00000010
  | .cReadrom _ => 0x00000011
  | .cSkiprom _ => 0x00000012
  | .cConvertt _ => 0x00000013
  | .cRscratch _ => 0x00000014
  | .cWscratch _ => 0x00000015
  | .kDecode => 0x00000020
  | .kEncode _ _ _ => 0x00000021
  | .wWaitNone => 0x00000030
  | .wWaitData => 0x00000130
  | .wWaitDelay => 0x00000230
  | .sInitialize => 0x00000038
  | .sConvertNone => 0x00000039
  | .sConvertData => 0x00000139
  | .sConvertDelay => 0x00000239
  | .sReadscratch => 0x0000003A
  | .sWritescratch _ _ _ => 0x0000003B
  | .sReadrom => 0x0000003C
  | .sSkiprom => 0x0000003D

/-- The row's `mask` value: `OPSEL`, and `ARG0[1:0]` for the six strategy rows (R105). -/
def tableMask : Instr → Word
  | .wWaitNone => 0x0000033F
  | .wWaitData => 0x0000033F
  | .wWaitDelay => 0x0000033F
  | .sConvertNone => 0x0000033F
  | .sConvertData => 0x0000033F
  | .sConvertDelay => 0x0000033F
  | _ => 0x0000003F

/-- The request word whose `nbits` low bits are `w` and whose other bits are 0. -/
def wordOfBits (nbits w : Nat) : Word := BitVec.ofNat 32 (w % 2 ^ nbits)

/-- The instruction the decoder reads from an opcode-table word. -/
def decodeTableWord (nbits w : Nat) : Option Instr :=
  match decode (wordOfBits nbits w) with
  | .ok i => some i
  | .error _ => none

end Sys2Proof
end

