-- ==== Sys2Proof/Config.lean ====
section
/-! DEFINITION. What one implementation fixes (the record `Cfg` of 00_scope.md rule R8), the answers a
collaborator can give (R12), and the free values: opaque constants for what the spec leaves open. -/

namespace Sys2Proof

/-- The four resolutions, 9 to 12 bits (R34, R100). -/
inductive Resolution
  | r9 | r10 | r11 | r12
deriving DecidableEq, Repr, Inhabited

/-- One row of the resolution table (R34): `CFG_PAT[r]`, `DATA_MASK[r]`, `SIGN_WIDTH[r]`, `DELAY_MS[r]`. -/
structure ResRow where
  cfgPat    : Byte
  dataMask  : Half
  signWidth : Nat
  delayMs   : Nat
deriving DecidableEq, Repr, Inhabited

/-- The configuration record `Cfg`, field by field as the table of R8. The values are in
Machine/Tables.lean (`Cfg.standard`). -/
structure Cfg where
  baudReset        : Nat
  baudData         : Nat
  resetTxByte      : Byte
  w0Byte           : Byte
  w1Byte           : Byte
  readTxByte       : Byte
  opcConvertT      : Byte
  opcReadScratch   : Byte
  opcWriteScratch  : Byte
  opcReadRom       : Byte
  opcSkipRom       : Byte
  romRxLen         : Nat
  snOffset         : Nat
  snLen            : Nat
  scratchRxLen     : Nat
  scratchMinLen    : Nat
  wscratchTxLen    : Nat
  maxTx            : Nat
  rxbufLen         : Nat
  row9             : ResRow
  row10            : ResRow
  row11            : ResRow
  row12            : ResRow
  signMask         : Half
  step             : Rat
  pollLimit        : Option Nat
deriving DecidableEq, Repr, Inhabited

/-- The six entries of the descriptor table (R33, R96). -/
inductive Command
  | init | readRom | skipRom | convertT | readScratch | writeScratch
deriving DecidableEq, Repr, Inhabited

/-- A descriptor: opcode byte or none, count of response bytes, count of payload bytes (R33). -/
structure Descriptor where
  op : Option Byte
  rx : Nat
  tx : Nat
deriving DecidableEq, Repr, Inhabited

/-- The status of a transfer, `OK` or `FAIL` (R12). -/
inductive XferStatus
  | ok | fail
deriving DecidableEq, Repr, Inhabited

/-- What the peripheral answers to `Tx(b)`: a status (R12), or the call never returns (R226). -/
inductive TxAnswer
  | ok | fail | never
deriving DecidableEq, Repr, Inhabited

/-- What the peripheral answers to `Rx()`: a byte and a status (R12), or the call never returns (R226). -/
inductive RxAnswer
  | got (e : Byte) (s : XferStatus)
  | never
deriving DecidableEq, Repr, Inhabited

/-- FREE VALUE. The answer to the `n`-th `Tx` call where no answer is scripted: unconstrained
(R12, 93_implementation_defined.md U5; log 5). -/
opaque Config.freeTx : Nat → TxAnswer

/-- FREE VALUE. The answer to the `n`-th `Rx` call where no answer is scripted: unconstrained
(R12, U5; log 5). -/
opaque Config.freeRx : Nat → RxAnswer

/-- FREE VALUE. The draws of unspecified bytes: registers after reset (R38, R185, U2; log 3) and `RXBUF`
around an `Execute` (R29, U3; log 4). -/
opaque Config.freeByte : Nat → Byte

/-- FREE VALUE. The draw of `TEMP` at reset (R38; log 3). -/
opaque Config.freeHalf : Nat → Half

/-- FREE VALUE. The draw of `REQ` at reset (R38; log 3). -/
opaque Config.freeWord : Nat → Word

end Sys2Proof
end

