-- ==== Sys2Proof/Machine/Tables.lean ====
section
/-! DEFINITION. The constant tables of the block: the default record of 00_scope.md rule R8, its well-formedness
(R9), the descriptor table (30_encoding.md R96, R97) and the resolution table with its lookup (R100, R101). -/

namespace Sys2Proof

/-- The record with the values of R8. The values marked GK there (rates, slot bytes, opcodes, `ROM_RX_LEN`,
`SN_OFFSET`, `SCRATCH_RX_LEN`, `CFG_PAT[10]`, `CFG_PAT[11]`) are defaults from general knowledge:
PRESUMED, log 12. No meaning depends on them: the meanings read the record that State holds. -/
def Cfg.standard : Cfg where
  baudReset       := 9600
  baudData        := 115200
  resetTxByte     := 0xF0
  w0Byte          := 0x00
  w1Byte          := 0xFF
  readTxByte      := 0xFF
  opcConvertT     := 0x44
  opcReadScratch  := 0xBE
  opcWriteScratch := 0x4E
  opcReadRom      := 0x33
  opcSkipRom      := 0xCC
  romRxLen        := 8
  snOffset        := 1
  snLen           := 6
  scratchRxLen    := 9
  scratchMinLen   := 5
  wscratchTxLen   := 3
  maxTx           := 3
  rxbufLen        := 9
  row9            := { cfgPat := 0x1F, dataMask := 0x07F8, signWidth := 5, delayMs := 94 }
  row10           := { cfgPat := 0x3F, dataMask := 0x07FC, signWidth := 5, delayMs := 188 }
  row11           := { cfgPat := 0x5F, dataMask := 0x07FE, signWidth := 5, delayMs := 375 }
  row12           := { cfgPat := 0x7F, dataMask := 0x07FF, signWidth := 5, delayMs := 750 }
  signMask        := 0xF800
  step            := 1 / 16
  pollLimit       := none

/-- The row of the resolution table (R34, R100). -/
def Cfg.row (c : Cfg) : Resolution → ResRow
  | .r9 => c.row9
  | .r10 => c.row10
  | .r11 => c.row11
  | .r12 => c.row12

/-- `ResLookup(c)`: the resolution whose pattern equals the byte, all eight bits compared, or none (R101). -/
def Cfg.resLookup (c : Cfg) (b : Byte) : Option Resolution :=
  if b = c.row9.cfgPat then some .r9
  else if b = c.row10.cfgPat then some .r10
  else if b = c.row11.cfgPat then some .r11
  else if b = c.row12.cfgPat then some .r12
  else none

/-- The descriptor table (R96); the `INIT` entry has no opcode byte (R97). -/
def Cfg.desc (c : Cfg) : Command → Descriptor
  | .init => { op := none, rx := 0, tx := 0 }
  | .readRom => { op := some c.opcReadRom, rx := c.romRxLen, tx := 0 }
  | .skipRom => { op := some c.opcSkipRom, rx := 0, tx := 0 }
  | .convertT => { op := some c.opcConvertT, rx := 0, tx := 0 }
  | .readScratch => { op := some c.opcReadScratch, rx := c.scratchRxLen, tx := 0 }
  | .writeScratch => { op := some c.opcWriteScratch, rx := 0, tx := c.wscratchTxLen }

/-- R9 (g) for one row: the data mask shares no bit with `SIGN_MASK`, and `SIGN_MASK` is the top
`SIGN_WIDTH` bits of a 16-bit word. -/
abbrev ResRow.SignFits (row : ResRow) (signMask : Half) : Prop :=
  row.dataMask &&& signMask = 0 ∧ row.signWidth ≤ 16 ∧
    signMask = BitVec.allOnes 16 <<< (16 - row.signWidth)

/-- The types R8 and R227 give: the rates, the poll limit and the delays are positive integers (log 2). -/
abbrev Cfg.TypesFit (c : Cfg) : Prop :=
  0 < c.baudReset ∧ 0 < c.baudData ∧ c.pollLimit ≠ some 0 ∧
    0 < c.row9.delayMs ∧ 0 < c.row10.delayMs ∧ 0 < c.row11.delayMs ∧ 0 < c.row12.delayMs

/-- R9 (c): the four patterns are pairwise different. -/
abbrev Cfg.PatternsDiffer (c : Cfg) : Prop :=
  c.row9.cfgPat ≠ c.row10.cfgPat ∧ c.row9.cfgPat ≠ c.row11.cfgPat ∧
    c.row9.cfgPat ≠ c.row12.cfgPat ∧ c.row10.cfgPat ≠ c.row11.cfgPat ∧
    c.row10.cfgPat ≠ c.row12.cfgPat ∧ c.row11.cfgPat ≠ c.row12.cfgPat

/-- R9 (d), (e), (f): the lengths. -/
abbrev Cfg.LengthsFit (c : Cfg) : Prop :=
  c.scratchMinLen = 5 ∧ c.snLen = 6 ∧ c.snOffset + c.snLen ≤ c.romRxLen ∧
    c.romRxLen ≤ c.rxbufLen ∧ c.scratchRxLen ≤ c.rxbufLen ∧
    c.wscratchTxLen = 3 ∧ 3 ≤ c.maxTx

/-- A well-formed record (R9); a model refuses any other. -/
def Cfg.wf (c : Cfg) : Bool :=
  decide (c.TypesFit ∧ c.baudReset < c.baudData ∧ c.w0Byte ≠ c.w1Byte ∧ c.PatternsDiffer ∧
    c.LengthsFit ∧ c.row9.SignFits c.signMask ∧ c.row10.SignFits c.signMask ∧
    c.row11.SignFits c.signMask ∧ c.row12.SignFits c.signMask)

end Sys2Proof
end

