-- ==== Sys2Proof/Machine/State.lean ====
section
/-! DEFINITION. The state of the block (10_state.md rules R20 to R40), the boundary to its collaborators and its
host, the reasons a step can stop, and the state after reset (R38, R240). -/

namespace Sys2Proof.Machine

/-- The failure causes of an operation; the codes of R102 are in Flags.lean. -/
inductive Cause
  | connectivity | transfer | decode | resolution | contract | illegal | timeout
deriving DecidableEq, Repr

/-- `BAUDSEL`, the shadow of the last rate told to the peripheral; the code 3 never occurs (R31). -/
inductive BaudSel
  | unknown | reset | data
deriving DecidableEq, Repr

/-- `SEQ`, the sequencer position between two steps of the model (R32; its encoding is not normative; log 8).
A step performs an operation as far as it goes, so only three positions can be seen. -/
inductive Seq
  /-- At the beginning: idle when `BUSY = 0`; when `BUSY = 1` the operation in `REQ` is about to start. -/
  | idle
  /-- Inside `Wait(DATA)` after `n` polls that read 0, at the next poll (R182). -/
  | polling (n : Nat)
  /-- Inside a `Tx` or `Rx` call that does not return (R226; log 7). -/
  | calling
deriving DecidableEq, Repr

/-- One event of the trace, with the answer where the call has one (R12). -/
inductive Event
  | setBaud (rate : Nat)
  | tx (b : Byte) (answer : TxAnswer)
  | rx (answer : RxAnswer)
  | sleep (ms : Nat)
deriving DecidableEq, Repr

/-- The boundary to the collaborators. The MODEL's own fields (log 5, 11, 16): the answers to come to `Tx` and
to `Rx`, how many of each call have been made, the trace so far, and a reset of the block that will land inside
an operation. -/
structure Link where
  /-- Scripted answers to the next `Tx` calls; after them `Config.freeTx` answers. -/
  txQ : List TxAnswer
  /-- Scripted answers to the next `Rx` calls; after them `Config.freeRx` answers. -/
  rxQ : List RxAnswer
  /-- `Tx` calls made so far. -/
  txN : Nat
  /-- `Rx` calls made so far. -/
  rxN : Nat
  /-- The events so far, oldest first (R12). -/
  trace : List Event
  /-- `some k`: the reset input is asserted at the end of the `(k+1)`-th event from now (R242; log 11). -/
  resetAfter : Option Nat
deriving DecidableEq, Repr

/-- What the host does at one step (R35, R240, R242, D29; log 9). -/
inductive HostEvent
  /-- A host that obeys the handshake: it waits until `BUSY = 0` and then writes `REQ`. -/
  | request (w : Word)
  /-- A write of `REQ` now: not accepted and without effect while `BUSY = 1` (D29). -/
  | write (w : Word)
  /-- Nothing, for one step. -/
  | pause
  /-- The reset input, asserted now (R240). -/
  | reset
  /-- The reset input, to be asserted at the end of the `(k+1)`-th event from now (R242). -/
  | resetAfter (k : Nat)
deriving DecidableEq, Repr

/-- The state of the block. Every register of R20 and R39 under its own name; `params` is the configuration
record, fixed for one machine (R8, R37; log 1); `link`, `draws` and `host` are the model's own. -/
structure State where
  /-- The configuration record `Cfg` (R8). -/
  params : Cfg
  /-- `REQ` (R35). -/
  req : Word
  /-- `STATUS`: `FAIL[3]`, `CAUSE[2:0]` (R27). -/
  status : BitVec 4
  /-- `BUSY` (R32). -/
  busy : Bool
  /-- `SEQ` (R32). -/
  seq : Seq
  /-- `RDATA` (R28). -/
  rdata : Byte
  /-- `RXLEN` (R29). -/
  rxlen : Nat
  /-- `RXBUF`, `RXBUF_LEN` bytes (R29). -/
  rxbuf : List Byte
  /-- `TXLEN` (R30). -/
  txlen : Nat
  /-- `TXBUF`, 3 bytes (R30). -/
  txbuf : List Byte
  /-- `BAUDSEL` (R31). -/
  baudsel : BaudSel
  /-- `INITIALIZED` (R21). -/
  initialized : Bool
  /-- `CONNECTED` (R22). -/
  connected : Bool
  /-- `SN`, 6 bytes (R23). -/
  sn : List Byte
  /-- `TH` (R24). -/
  th : Byte
  /-- `TL` (R24). -/
  tl : Byte
  /-- `CFG` (R25). -/
  cfg : Byte
  /-- `TEMP`, two's complement, 1/16 degree per count (R26). -/
  temp : Half
  /-- The boundary to the collaborators. -/
  link : Link
  /-- How many free bytes have been drawn (log 3, 4). -/
  draws : Nat
  /-- What the host does from now on. -/
  host : List HostEvent
deriving DecidableEq, Repr

/-- Faults: none. Every operation of the block ends with a status (R210), and a failure is a next state
(R218). -/
inductive Fault
deriving DecidableEq, Repr

/-- The reasons for which the model gives no next state. -/
inductive Refusal
  /-- Raised by an arm of `exec` that has no meaning yet. Safe. -/
  | notModelled (mnemonic : String)
  /-- Raised by every operation and every step when the configuration record is not well formed: "a model
  refuses any other record" (00_scope.md R9; 93_implementation_defined.md U21; log 2). Safe. -/
  | illFormedConfiguration
deriving DecidableEq, Repr

/-- `n` free bytes, drawn from the counter `from` on. -/
def freeBytes (start n : Nat) : List Byte :=
  (List.range n).map fun k => Config.freeByte (start + k)

/-- The registers after the reset input (R38, R240): the values the rules give, and a free value, drawn at this
reset, for each register they call unspecified (log 3). Reset performs no event and leaves the record, the
boundary and the host's future alone (R241). -/
def State.atReset (params : Cfg) (link : Link) (draws : Nat) (host : List HostEvent) : State where
  params := params
  req := Config.freeWord draws
  status := 0
  busy := false
  seq := .idle
  rdata := Config.freeByte (draws + 9)
  rxlen := 0
  rxbuf := freeBytes (draws + 13) params.rxbufLen
  txlen := 0
  txbuf := freeBytes (draws + 10) 3
  baudsel := .unknown
  initialized := false
  connected := false
  sn := freeBytes draws 6
  th := Config.freeByte (draws + 6)
  tl := Config.freeByte (draws + 7)
  cfg := Config.freeByte (draws + 8)
  temp := Config.freeHalf draws
  link := link
  draws := draws + 13 + params.rxbufLen
  host := host

/-- The machine right after reset, with the default record of R8, no event performed, no answer scripted and no
host action (R38, R240). -/
def State.reset : State :=
  State.atReset Cfg.standard
    { txQ := [], rxQ := [], txN := 0, rxN := 0, trace := [], resetAfter := none } 0 []

end Sys2Proof.Machine
end

