-- ==== Sys2Proof/Machine/Flags.lean ====
section
/-! DEFINITION. The flags of the block: `STATUS` and its cause codes (10_state.md R27, 30_encoding.md R102), and
the code of `BAUDSEL` (R31). The block has no arithmetic condition codes (R27, R170). -/

namespace Sys2Proof.Machine

/-- The code of a cause (R102). -/
def Cause.code : Cause → BitVec 3
  | .connectivity => 1
  | .transfer => 2
  | .decode => 3
  | .resolution => 4
  | .contract => 5
  | .illegal => 6
  | .timeout => 7

/-- `STATUS` on success: `FAIL = 0`, `CAUSE = 0` (R27). -/
def statusSuccess : BitVec 4 := 0

/-- `STATUS` on `raise Fail(c)`: `FAIL = 1`, `CAUSE = c` (R27). -/
def statusFailure (c : Cause) : BitVec 4 := (1 : BitVec 1) ++ c.code

/-- `STATUS[3]` = `FAIL` (R27). -/
def State.failFlag (s : State) : Bool := s.status.getLsbD 3

/-- `STATUS[2:0]` = `CAUSE` (R27). -/
def State.causeField (s : State) : BitVec 3 := s.status.extractLsb' 0 3

/-- The two-bit code of `BAUDSEL` (R31). -/
def BaudSel.code : BaudSel → BitVec 2
  | .unknown => 0
  | .reset => 1
  | .data => 2

end Sys2Proof.Machine
end

