-- ==== Sys2Proof/Machine/Operands.lean ====
section
/-! DEFINITION. How operands and bytes are formed: the bit order on the wire (20_memory.md R51), the wire encoding
(30_encoding.md R90 to R95), the raw temperature and its masks (R53, 42_codec.md R161, R164, R165) and the serial
number's place in a ROM response (R55). -/

namespace Sys2Proof.Machine

/-- The bits of a byte in the order they travel: bit 0 first (R51). -/
def bitsOf (v : Byte) : List Bool := (List.range 8).map fun i => v.getLsbD i

/-- The byte that bits in arrival order make: the `i`-th bit is bit `i` (R51, R131). -/
def byteOfBits : List Bool → Byte
  | [] => 0
  | b :: bs => (byteOfBits bs <<< 1) ||| (if b then 1 else 0)

/-- `WBYTE_OF(bit)`: the byte a write slot transmits (R92). -/
def wireByte (c : Cfg) (bit : Bool) : Byte := if bit then c.w1Byte else c.w0Byte

/-- `PRESENT(e)`: the echo differs from the sentinel (R94). -/
def present (c : Cfg) (e : Byte) : Bool := decide (e ≠ c.resetTxByte)

/-- `RBIT_OF(e)`: 1 exactly when the echo is the byte sent (R93). -/
def readBitOf (c : Cfg) (e : Byte) : Bool := decide (e = c.readTxByte)

/-- A bit as a byte, `zext_8` (R122, R128). -/
def zext8 (b : Bool) : Byte := if b then 1 else 0

/-- `raw = (zext_16(msb) << 8) | zext_16(lsb)` (R53, R161 step 4). -/
def rawTemp (lsb msb : Byte) : Half := (msb.setWidth 16 <<< 8) ||| lsb.setWidth 16

/-- R161 steps 5 and 6: mask the undefined low bits, then set the sign bits when `raw[15] = 1`
(R164, R165, R172; D22, log 13). -/
def decodeTemp (c : Cfg) (r : Resolution) (raw : Half) : Half :=
  let m := raw &&& (c.row r).dataMask
  if raw.getLsbD 15 then m ||| c.signMask else m

/-- `SN[k] = resp[SN_OFFSET + k]` for `k` = 0 .. `SN_LEN` - 1 (R55, R191, R195). -/
def serialOf (c : Cfg) (resp : List Byte) : List Byte := (resp.drop c.snOffset).take c.snLen

end Sys2Proof.Machine
end

