-- ==== Sys2Proof/Machine/Ops.lean ====
section
/-! DEFINITION. The named operations of the block: register updates, the four collaborator calls (00_scope.md R12),
the procedures of the units (40_transceiver.md R121 to R131, 41_dispatcher.md R141, 42_codec.md R161, R163,
43_waiter.md R180 to R186), the completion and failure of an operation (60_exceptions.md R218) and the host's
side of the block. Procedures are written step by step as the spec's pseudocode. -/

namespace Sys2Proof.Machine

/-! ## Register updates -/

/-- Replace the boundary. -/
def State.setLink (s : State) (l : Link) : State := { s with link := l }

/-- `BAUDSEL <- b` (R31). -/
def State.setBaudsel (s : State) (b : BaudSel) : State := { s with baudsel := b }

/-- `CONNECTED <- b` (R22). -/
def State.setConnected (s : State) (b : Bool) : State := { s with connected := b }

/-- `INITIALIZED <- b` (R21). -/
def State.setInitialized (s : State) (b : Bool) : State := { s with initialized := b }

/-- `RDATA <- v` (R28). -/
def State.setRdata (s : State) (v : Byte) : State := { s with rdata := v }

/-- `SN <- bytes`, all six together (R23). -/
def State.setSn (s : State) (bytes : List Byte) : State := { s with sn := bytes }

/-- `TXBUF <- bytes`, `TXLEN <- their number` (R30). -/
def State.setTxbuf (s : State) (bytes : List Byte) : State :=
  { s with txbuf := bytes, txlen := bytes.length }

/-- `TEMP`, `TH`, `TL`, `CFG`, all four together (R161 step 7, R168). -/
def State.setSensor (s : State) (temp : Half) (th tl cfg : Byte) : State :=
  { s with temp := temp, th := th, tl := tl, cfg := cfg }

/-- `RXLEN <- 0`, and the contents of `RXBUF` become unspecified: fresh free bytes (R29, R141; log 4). -/
def State.openResponse (s : State) : State :=
  { s with
    rxlen := 0
    rxbuf := freeBytes s.draws s.params.rxbufLen
    draws := s.draws + s.params.rxbufLen }

/-- `RXBUF[0 .. n-1] <- resp`, `RXLEN <- n`; the bytes above stay unspecified (R29, R141 step 7). -/
def State.commitResponse (s : State) (resp : List Byte) : State :=
  { s with rxbuf := resp ++ s.rxbuf.drop resp.length, rxlen := resp.length }

/-- An operation ends: `STATUS <- st`, `BUSY <- 0`, `SEQ` idle (R27, R32). -/
def State.complete (s : State) (st : BitVec 4) : State :=
  { s with status := st, busy := false, seq := .idle }

/-- An operation is left unfinished at position `q`: `BUSY` stays 1 (R32). -/
def State.suspend (s : State) (q : Seq) : State := { s with busy := true, seq := q }

/-- The reset input (R240): the registers of R38 anew, no event, no clean-up, no status (R242); the record, the
trace and the collaborators' answers are not touched (R241). -/
def State.hardReset (s : State) : State :=
  State.atReset s.params { s.link with resetAfter := none } s.draws s.host

/-- The host's write of `REQ` is accepted: `REQ <- w`, `BUSY <- 1` (R35). -/
def State.accept (s : State) (w : Word) : State := { s with req := w, busy := true, seq := .idle }

/-- The remaining actions of the host. -/
def State.setHost (s : State) (h : List HostEvent) : State := { s with host := h }

/-! ## The collaborators' answers -/

/-- The answer to the `k`-th `Tx` call from now: the scripted one, else a free value (log 5). -/
def Link.txAt (l : Link) (k : Nat) : TxAnswer := (l.txQ[k]?).getD (Config.freeTx (l.txN + k))

/-- The answer to the `k`-th `Rx` call from now: the scripted one, else a free value (log 5). -/
def Link.rxAt (l : Link) (k : Nat) : RxAnswer := (l.rxQ[k]?).getD (Config.freeRx (l.rxN + k))

/-- A `Tx` call has been made. -/
def Link.popTx (l : Link) : Link := { l with txQ := l.txQ.tail, txN := l.txN + 1 }

/-- An `Rx` call has been made. -/
def Link.popRx (l : Link) : Link := { l with rxQ := l.rxQ.tail, rxN := l.rxN + 1 }

/-- An event is added to the trace. -/
def Link.log (l : Link) (e : Event) : Link := { l with trace := l.trace ++ [e] }

/-! ## Procedures and the ways they can end early -/

/-- Why a procedure ends before its last step. -/
inductive Stop
  /-- `raise Fail(c)` (R218). -/
  | fail (c : Cause)
  /-- A poll of `Wait(DATA)` read 0, the `n`-th in a row: the loop goes on at the next step (R182; log 8). -/
  | polling (n : Nat)
  /-- A collaborator call that never returns (R226; log 7). -/
  | noReturn
  /-- The reset input is asserted inside the operation (R242). -/
  | reset
deriving DecidableEq, Repr

/-- A procedure: from a state to a result or an early end, with the state reached. -/
abbrev Proc (α : Type) := EStateM Stop State α

/-- `if p then raise Fail(c)` (R11, R218). -/
def failIf (p : Prop) [Decidable p] (c : Cause) : Proc Unit :=
  if p then throw (.fail c) else pure ()

/-- Perform one event. If a reset is due, it lands here, at the end of the event (R242; log 11). -/
def event (e : Event) : Proc Unit := fun s =>
  match s.link.resetAfter with
  | none => .ok () (s.setLink (s.link.log e))
  | some 0 => .error .reset (s.setLink (s.link.log e))
  | some (k + 1) => .ok () (s.setLink { s.link.log e with resetAfter := some k })

/-- `SetBaud(r)`: returns nothing and cannot fail (R12; log 6). -/
def setBaud (r : Nat) : Proc Unit := event (.setBaud r)

/-- `Sleep(ms)`: returns nothing and cannot fail (R12, R227; log 6). -/
def sleep (ms : Nat) : Proc Unit := event (.sleep ms)

/-- `Tx(b) -> s` (R12). -/
def tx (b : Byte) : Proc XferStatus := do
  let answer := (← get).link.txAt 0
  modify fun s => s.setLink s.link.popTx
  event (.tx b answer)
  match answer with
  | .ok => return .ok
  | .fail => return .fail
  | .never => throw .noReturn

/-- `Rx() -> (e, s)` (R12). -/
def rx : Proc (Byte × XferStatus) := do
  let answer := (← get).link.rxAt 0
  modify fun s => s.setLink s.link.popRx
  event (.rx answer)
  match answer with
  | .got e st => return (e, st)
  | .never => throw .noReturn

/-! ## The Bus Transceiver -/

/-- `Slot(b) -> e`: one byte out, one byte back; a failed transmit suppresses the receive (R121). -/
def slot (b : Byte) : Proc Byte := do
  let s ← tx b
  failIf (s = .fail) .transfer
  let r ← rx
  failIf (r.2 = .fail) .transfer
  return r.1

/-- The receive of a bus reset: made only if the transmit answered `OK`; the byte, if it came with `OK` (R123). -/
def resetEcho : XferStatus → Proc (Option Byte)
  | .fail => pure none
  | .ok => do
    let r ← rx
    return (if r.2 = .ok then some r.1 else none)

/-- The end of a bus reset, after the rate is restored: a transfer failure clears `CONNECTED` and is raised,
an echo is inspected (R123). -/
def inspectEcho : Option Byte → Proc Bool
  | none => do
    modify (·.setConnected false)
    throw (.fail .transfer)
  | some e => do
    let p := present (← get).params e
    modify (·.setConnected p)
    return p

/-- `Reset() -> present`: the sentinel at the reset rate, the echo received at that rate, the data rate restored
on every path; a transfer failure clears `CONNECTED` (R123). -/
def busReset : Proc Bool := do
  let c := (← get).params
  setBaud c.baudReset
  modify (·.setBaudsel .reset)
  let s ← tx c.resetTxByte
  let e ← resetEcho s
  setBaud c.baudData
  modify (·.setBaudsel .data)
  inspectEcho e

/-- `WriteBit(bit)`: one slot, the echo discarded (R125). -/
def writeBit (bit : Bool) : Proc Unit := do
  let _ ← slot (wireByte (← get).params bit)

/-- `ReadBit() -> bit`: one slot, the echo interpreted (R127). -/
def readBit : Proc Bool := do
  let c := (← get).params
  let e ← slot c.readTxByte
  return readBitOf c e

/-- Write bits in the order given. -/
def writeBits : List Bool → Proc Unit
  | [] => pure ()
  | b :: bs => do
    writeBit b
    writeBits bs

/-- `WriteByte(v)`: eight bits, bit 0 first (R129). -/
def writeByte (v : Byte) : Proc Unit := writeBits (bitsOf v)

/-- Read `n` bits, in arrival order. -/
def readBits : Nat → Proc (List Bool)
  | 0 => pure []
  | n + 1 => do
    let b ← readBit
    let bs ← readBits n
    return b :: bs

/-- `ReadByte() -> v`: eight bits, the `i`-th is bit `i` (R131). -/
def readByte : Proc Byte := do
  let bs ← readBits 8
  return byteOfBits bs

/-! ## The Command Dispatcher -/

/-- Write bytes in ascending index order (R52). -/
def writeBytes : List Byte → Proc Unit
  | [] => pure ()
  | v :: vs => do
    writeByte v
    writeBytes vs

/-- Read `n` bytes, in arrival order (R52). -/
def readBytes : Nat → Proc (List Byte)
  | 0 => pure []
  | n + 1 => do
    let v ← readByte
    let vs ← readBytes n
    return v :: vs

/-- Steps 4 to 6 of `Execute`: the opcode, if the descriptor has one, the payload, the response (R141, R142). -/
def shuttle (d : Descriptor) (payload : List Byte) : Proc (List Byte) := do
  writeBytes d.op.toList
  writeBytes payload
  readBytes d.rx

/-- `Execute(d, payload) -> resp`: the payload test, the reset and presence check, opcode, payload, response
(R141, R142). -/
def execute (cmd : Command) (payload : List Byte) : Proc (List Byte) := do
  let d := (← get).params.desc cmd
  modify (·.openResponse)
  failIf (payload.length ≠ d.tx) .contract
  let p ← busReset
  failIf (p = false) .connectivity
  let resp ← shuttle d payload
  modify (·.commitResponse resp)
  return resp

/-! ## The Scratchpad Codec -/

/-- `Decode()`: length test, unpack, resolution lookup, mask, sign, and the four registers together (R161). The
inner alternative, a buffer of fewer than five bytes with `RXLEN` at least five, is no state of a run (log 15). -/
def decodeScratch : Proc Unit := do
  let s ← get
  failIf (s.rxlen < s.params.scratchMinLen) .decode
  match s.rxbuf with
  | lsb :: msb :: th :: tl :: cfg :: _ =>
    match s.params.resLookup cfg with
    | none => throw (.fail .decode)
    | some r => set (s.setSensor (decodeTemp s.params r (rawTemp lsb msb)) th tl cfg)
  | _ => throw (.fail .decode)

/-- `Encode(th, tl, cfg)`: the payload in wire order, kept in `TXBUF`; no validation (R163). -/
def encodeScratch (th tl cfg : Byte) : Proc (List Byte) := do
  modify (·.setTxbuf [th, tl, cfg])
  return [th, tl, cfg]

/-! ## The Conversion Waiter -/

/-- One poll of `Wait(DATA)` after `n` polls that read 0: a 1 ends the wait, the `POLL_LIMIT`-th 0 in a row is a
`TIMEOUT`, any other 0 goes on (R182, R186). -/
def pollOnce (n : Nat) : Proc Unit := do
  let limit := (← get).params.pollLimit
  let b ← readBit
  if b then pure ()
  else if limit = some (n + 1) then throw (.fail .timeout)
  else throw (.polling (n + 1))

/-- `Wait(NONE)`: no event (R181). -/
def waitNone : Proc Unit := pure ()

/-- `Wait(DATA)`: the first poll at once (R182); the later ones are `pollOnce` at the next steps (log 8). -/
def waitData : Proc Unit := pollOnce 0

/-- `Wait(DELAY)`: one `Sleep` of the delay keyed by `CFG`, or a failure without any (R183, R185). -/
def waitDelay : Proc Unit := do
  let s ← get
  match s.params.resLookup s.cfg with
  | none => throw (.fail .resolution)
  | some r => sleep (s.params.row r).delayMs

/-! ## The Sensor Session -/

/-- Clean-up of `S.INITIALIZE`: on any `Fail`, `INITIALIZED <- 0`, then the failure goes on (R191, R218). An
abandoned operation runs no clean-up (R242). -/
def clearInitializedOnFail (p : Proc Unit) : Proc Unit := fun s =>
  match p s with
  | .error (.fail c) s' => .error (.fail c) (s'.setInitialized false)
  | r => r

/-- The Read-ROM round trip with the copy into `SN` (R191, R195). -/
def readSerial : Proc Unit := do
  let resp ← execute .readRom []
  modify fun s => s.setSn (serialOf s.params resp)

/-! ## Operations -/

/-- How an operation ends: success or `raise Fail(c)` complete it (R210, R218: `STATUS <- {1, c}`, `BUSY <- 0`,
nothing saved, nothing resumed); an unfinished poll loop or call leaves `BUSY = 1`; a reset abandons it (R242). -/
def settle {α : Type} : EStateM.Result Stop State α → State
  | .ok _ s => s.complete statusSuccess
  | .error (.fail c) s => s.complete (statusFailure c)
  | .error (.polling n) s => s.suspend (.polling n)
  | .error .noReturn s => s.suspend .calling
  | .error .reset s => s.hardReset

/-- Perform an operation, from acceptance to its end (R16, R210). An ill-formed configuration record is refused
(R9; log 2). -/
def perform (p : Proc Unit) (s : State) : Host.Outcome State Fault Refusal :=
  if s.params.wf then .next (settle (p s)) else .refused .illFormedConfiguration

/-- An illegal request: no event, no state change but `STATUS`, `raise Fail(ILLEGAL)` (R88, R216). -/
def illegalRequest (s : State) : Host.Outcome State Fault Refusal :=
  perform (throw (.fail .illegal)) s

/-! ## The host's reads -/

/-- The registers of R39, all of which the host can read (R224); arrays are read byte by byte. -/
inductive HostReg
  | req | status | busy | rdata | rxlen | rxbuf (k : Nat) | txlen | txbuf (k : Nat) | baudsel
  | initialized | connected | sn (k : Nat) | th | tl | cfg | temp
deriving DecidableEq, Repr

/-- A host read between two steps: the bits of the register, as a number, and none beyond an array. While `BUSY = 1`,
at a poll or inside a call that does not return, they are the intermediate values of the running operation (R250;
log 14); inside a step they are those of `State.hostReadInside`. A read changes nothing. -/
def State.hostRead (s : State) : HostReg → Option Nat
  | .req => some s.req.toNat
  | .status => some s.status.toNat
  | .busy => some s.busy.toNat
  | .rdata => some s.rdata.toNat
  | .rxlen => some s.rxlen
  | .rxbuf k => (s.rxbuf[k]?).map (·.toNat)
  | .txlen => some s.txlen
  | .txbuf k => (s.txbuf[k]?).map (·.toNat)
  | .baudsel => some s.baudsel.code.toNat
  | .initialized => some s.initialized.toNat
  | .connected => some s.connected.toNat
  | .sn k => (s.sn[k]?).map (·.toNat)
  | .th => some s.th.toNat
  | .tl => some s.tl.toNat
  | .cfg => some s.cfg.toNat
  | .temp => some s.temp.toNat

/-- The temperature in degrees Celsius that `TEMP` denotes: `signed(TEMP) * STEP`, a reading of the register and
no operation of the block (R166, R170). -/
def State.celsius (s : State) : Rat := s.temp.toInt * s.params.step

end Sys2Proof.Machine
end

