-- ==== Sys2Proof/Machine/Codec.lean ====
section
/-! DEFINITION. The K family: requests of the Scratchpad Codec (42_codec.md R162, R163). -/

namespace Sys2Proof.Machine

/-- `K.DECODE`: `Decode()` of whatever the last `Execute` left (R162). -/
def procKDecode : Proc Unit := decodeScratch

/-- `K.DECODE` performs `procKDecode`. -/
def execKDecode (s : State) : Host.Outcome State Fault Refusal :=
  perform procKDecode s

/-- `K.ENCODE th, tl, cfg`: `Encode(ARG0, ARG1, ARG2)` (R163). -/
def procKEncode (th tl cfg : Byte) : Proc Unit := do let _ ← encodeScratch th tl cfg

/-- `K.ENCODE` performs `procKEncode`. -/
def execKEncode (th tl cfg : Byte) (s : State) : Host.Outcome State Fault Refusal :=
  perform (procKEncode th tl cfg) s

end Sys2Proof.Machine
end

