-- ==== Sys2Proof/Machine/Commands.lean ====
section
/-! DEFINITION. The C family: requests of the Command Dispatcher, each `Execute` of one descriptor with the
request's payload (41_dispatcher.md R143 to R148). -/

namespace Sys2Proof.Machine

/-- `C.INIT`: `Execute(INIT, payload)` (R143). -/
def procCInit (payload : List Byte) : Proc Unit := do let _ ← execute .init payload

/-- `C.INIT` performs `procCInit`. -/
def execCInit (payload : List Byte) (s : State) : Host.Outcome State Fault Refusal :=
  perform (procCInit payload) s

/-- `C.READROM`: `Execute(READ_ROM, payload)`; `SN` is not written (R144). -/
def procCReadrom (payload : List Byte) : Proc Unit := do let _ ← execute .readRom payload

/-- `C.READROM` performs `procCReadrom`. -/
def execCReadrom (payload : List Byte) (s : State) : Host.Outcome State Fault Refusal :=
  perform (procCReadrom payload) s

/-- `C.SKIPROM`: `Execute(SKIP_ROM, payload)` (R145). -/
def procCSkiprom (payload : List Byte) : Proc Unit := do let _ ← execute .skipRom payload

/-- `C.SKIPROM` performs `procCSkiprom`. -/
def execCSkiprom (payload : List Byte) (s : State) : Host.Outcome State Fault Refusal :=
  perform (procCSkiprom payload) s

/-- `C.CONVERTT`: `Execute(CONVERT_T, payload)`; it does not wait (R146). -/
def procCConvertt (payload : List Byte) : Proc Unit := do let _ ← execute .convertT payload

/-- `C.CONVERTT` performs `procCConvertt`. -/
def execCConvertt (payload : List Byte) (s : State) : Host.Outcome State Fault Refusal :=
  perform (procCConvertt payload) s

/-- `C.RSCRATCH`: `Execute(READ_SCRATCHPAD, payload)`; it does not decode (R147). -/
def procCRscratch (payload : List Byte) : Proc Unit := do let _ ← execute .readScratch payload

/-- `C.RSCRATCH` performs `procCRscratch`. -/
def execCRscratch (payload : List Byte) (s : State) : Host.Outcome State Fault Refusal :=
  perform (procCRscratch payload) s

/-- `C.WSCRATCH`: `Execute(WRITE_SCRATCHPAD, payload)`; no payload byte is validated (R148). -/
def procCWscratch (payload : List Byte) : Proc Unit := do let _ ← execute .writeScratch payload

/-- `C.WSCRATCH` performs `procCWscratch`. -/
def execCWscratch (payload : List Byte) (s : State) : Host.Outcome State Fault Refusal :=
  perform (procCWscratch payload) s

end Sys2Proof.Machine
end

