-- ==== Sys2Proof/Machine/Session.lean ====
section
/-! DEFINITION. The S family: requests of the Sensor Session, compositions of the lower units in which the first
failing step ends the operation (44_session.md R190 to R196). -/

namespace Sys2Proof.Machine

/-- `S.INITIALIZE`: reset and presence, Read-ROM into `SN`, then the two flags; on a failure
`INITIALIZED <- 0` (R191). -/
def procSInitialize : Proc Unit := clearInitializedOnFail (do
  let p ← busReset
  failIf (p = false) .connectivity
  readSerial
  modify fun s => (s.setInitialized true).setConnected true)

/-- `S.INITIALIZE` performs `procSInitialize`. -/
def execSInitialize (s : State) : Host.Outcome State Fault Refusal :=
  perform procSInitialize s

/-- Skip-ROM then Convert-T, the part the three `S.CONVERT` requests share (R192). -/
def startConversion : Proc Unit := do
  let _ ← execute .skipRom []
  let _ ← execute .convertT []

/-- `S.CONVERT NONE` (R192, R181). -/
def procSConvertNone : Proc Unit := do
  startConversion
  waitNone

/-- `S.CONVERT NONE` performs `procSConvertNone`. -/
def execSConvertNone (s : State) : Host.Outcome State Fault Refusal :=
  perform procSConvertNone s

/-- `S.CONVERT DATA` (R192, R182). -/
def procSConvertData : Proc Unit := do
  startConversion
  waitData

/-- `S.CONVERT DATA` performs `procSConvertData`. -/
def execSConvertData (s : State) : Host.Outcome State Fault Refusal :=
  perform procSConvertData s

/-- `S.CONVERT DELAY` (R192, R183). -/
def procSConvertDelay : Proc Unit := do
  startConversion
  waitDelay

/-- `S.CONVERT DELAY` performs `procSConvertDelay`. -/
def execSConvertDelay (s : State) : Host.Outcome State Fault Refusal :=
  perform procSConvertDelay s

/-- `S.READSCRATCH`: Skip-ROM, Read-Scratchpad, `Decode()` (R193). -/
def procSReadscratch : Proc Unit := do
  let _ ← execute .skipRom []
  let _ ← execute .readScratch []
  decodeScratch

/-- `S.READSCRATCH` performs `procSReadscratch`. -/
def execSReadscratch (s : State) : Host.Outcome State Fault Refusal :=
  perform procSReadscratch s

/-- `S.WRITESCRATCH th, tl, cfg`: `Encode`, Skip-ROM, Write-Scratchpad; the cached `TH`, `TL`, `CFG` are not
written (R194). -/
def procSWritescratch (th tl cfg : Byte) : Proc Unit := do
  let payload ← encodeScratch th tl cfg
  let _ ← execute .skipRom []
  let _ ← execute .writeScratch payload

/-- `S.WRITESCRATCH` performs `procSWritescratch`. -/
def execSWritescratch (th tl cfg : Byte) (s : State) : Host.Outcome State Fault Refusal :=
  perform (procSWritescratch th tl cfg) s

/-- `S.READROM`: Read-ROM into `SN` (R195). -/
def procSReadrom : Proc Unit := readSerial

/-- `S.READROM` performs `procSReadrom`. -/
def execSReadrom (s : State) : Host.Outcome State Fault Refusal :=
  perform procSReadrom s

/-- `S.SKIPROM`: Skip-ROM (R196). -/
def procSSkiprom : Proc Unit := do let _ ← execute .skipRom []

/-- `S.SKIPROM` performs `procSSkiprom`. -/
def execSSkiprom (s : State) : Host.Outcome State Fault Refusal :=
  perform procSSkiprom s

end Sys2Proof.Machine
end

