-- ==== Sys2Proof/Machine/Transceiver.lean ====
section
/-! DEFINITION. The T family: requests of the Bus Transceiver (40_transceiver.md R122 to R132). -/

namespace Sys2Proof.Machine

/-- `T.RESET`: `p <- Reset(); RDATA <- zext_8(p)` (R122). -/
def procTReset : Proc Unit := do
  let p ← busReset
  modify (·.setRdata (zext8 p))

/-- `T.RESET` performs `procTReset`. -/
def execTReset (s : State) : Host.Outcome State Fault Refusal :=
  perform procTReset s

/-- `T.WBIT b`: `WriteBit(ARG0[0])` (R126). -/
def procTWbit (bit : Bool) : Proc Unit := writeBit bit

/-- `T.WBIT` performs `procTWbit`. -/
def execTWbit (bit : Bool) (s : State) : Host.Outcome State Fault Refusal :=
  perform (procTWbit bit) s

/-- `T.RBIT`: `b <- ReadBit(); RDATA <- zext_8(b)` (R128). -/
def procTRbit : Proc Unit := do
  let b ← readBit
  modify (·.setRdata (zext8 b))

/-- `T.RBIT` performs `procTRbit`. -/
def execTRbit (s : State) : Host.Outcome State Fault Refusal :=
  perform procTRbit s

/-- `T.WBYTE v`: `WriteByte(ARG0)` (R130). -/
def procTWbyte (v : Byte) : Proc Unit := writeByte v

/-- `T.WBYTE` performs `procTWbyte`. -/
def execTWbyte (v : Byte) (s : State) : Host.Outcome State Fault Refusal :=
  perform (procTWbyte v) s

/-- `T.RBYTE`: `v <- ReadByte(); RDATA <- v` (R132). -/
def procTRbyte : Proc Unit := do
  let v ← readByte
  modify (·.setRdata v)

/-- `T.RBYTE` performs `procTRbyte`. -/
def execTRbyte (s : State) : Host.Outcome State Fault Refusal :=
  perform procTRbyte s

end Sys2Proof.Machine
end

