-- ==== Sys2Proof/Machine/Waiter.lean ====
section
/-! DEFINITION. The W family: requests of the Conversion Waiter (43_waiter.md R181 to R183). -/

namespace Sys2Proof.Machine

/-- `W.WAIT NONE`: no event (R181). -/
def procWWaitNone : Proc Unit := waitNone

/-- `W.WAIT NONE` performs `procWWaitNone`. -/
def execWWaitNone (s : State) : Host.Outcome State Fault Refusal :=
  perform procWWaitNone s

/-- `W.WAIT DATA`: poll until a 1 is read (R182). -/
def procWWaitData : Proc Unit := waitData

/-- `W.WAIT DATA` performs `procWWaitData`. -/
def execWWaitData (s : State) : Host.Outcome State Fault Refusal :=
  perform procWWaitData s

/-- `W.WAIT DELAY`: one `Sleep` keyed by `CFG` (R183). -/
def procWWaitDelay : Proc Unit := waitDelay

/-- `W.WAIT DELAY` performs `procWWaitDelay`. -/
def execWWaitDelay (s : State) : Host.Outcome State Fault Refusal :=
  perform procWWaitDelay s

end Sys2Proof.Machine
end

