-- ==== Sys2Proof/Machine/Dispatch.lean ====
section
/-! DEFINITION. The dispatcher: one arm per constructor of Instr. -/

namespace Sys2Proof.Machine

def exec (i : Instr) (s : State) : Host.Outcome State Fault Refusal :=
  match i with
  -- T family
  | .tReset => Sys2Proof.Machine.execTReset s
  | .tWbit bit => Sys2Proof.Machine.execTWbit bit s
  | .tRbit => Sys2Proof.Machine.execTRbit s
  | .tWbyte v => Sys2Proof.Machine.execTWbyte v s
  | .tRbyte => Sys2Proof.Machine.execTRbyte s
  -- C family
  | .cInit payload => Sys2Proof.Machine.execCInit payload s
  | .cReadrom payload => Sys2Proof.Machine.execCReadrom payload s
  | .cSkiprom payload => Sys2Proof.Machine.execCSkiprom payload s
  | .cConvertt payload => Sys2Proof.Machine.execCConvertt payload s
  | .cRscratch payload => Sys2Proof.Machine.execCRscratch payload s
  | .cWscratch payload => Sys2Proof.Machine.execCWscratch payload s
  -- K family
  | .kDecode => Sys2Proof.Machine.execKDecode s
  | .kEncode th tl cfg => Sys2Proof.Machine.execKEncode th tl cfg s
  -- W family
  | .wWaitNone => Sys2Proof.Machine.execWWaitNone s
  | .wWaitData => Sys2Proof.Machine.execWWaitData s
  | .wWaitDelay => Sys2Proof.Machine.execWWaitDelay s
  -- S family
  | .sInitialize => Sys2Proof.Machine.execSInitialize s
  | .sConvertNone => Sys2Proof.Machine.execSConvertNone s
  | .sConvertData => Sys2Proof.Machine.execSConvertData s
  | .sConvertDelay => Sys2Proof.Machine.execSConvertDelay s
  | .sReadscratch => Sys2Proof.Machine.execSReadscratch s
  | .sWritescratch th tl cfg => Sys2Proof.Machine.execSWritescratch th tl cfg s
  | .sReadrom => Sys2Proof.Machine.execSReadrom s
  | .sSkiprom => Sys2Proof.Machine.execSSkiprom s

end Sys2Proof.Machine
end

