-- ==== Sys2Proof/Machine/Sequencer.lean ====
section
/-! DEFINITION. What one step of the block does: the host's action of this step, the acceptance of a request, the
going on of an unfinished operation (10_state.md R32, R35; 70_reset_and_hazards.md R240, R242; log 8, 9). -/

namespace Sys2Proof.Machine

/-- Perform the request in `REQ` from its beginning: decode it (R89), then the operation, or `ILLEGAL` (R88). -/
def runRequest (s : State) : Host.Outcome State Fault Refusal :=
  match decode s.req with
  | .ok i => exec i s
  | .error _ => illegalRequest s

/-- The block's own part of a step: nothing when idle, else the operation goes on from `SEQ`; a call that does
not return stays where it is (R32, R187, R226). -/
def advance (s : State) : Host.Outcome State Fault Refusal :=
  if s.busy = false then .next s
  else
    match s.seq with
    | .idle => runRequest s
    | .polling n => perform (pollOnce n) s
    | .calling => .next s

/-- The host writes `REQ` while `BUSY = 0`: the request is accepted and performed (R32, R35). -/
def startRequest (w : Word) (s : State) : Host.Outcome State Fault Refusal :=
  runRequest (s.accept w)

/-- One step with the host's action of this step (log 9). -/
def hostStep (s : State) : Host.Outcome State Fault Refusal :=
  match s.host with
  | [] => advance s
  | .request w :: rest => if s.busy then advance s else startRequest w (s.setHost rest)
  | .write w :: rest =>
    if s.busy then advance (s.setHost rest) else startRequest w (s.setHost rest)
  | .pause :: rest => advance (s.setHost rest)
  | .reset :: rest => .next (s.setHost rest).hardReset
  | .resetAfter k :: rest =>
    advance ((s.setHost rest).setLink { s.link with resetAfter := some k })

/-- The host writes the request `w` next: the block is idle and `w` is its host's next action. -/
def State.loadRequest (s : State) (w : Word) : State :=
  { s with host := .request w :: s.host, busy := false, seq := .idle }

end Sys2Proof.Machine
end

