-- ==== Sys2Proof/Machine/Step.lean ====
section
/-! DEFINITION. The step function of the block and the placing of a request where the next step takes it. -/

namespace Sys2Proof.Machine

/-- One step. A record that is not well formed is refused (00_scope.md R9; log 2). -/
def step (s : State) : Host.Outcome State Fault Refusal :=
  if s.params.wf then hostStep s else .refused .illFormedConfiguration

/-- The state in which the very next step performs the request word whose `nbits` low bits are `w` (log 10). -/
def State.withFetchWord (s : State) (nbits w : Nat) : State := s.loadRequest (wordOfBits nbits w)

end Sys2Proof.Machine
end

