-- ==== Sys2Proof/Machine/Inside.lean ====
section
/-! DEFINITION. What a host that reads while `BUSY = 1` can see inside a step: the state at the end of each event of the
running operation, an intermediate state of its pseudocode (70_reset_and_hazards.md R250; log 14). No step depends on
it: a read changes nothing. -/

namespace Sys2Proof.Machine

/-- The procedure of a request: the one its meaning performs. -/
def procOf : Instr → Proc Unit
  | .tReset => procTReset
  | .tWbit b => procTWbit b
  | .tRbit => procTRbit
  | .tWbyte v => procTWbyte v
  | .tRbyte => procTRbyte
  | .cInit p => procCInit p
  | .cReadrom p => procCReadrom p
  | .cSkiprom p => procCSkiprom p
  | .cConvertt p => procCConvertt p
  | .cRscratch p => procCRscratch p
  | .cWscratch p => procCWscratch p
  | .kDecode => procKDecode
  | .kEncode th tl cfg => procKEncode th tl cfg
  | .wWaitNone => procWWaitNone
  | .wWaitData => procWWaitData
  | .wWaitDelay => procWWaitDelay
  | .sInitialize => procSInitialize
  | .sConvertNone => procSConvertNone
  | .sConvertData => procSConvertData
  | .sConvertDelay => procSConvertDelay
  | .sReadscratch => procSReadscratch
  | .sWritescratch th tl cfg => procSWritescratch th tl cfg
  | .sReadrom => procSReadrom
  | .sSkiprom => procSSkiprom

/-- What the next step of a busy block performs, as `advance` does: the request in `REQ` from its beginning, or one
poll. None where it performs no event. -/
def State.running (s : State) : Option (Proc Unit) :=
  if s.params.wf = false ∨ s.busy = false then none
  else
    match s.seq with
    | .idle =>
      match decode s.req with
      | .ok i => some (procOf i)
      | .error _ => none
    | .polling n => some (pollOnce n)
    | .calling => none

/-- The state of a busy block at the end of the `(k+1)`-th event of its next step, before the operation goes on: the
operation broken off there (`event`), without the reset. None where the step performs fewer events, or where a reset is
due by then. -/
def State.inside (s : State) (k : Nat) : Option State :=
  match s.running with
  | none => none
  | some p =>
    if s.link.resetAfter.all (k < ·) then
      match p (s.setLink { s.link with resetAfter := some k }) with
      | .error .reset t =>
        some (t.setLink { t.link with resetAfter := s.link.resetAfter.map (· - (k + 1)) })
      | .error _ _ => none
      | .ok _ _ => none
    else none

/-- A host read at that point, while the operation runs: an intermediate value of the register (R250). -/
def State.hostReadInside (s : State) (k : Nat) (r : HostReg) : Option Nat :=
  (s.inside k).bind (·.hostRead r)

end Sys2Proof.Machine
end

