-- ==== Sys2Proof/Safety.lean ====
section
/-! DEFINITION. The terms in which claims about the block are stated: when an operation runs undisturbed, what the
peripheral answers, the events and bytes the rules give for a reset, a slot, a byte and a round trip, and the
invariant between steps. -/

namespace Sys2Proof.Machine

/-! ## Premises -/

/-- The record is well formed (R9) and no reset of the block is due inside an operation (R242). -/
def State.Ready (s : State) : Prop := s.params.wf = true ∧ s.link.resetAfter = none

/-- The next calls to `Tx` all answer `OK` and the next calls to `Rx` answer the bytes `es`, in order, with
`OK`. -/
def Link.Echoes (l : Link) (es : List Byte) : Prop :=
  ∀ k e, es[k]? = some e → l.txAt k = .ok ∧ l.rxAt k = .got e .ok

/-- The boundary after `n` complete exchanges (a `Tx` and an `Rx` each) with the events `evs`. -/
def Link.after (l : Link) (n : Nat) (evs : List Event) : Link :=
  { l with
    txQ := l.txQ.drop n, rxQ := l.rxQ.drop n
    txN := l.txN + n, rxN := l.rxN + n
    trace := l.trace ++ evs }

/-- The boundary after one more event without an answer. -/
def Link.afterEvent (l : Link) (e : Event) : Link := { l with trace := l.trace ++ [e] }

/-- The boundary after a `Tx(b)` that answers `FAIL`; the receive is suppressed (R121). -/
def Link.afterTxFail (l : Link) (b : Byte) : Link :=
  { l with txQ := l.txQ.drop 1, txN := l.txN + 1, trace := l.trace ++ [.tx b .fail] }

/-- An exchange of the byte `b` that fails, and the boundary after it: the transmit answers `FAIL`, or the
transmit answers `OK` and the receive `FAIL` (R121, R212). -/
def Link.ExchangeFails (l : Link) (b : Byte) (l' : Link) : Prop :=
  (l.txAt 0 = .fail ∧ l' = l.afterTxFail b) ∨
  (∃ e, l.txAt 0 = .ok ∧ l.rxAt 0 = .got e .fail ∧
    l' = l.after 1 [.tx b .ok, .rx (.got e .fail)])

/-- An exchange of the byte `b` inside which a call never returns, and the boundary then: the transmit, or the receive
after a transmit that answers `OK` (R226). -/
def Link.ExchangeHangs (l : Link) (b : Byte) (l' : Link) : Prop :=
  (l.txAt 0 = .never ∧
    l' = { l with txQ := l.txQ.drop 1, txN := l.txN + 1, trace := l.trace ++ [.tx b .never] }) ∨
  (l.txAt 0 = .ok ∧ l.rxAt 0 = .never ∧ l' = l.after 1 [.tx b .ok, .rx .never])

/-- The state of a busy block once the host's action of this step is taken, short of the reset input: a request keeps
waiting, a write and a pause are over, a reset inside the operation becomes due (log 9, 11). -/
def State.whileBusy (s : State) : State :=
  match s.host with
  | [] => s
  | .request _ :: _ => s
  | .write _ :: rest => { s with host := rest }
  | .pause :: rest => { s with host := rest }
  | .reset :: rest => { s with host := rest }
  | .resetAfter k :: rest => { s with host := rest, link := { s.link with resetAfter := some k } }

/-- The values that R38 gives the registers at a reset. -/
def State.HasResetValues (s : State) : Prop :=
  s.initialized = false ∧ s.connected = false ∧ s.status = 0#4 ∧ s.busy = false ∧ s.seq = .idle ∧
    s.rxlen = 0 ∧ s.txlen = 0 ∧ s.baudsel = .unknown

/-- No reset of the block is due or will be asserted by the host. -/
def State.NoReset (s : State) : Prop :=
  s.link.resetAfter = none ∧ ∀ h ∈ s.host, h ≠ .reset ∧ ∀ k, h ≠ .resetAfter k

/-! ## Events and bytes that the rules give -/

/-- One complete exchange: the byte sent, the byte that came back. -/
def exchangeEvents (b e : Byte) : List Event := [.tx b .ok, .rx (.got e .ok)]

/-- Slots that transmit `bs` and receive `es` (R121). -/
def slotEvents (bs es : List Byte) : List Event :=
  (bs.zip es).flatMap fun p => exchangeEvents p.1 p.2

/-- A bus reset with the echo `e`: four events (R123). -/
def resetEvents (c : Cfg) (e : Byte) : List Event :=
  [.setBaud c.baudReset, .tx c.resetTxByte .ok, .rx (.got e .ok), .setBaud c.baudData]

/-- The eight bytes that write `v`: bit 0 first, `W1_BYTE` for a 1 and `W0_BYTE` for a 0 (R92, R95, R129). -/
def wireBytes (c : Cfg) (v : Byte) : List Byte :=
  (List.range 8).map fun i => if v.getLsbD i then c.w1Byte else c.w0Byte

/-- The bytes a round trip writes after the reset: the opcode, if any, then the payload (R141, R52). -/
def writtenBytes (d : Descriptor) (payload : List Byte) : List Byte := d.op.toList ++ payload

/-- Everything a round trip transmits after the reset: eight slots for each byte written, then eight read slots
for each response byte (R141, R57). -/
def commandBytes (c : Cfg) (d : Descriptor) (payload : List Byte) : List Byte :=
  (writtenBytes d payload).flatMap (wireBytes c) ++ List.replicate (8 * d.rx) c.readTxByte

/-- The events of a whole round trip with the presence echo `e0` and the slot echoes `es` (R141). -/
def commandEvents (c : Cfg) (d : Descriptor) (payload : List Byte) (e0 : Byte) (es : List Byte) :
    List Event :=
  resetEvents c e0 ++ slotEvents (commandBytes c d payload) es

/-- Eight echoes that read as the byte `v`: bit `i` is 1 exactly when the `i`-th echo is `READ_TX_BYTE`
(R93, R51, R131). -/
def ReadsAs (c : Cfg) (es : List Byte) (v : Byte) : Prop :=
  ∀ i, i < 8 → (v.getLsbD i = true ↔ es[i]? = some c.readTxByte)

/-- The response bytes in `RXBUF` are the ones the read echoes of a round trip make: response byte `k` comes from
the eight echoes that follow the `8 * written + 8 * k` earlier ones (R52, R141). -/
def ResponseIs (c : Cfg) (d : Descriptor) (payload es rxbuf : List Byte) : Prop :=
  ∀ k, k < d.rx → ∃ v, rxbuf[k]? = some v ∧
    ReadsAs c ((es.drop (8 * (writtenBytes d payload).length + 8 * k)).take 8) v

/-- The `C.*` request of a descriptor (R96, column "used by"). -/
def requestOf : Command → List Byte → Instr
  | .init, p => .cInit p
  | .readRom, p => .cReadrom p
  | .skipRom, p => .cSkiprom p
  | .convertT, p => .cConvertt p
  | .readScratch, p => .cRscratch p
  | .writeScratch, p => .cWscratch p

/-- The bits of a request word that the row of a request uses; every other bit is ignored (R82, R87). -/
def usedBits : Instr → Word
  | .tReset => 0x0000003F
  | .tWbit _ => 0x0000013F
  | .tRbit => 0x0000003F
  | .tWbyte _ => 0x0000FF3F
  | .tRbyte => 0x0000003F
  | .cInit p => payloadBits p
  | .cReadrom p => payloadBits p
  | .cSkiprom p => payloadBits p
  | .cConvertt p => payloadBits p
  | .cRscratch p => payloadBits p
  | .cWscratch p => payloadBits p
  | .kDecode => 0x0000003F
  | .kEncode _ _ _ => 0xFFFFFF3F
  | .wWaitNone => 0x0000033F
  | .wWaitData => 0x0000033F
  | .wWaitDelay => 0x0000033F
  | .sInitialize => 0x0000003F
  | .sConvertNone => 0x0000033F
  | .sConvertData => 0x0000033F
  | .sConvertDelay => 0x0000033F
  | .sReadscratch => 0x0000003F
  | .sWritescratch _ _ _ => 0xFFFFFF3F
  | .sReadrom => 0x0000003F
  | .sSkiprom => 0x0000003F
where
  /-- `OPSEL`, `PLEN` and the first `PLEN` argument bytes (R82 (e)). -/
  payloadBits (p : List Byte) : Word :=
    match p.length with
    | 0 => 0x000000FF
    | 1 => 0x0000FFFF
    | 2 => 0x00FFFFFF
    | _ => 0xFFFFFFFF

/-- The causes an operation can end with: the rows of the table of R230; `TIMEOUT` only with `POLL_LIMIT` set. -/
def possibleCauses (c : Cfg) : Instr → List Cause
  | .tReset => [.transfer]
  | .tWbit _ => [.transfer]
  | .tRbit => [.transfer]
  | .tWbyte _ => [.transfer]
  | .tRbyte => [.transfer]
  | .cInit _ => [.connectivity, .transfer, .contract]
  | .cReadrom _ => [.connectivity, .transfer, .contract]
  | .cSkiprom _ => [.connectivity, .transfer, .contract]
  | .cConvertt _ => [.connectivity, .transfer, .contract]
  | .cRscratch _ => [.connectivity, .transfer, .contract]
  | .cWscratch _ => [.connectivity, .transfer, .contract]
  | .kDecode => [.decode]
  | .kEncode _ _ _ => []
  | .wWaitNone => []
  | .wWaitData => .transfer :: whenLimited
  | .wWaitDelay => [.resolution]
  | .sInitialize => [.connectivity, .transfer]
  | .sConvertNone => [.connectivity, .transfer]
  | .sConvertData => .connectivity :: .transfer :: whenLimited
  | .sConvertDelay => [.connectivity, .transfer, .resolution]
  | .sReadscratch => [.connectivity, .transfer, .decode]
  | .sWritescratch _ _ _ => [.connectivity, .transfer]
  | .sReadrom => [.connectivity, .transfer]
  | .sSkiprom => [.connectivity, .transfer]
where
  /-- `TIMEOUT` exists only when `POLL_LIMIT` is set (R217). -/
  whenLimited : List Cause := if c.pollLimit = none then [] else [.timeout]

/-! ## Invariants -/

/-- `FAIL = 0` if and only if `CAUSE = 0` (R27, R40 (a)). -/
def State.StatusConsistent (s : State) : Prop := s.failFlag = false ↔ s.causeField = 0

/-- What holds between any two steps (R40 (a), (b), (c); widths of R23, R29, R30; R32): the status is consistent,
the lengths are in range, an idle block has its sequencer idle, `BAUDSEL` is not `RESET` except inside a call that
does not return, and the poll count has not reached the limit. -/
def State.Inv (s : State) : Prop :=
  s.StatusConsistent ∧
  s.sn.length = 6 ∧
  s.rxbuf.length = s.params.rxbufLen ∧ s.rxlen ≤ s.params.rxbufLen ∧
  s.txbuf.length = 3 ∧ (s.txlen = 0 ∨ s.txlen = 3) ∧
  (s.busy = false → s.seq = .idle) ∧
  (s.seq ≠ .calling → s.baudsel ≠ .reset) ∧
  (∀ n limit, s.seq = .polling n → s.params.pollLimit = some limit → n < limit)

/-- The data registers hold a decoded reading: `CFG` is one of the four patterns and `TEMP` has no bit outside the
data mask of that resolution and the sign mask (R40 (d), R25). -/
def State.Decoded (s : State) : Prop :=
  ∃ r, s.params.resLookup s.cfg = some r ∧
    s.temp &&& ~~~((s.params.row r).dataMask ||| s.params.signMask) = 0

/-- Two states that differ at most in registers that no operation reads: `REQ`, `STATUS`, `BUSY`, `SEQ`, `RDATA`,
`TXBUF`, `TXLEN`, `BAUDSEL`, `INITIALIZED`, `CONNECTED`, `SN`, `TH`, `TL`, `TEMP` (R21 to R31, "read by no
operation"), and in the host's future. -/
def State.SameInputs (s t : State) : Prop :=
  s.params = t.params ∧ s.link = t.link ∧ s.draws = t.draws ∧
    s.rxlen = t.rxlen ∧ s.rxbuf = t.rxbuf ∧ s.cfg = t.cfg

/-! ## Many steps, and requests one after the other -/

/-- `n` steps of the block, ended by a stop (as `Host.Core.run` of the core). -/
def steps : Nat → State → Host.Outcome State Fault Refusal
  | 0, s => .next s
  | n + 1, s =>
    match step s with
    | .next t => steps n t
    | .fault f => .fault f
    | .refused r => .refused r

/-- A host that issues requests one after the other and stops at the first that fails or does not complete
(R104). -/
def runUntilFailure : List Instr → State → Host.Outcome State Fault Refusal
  | [], s => .next s
  | i :: is, s =>
    match exec i s with
    | .next t => if t.busy = false ∧ t.failFlag = false then runUntilFailure is t else .next t
    | .fault f => .fault f
    | .refused r => .refused r

/-- `CompositeIs i is`: the request `i` does what the requests `is` do one after the other, as R104 says of a
composite and its expansion. The two end in the same state but for `STATUS` while `BUSY = 1`: a host sees the
intermediate `STATUS` values of the expansion. -/
def CompositeIs (i : Instr) (is : List Instr) (s : State) : Prop :=
  ∃ t t', exec i s = .next t ∧ runUntilFailure is s = .next t' ∧
    t = { t' with status := t.status } ∧ (t.busy = false → t.status = t'.status)

end Sys2Proof.Machine
end

