-- ==== Sys2Proof/Certificates/Slice0/Obligations.lean ====
section
/-! DEFINITION. The statements about the block. The wire bytes, rates, opcodes, lengths, patterns, masks and delays
stand in them as fields of the configuration record, so that each statement is about every well-formed record
(00_scope.md rules R8, R9). -/

open Sys2Proof Sys2Proof.Machine

/-! ## Encoding -/

/-- Words written out from the field layout of R81 and the selector map of R83 decode to their requests
(examples of 30_encoding.md R103 and 95_test_vectors.md section 7). -/
def Obligations.WordsOfTheSpecDecode : Prop :=
  decode 0x00000001#32 = .ok .tReset ∧
  decode 0x00000102#32 = .ok (.tWbit true) ∧
  decode 0x0000CC04#32 = .ok (.tWbyte 0xCC) ∧
  decode 0x1FC97DD5#32 = .ok (.cWscratch [0x7D, 0xC9, 0x1F]) ∧
  decode 0x00C97D95#32 = .ok (.cWscratch [0x7D, 0xC9]) ∧
  decode 0x1FC97D21#32 = .ok (.kEncode 0x7D 0xC9 0x1F) ∧
  decode 0x00000230#32 = .ok .wWaitDelay ∧
  decode 0x00000239#32 = .ok .sConvertDelay ∧
  decode 0xFFFFFD39#32 = .ok .sConvertData ∧
  decode 0x1FC97D3B#32 = .ok (.sWritescratch 0x7D 0xC9 0x1F) ∧
  decode 0x00000330#32 = .error .reservedStrat ∧
  decode 0x00000000#32 = .error .reservedOpsel

/-- Decoding the word of a well-formed request gives the request back, with every operand. -/
def Obligations.DecodeOfEncodeIsIdentity : Prop :=
  ∀ i : Instr, i.wf = true → decode (encode i) = .ok i

/-- R87: the bits that a request's row does not use are ignored, and the assembler writes them as zero. -/
def Obligations.UnusedFieldsAreIgnored : Prop :=
  (∀ (w w' : Word) (i : Instr), decode w = .ok i → w &&& usedBits i = w' &&& usedBits i →
    decode w' = .ok i) ∧
  (∀ i : Instr, i.wf = true → encode i &&& ~~~(usedBits i) = 0)

/-- A word decodes to a request of a row exactly when it matches the row's `match` under the row's `mask`. -/
def Obligations.TableRowsSelectWords : Prop :=
  (∀ (w : Word) (i : Instr), decode w = .ok i → w &&& tableMask i = tableMatch i) ∧
  (∀ (w : Word) (i : Instr), w &&& tableMask i = tableMatch i →
    ∃ j, decode w = .ok j ∧ tableMatch j = tableMatch i)

/-- R88: a word is illegal exactly when its selector is none of the twenty or its strategy is 3 where one is used;
an illegal request in `REQ` performs no event, changes nothing but `STATUS` and completes with `ILLEGAL`. -/
def Obligations.IllegalWordsFailWithIllegal : Prop :=
  ∀ w : Word,
    ((∃ e, decode w = .error e) ↔
      ((w.extractLsb' 0 6).toNat ∉
          [0x01, 0x02, 0x03, 0x04, 0x05, 0x10, 0x11, 0x12, 0x13, 0x14, 0x15, 0x20, 0x21, 0x30,
           0x38, 0x39, 0x3A, 0x3B, 0x3C, 0x3D] ∨
        ((w.extractLsb' 0 6).toNat ∈ [0x30, 0x39] ∧ (w.extractLsb' 8 2).toNat = 3))) ∧
    ((∃ e, decode w = .error e) → ∀ s : State, s.params.wf = true → s.req = w →
      runRequest s = .next { s with status := 0b1110#4, busy := false, seq := .idle })

/-! ## The step -/

/-- A step of an idle block whose host writes a word that decodes performs exactly that request, on the state with
the request accepted; a word that does not decode is performed as the illegal request. The host's list of actions,
one for each step, is the model's choice (log 9). -/
def Obligations.StepPerformsTheDecodedRequest : Prop :=
  ∀ (s : State) (w : Word) (i : Instr) (rest : List HostEvent), s.params.wf = true →
    s.busy = false → (s.host = .request w :: rest ∨ s.host = .write w :: rest) →
    (decode w = .ok i →
      step s = exec i { s with req := w, busy := true, seq := .idle, host := rest }) ∧
    (∀ e, decode w = .error e →
      step s = .next { s with
        req := w, host := rest, status := 0b1110#4, busy := false, seq := .idle })

/-- An idle block does nothing until the host writes `REQ`. That no host action is an empty list is the model's choice
(log 9). -/
def Obligations.IdleBlockDoesNothing : Prop :=
  ∀ s : State, s.params.wf = true → s.busy = false → s.host = [] → step s = .next s

/-- A write of `REQ` while `BUSY = 1` is not accepted and has no effect: the step is the one of a host that does
nothing (D29). The host's list of actions is the model's choice (log 9). -/
def Obligations.WriteWhileBusyHasNoEffect : Prop :=
  ∀ (s : State) (w : Word) (rest : List HostEvent), s.busy = true →
    step { s with host := .write w :: rest } = step { s with host := .pause :: rest }

/-- The reset input gives the registers the values of R38, performs no event and touches neither the record nor the
answers to come. The values of the registers that R38 calls unspecified are not stated. The host's list and the
mark of a due reset are the model's choice (log 9, 11). -/
def Obligations.ResetInputSetsTheRegisters : Prop :=
  ∀ (s : State) (rest : List HostEvent), s.params.wf = true → s.host = .reset :: rest →
    ∃ t, step s = .next t ∧ t.initialized = false ∧ t.connected = false ∧ t.status = 0#4 ∧
      t.busy = false ∧ t.seq = .idle ∧ t.rxlen = 0 ∧ t.txlen = 0 ∧ t.baudsel = .unknown ∧
      t.params = s.params ∧ t.host = rest ∧
      t.link = { s.link with resetAfter := none }

/-- The state after power-on has the same values, and the record of R8 with the resolution table of R100. Of the
record's values the patterns 0x1F and 0x7F, the mask 0x07F8, the four delays, the step and the lengths 6 and 5 are the
document's; the others the spec derives, decides or supplies from general knowledge (log 12). That this record is the one after power-on, and an empty
trace, are the model's choice (log 1, 12, 16). -/
def Obligations.PowerOnState : Prop :=
  State.reset.initialized = false ∧ State.reset.connected = false ∧ State.reset.status = 0#4 ∧
    State.reset.busy = false ∧ State.reset.seq = .idle ∧ State.reset.rxlen = 0 ∧
    State.reset.txlen = 0 ∧ State.reset.baudsel = .unknown ∧ State.reset.link.trace = [] ∧
    State.reset.params = Cfg.standard ∧ Cfg.standard.wf = true ∧
    Cfg.standard = {
      baudReset := 9600, baudData := 115200
      resetTxByte := 0xF0, w0Byte := 0x00, w1Byte := 0xFF, readTxByte := 0xFF
      opcConvertT := 0x44, opcReadScratch := 0xBE, opcWriteScratch := 0x4E
      opcReadRom := 0x33, opcSkipRom := 0xCC
      romRxLen := 8, snOffset := 1, snLen := 6, scratchRxLen := 9, scratchMinLen := 5
      wscratchTxLen := 3, maxTx := 3, rxbufLen := 9
      row9 := Cfg.standard.row .r9, row10 := Cfg.standard.row .r10
      row11 := Cfg.standard.row .r11, row12 := Cfg.standard.row .r12
      signMask := 0xF800, step := 1 / 16, pollLimit := none } ∧
    Cfg.standard.row .r9 = { cfgPat := 0x1F, dataMask := 0x07F8, signWidth := 5, delayMs := 94 } ∧
    Cfg.standard.row .r10 = { cfgPat := 0x3F, dataMask := 0x07FC, signWidth := 5, delayMs := 188 } ∧
    Cfg.standard.row .r11 = { cfgPat := 0x5F, dataMask := 0x07FE, signWidth := 5, delayMs := 375 } ∧
    Cfg.standard.row .r12 = { cfgPat := 0x7F, dataMask := 0x07FF, signWidth := 5, delayMs := 750 }

/-- A reset that is due lands at the end of the event it is due at, whatever the operation: then the operation is
abandoned with no status and no clean-up and the registers have their reset values; until then it stays due. That
resets land at the ends of events is the model's choice (log 11). -/
def Obligations.ResetLandsInsideAnyOperation : Prop :=
  ∀ (i : Instr) (s t : State) (k : Nat), s.link.resetAfter = some k → exec i s = .next t →
    (t.link.resetAfter = none ∧ t.link.trace.length = s.link.trace.length + k + 1 ∧
      t.initialized = false ∧ t.connected = false ∧ t.status = 0#4 ∧ t.busy = false ∧
      t.seq = .idle ∧ t.rxlen = 0 ∧ t.txlen = 0 ∧ t.baudsel = .unknown) ∨
    (∃ j, t.link.resetAfter = some j ∧ t.link.trace.length + j = s.link.trace.length + k)

/-! ## The Bus Transceiver -/

/-- R122: the words of `T.RESET`, and its outcome for every echo and for every failing exchange. -/
def Obligations.TResetOutcome : Prop :=
  (∀ w : Word, w.extractLsb' 0 6 = 0x01#6 → decode w = .ok .tReset) ∧
  ∀ s : State, s.Ready →
    (∀ e, s.link.Echoes [e] →
      exec .tReset s = .next { s with
        link := s.link.after 1 (resetEvents s.params e), baudsel := .data
        connected := decide (e ≠ s.params.resetTxByte)
        rdata := if e ≠ s.params.resetTxByte then 1 else 0
        status := 0b0000#4, busy := false, seq := .idle }) ∧
    (∀ l, (s.link.afterEvent (.setBaud s.params.baudReset)).ExchangeFails s.params.resetTxByte l →
      exec .tReset s = .next { s with
        link := l.afterEvent (.setBaud s.params.baudData), baudsel := .data, connected := false
        status := 0b1010#4, busy := false, seq := .idle })

/-- R126, R125: the words of `T.WBIT`, of whose `ARG0` only bit 0 counts; it transmits `W1_BYTE` or `W0_BYTE`, discards
the echo and writes `STATUS` only. -/
def Obligations.TWbitOutcome : Prop :=
  (∀ w : Word, w.extractLsb' 0 6 = 0x02#6 → decode w = .ok (.tWbit (w.getLsbD 8))) ∧
  ∀ (s : State) (b : Bool), s.Ready →
    (∀ e, s.link.Echoes [e] →
      exec (.tWbit b) s = .next { s with
        link := s.link.after 1
          (exchangeEvents (if b then s.params.w1Byte else s.params.w0Byte) e)
        status := 0b0000#4, busy := false, seq := .idle }) ∧
    (∀ l, s.link.ExchangeFails (if b then s.params.w1Byte else s.params.w0Byte) l →
      exec (.tWbit b) s = .next { s with
        link := l, status := 0b1010#4, busy := false, seq := .idle })

/-- R128, R127: the words of `T.RBIT`; it transmits `READ_TX_BYTE` and reads 1 exactly from that byte. -/
def Obligations.TRbitOutcome : Prop :=
  (∀ w : Word, w.extractLsb' 0 6 = 0x03#6 → decode w = .ok .tRbit) ∧
  ∀ s : State, s.Ready →
    (∀ e, s.link.Echoes [e] →
      exec .tRbit s = .next { s with
        link := s.link.after 1 (exchangeEvents s.params.readTxByte e)
        rdata := if e = s.params.readTxByte then 1 else 0
        status := 0b0000#4, busy := false, seq := .idle }) ∧
    (∀ l, s.link.ExchangeFails s.params.readTxByte l →
      exec .tRbit s = .next { s with
        link := l, status := 0b1010#4, busy := false, seq := .idle })

/-- R129, R130: the words of `T.WBYTE`; it is eight slots, bit 0 first; a failure in slot `j` ends it there. -/
def Obligations.TWbyteOutcome : Prop :=
  (∀ w : Word, w.extractLsb' 0 6 = 0x04#6 → decode w = .ok (.tWbyte (w.extractLsb' 8 8))) ∧
  ∀ (s : State) (v : Byte), s.Ready →
    (∀ es, es.length = 8 → s.link.Echoes es →
      exec (.tWbyte v) s = .next { s with
        link := s.link.after 8 (slotEvents (wireBytes s.params v) es)
        status := 0b0000#4, busy := false, seq := .idle }) ∧
    (∀ (es : List Byte) (l : Link), es.length < 8 → s.link.Echoes es →
      (s.link.after es.length
        (slotEvents ((wireBytes s.params v).take es.length) es)).ExchangeFails
        (if v.getLsbD es.length then s.params.w1Byte else s.params.w0Byte) l →
      exec (.tWbyte v) s = .next { s with
        link := l, status := 0b1010#4, busy := false, seq := .idle })

/-- R131, R132: the words of `T.RBYTE`; it is eight read slots, slot `i` giving bit `i` of `RDATA`; a failure in a slot
ends it there and leaves `RDATA`. -/
def Obligations.TRbyteOutcome : Prop :=
  (∀ w : Word, w.extractLsb' 0 6 = 0x05#6 → decode w = .ok .tRbyte) ∧
  ∀ s : State, s.Ready →
    (∀ es, es.length = 8 → s.link.Echoes es →
      ∃ v, ReadsAs s.params es v ∧
        exec .tRbyte s = .next { s with
          link := s.link.after 8 (slotEvents (List.replicate 8 s.params.readTxByte) es)
          rdata := v
          status := 0b0000#4, busy := false, seq := .idle }) ∧
    (∀ (es : List Byte) (l : Link), es.length < 8 → s.link.Echoes es →
      (s.link.after es.length
        (slotEvents (List.replicate es.length s.params.readTxByte) es)).ExchangeFails
        s.params.readTxByte l →
      exec .tRbyte s = .next { s with
        link := l, status := 0b1010#4, busy := false, seq := .idle })

/-- Both directions are bit 0 first: if the echoes of a `T.RBYTE` are the bytes a `T.WBYTE v` transmits, it reads
`v`. The premise names the default slot bytes' relation: a write-1 slot and a read slot send the same byte. -/
def Obligations.EchoedByteReadsBack : Prop :=
  ∀ (s : State) (v : Byte), s.Ready → s.params.w1Byte = s.params.readTxByte →
    s.link.Echoes (wireBytes s.params v) →
    ∃ t, exec .tRbyte s = .next t ∧ t.rdata = v ∧ t.status = 0b0000#4 ∧ t.busy = false

/-- A call that never returns holds the block (R226). Whatever request a call leaves inside it, `BUSY = 1`; and from every
such state no number of steps changes anything but the host's list, whatever the host does short of a reset. Where the
block is then: in a bit, byte or poll slot nothing but the boundary has changed; in a bus reset, of `T.RESET` and of
every request that starts with one, `BAUDSEL` is still `RESET` and `CONNECTED` as before; in a slot of a `C` request the
reset is behind it. The later calls of the `S` requests are those of their expansions (`SixCompositesAreTheirExpansions`,
`SReadromIsTheRoundTripThenTheCopy`, `SInitializeIsItsExpansion`). The position `calling` is the model's choice (log 7),
and so is the host's list (log 9). -/
def Obligations.CallThatNeverReturnsHoldsTheBlock : Prop :=
  (∀ (i : Instr) (s t : State), exec i s = .next t → t.seq = .calling → t.busy = true) ∧
  (∀ s : State, s.params.wf = true → s.busy = true → s.seq = .calling → s.NoReset →
    ∀ n, ∃ u, steps n s = .next u ∧ u = { s with host := u.host }) ∧
  ∀ (s : State) (l : Link), s.Ready →
    (∀ b, s.link.ExchangeHangs (if b then s.params.w1Byte else s.params.w0Byte) l →
      exec (.tWbit b) s = .next { s with link := l, busy := true, seq := .calling }) ∧
    (s.link.ExchangeHangs s.params.readTxByte l →
      ∀ i ∈ [Instr.tRbit, .wWaitData],
        exec i s = .next { s with link := l, busy := true, seq := .calling }) ∧
    (∀ (v : Byte) (es : List Byte), es.length < 8 → s.link.Echoes es →
      (s.link.after es.length
        (slotEvents ((wireBytes s.params v).take es.length) es)).ExchangeHangs
        (if v.getLsbD es.length then s.params.w1Byte else s.params.w0Byte) l →
      exec (.tWbyte v) s = .next { s with link := l, busy := true, seq := .calling }) ∧
    (∀ es : List Byte, es.length < 8 → s.link.Echoes es →
      (s.link.after es.length
        (slotEvents (List.replicate es.length s.params.readTxByte) es)).ExchangeHangs
        s.params.readTxByte l →
      exec .tRbyte s = .next { s with link := l, busy := true, seq := .calling }) ∧
    ((s.link.afterEvent (.setBaud s.params.baudReset)).ExchangeHangs s.params.resetTxByte l →
      (∀ i ∈ [Instr.tReset, .sInitialize],
        exec i s = .next { s with
          link := l, baudsel := .reset, busy := true, seq := .calling }) ∧
      (∀ i, i ∈ [Instr.sConvertNone, .sConvertData, .sConvertDelay, .sReadscratch, .sReadrom, .sSkiprom] ∨
          (∃ cmd payload, payload.length = (s.params.desc cmd).tx ∧ i = requestOf cmd payload) →
        ∃ t, exec i s = .next t ∧
          t = { s with
            rxbuf := t.rxbuf, draws := t.draws, rxlen := 0
            link := l, baudsel := .reset, busy := true, seq := .calling }) ∧
      (∀ th tl cfg, ∃ t, exec (.sWritescratch th tl cfg) s = .next t ∧
        t = { s with
          rxbuf := t.rxbuf, draws := t.draws, rxlen := 0, txbuf := [th, tl, cfg], txlen := 3
          link := l, baudsel := .reset, busy := true, seq := .calling })) ∧
    (∀ (cmd : Command) (payload : List Byte) (e0 : Byte) (es : List Byte) (b : Byte),
      payload.length = (s.params.desc cmd).tx → e0 ≠ s.params.resetTxByte →
      s.link.Echoes (e0 :: es) →
      (commandBytes s.params (s.params.desc cmd) payload)[es.length]? = some b →
      (s.link.after (1 + es.length) (resetEvents s.params e0 ++
        slotEvents ((commandBytes s.params (s.params.desc cmd) payload).take es.length) es)).ExchangeHangs
        b l →
      ∃ t, exec (requestOf cmd payload) s = .next t ∧
        t = { s with
          rxbuf := t.rxbuf, draws := t.draws, rxlen := 0
          link := l, baudsel := .data, connected := true, busy := true, seq := .calling })

/-! ## The Command Dispatcher -/

/-- The descriptor table of R96 and R97, entry by entry; and `C.INIT`, `C.READROM`, `C.SKIPROM`, `C.CONVERTT`,
`C.RSCRATCH` and `C.WSCRATCH` (the six values of `requestOf`): with a payload that fits the descriptor, presence seen and
every slot answered, the request completes with the exact events, the response in `RXBUF`, and nothing else written
(R141 to R148). The unspecified bytes of `RXBUF` are free values of the model (log 4); none is stated. -/
def Obligations.CommandRoundTripSucceeds : Prop :=
  (∀ c : Cfg,
    c.desc .init = { op := none, rx := 0, tx := 0 } ∧
    c.desc .readRom = { op := some c.opcReadRom, rx := c.romRxLen, tx := 0 } ∧
    c.desc .skipRom = { op := some c.opcSkipRom, rx := 0, tx := 0 } ∧
    c.desc .convertT = { op := some c.opcConvertT, rx := 0, tx := 0 } ∧
    c.desc .readScratch = { op := some c.opcReadScratch, rx := c.scratchRxLen, tx := 0 } ∧
    c.desc .writeScratch = { op := some c.opcWriteScratch, rx := 0, tx := c.wscratchTxLen }) ∧
  ∀ (cmd : Command) (payload : List Byte) (s : State) (e0 : Byte) (es : List Byte), s.Ready →
    payload.length = (s.params.desc cmd).tx → e0 ≠ s.params.resetTxByte →
    es.length = 8 * ((s.params.desc cmd).op.toList.length + (s.params.desc cmd).tx +
      (s.params.desc cmd).rx) →
    s.link.Echoes (e0 :: es) →
    ∃ t, exec (requestOf cmd payload) s = .next t ∧
      ResponseIs s.params (s.params.desc cmd) payload es t.rxbuf ∧
      t.rxbuf.length = s.params.rxbufLen ∧
      t.link.trace.length = s.link.trace.length + 4 +
        16 * ((s.params.desc cmd).op.toList.length + (s.params.desc cmd).tx +
          (s.params.desc cmd).rx) ∧
      t = { s with
        rxbuf := t.rxbuf, draws := t.draws, rxlen := (s.params.desc cmd).rx
        link := s.link.after (1 + es.length)
          (commandEvents s.params (s.params.desc cmd) payload e0 es)
        baudsel := .data, connected := true
        status := 0b0000#4, busy := false, seq := .idle }

/-- A payload whose length is not the descriptor's: `CONTRACT`, no event, `RXLEN` 0 and `RXBUF` unspecified. -/
def Obligations.CommandPayloadMismatchFailsFast : Prop :=
  ∀ (cmd : Command) (payload : List Byte) (s : State), s.params.wf = true →
    payload.length ≠ (s.params.desc cmd).tx →
    ∃ t, exec (requestOf cmd payload) s = .next t ∧
      t = { s with
        rxbuf := t.rxbuf, draws := t.draws, rxlen := 0
        status := 0b1101#4, busy := false, seq := .idle }

/-- No presence pulse: `CONNECTIVITY`, and no transmission after the reset. -/
def Obligations.CommandWithoutPresenceFails : Prop :=
  ∀ (cmd : Command) (payload : List Byte) (s : State), s.Ready →
    payload.length = (s.params.desc cmd).tx → s.link.Echoes [s.params.resetTxByte] →
    ∃ t, exec (requestOf cmd payload) s = .next t ∧
      t = { s with
        rxbuf := t.rxbuf, draws := t.draws, rxlen := 0
        link := s.link.after 1 (resetEvents s.params s.params.resetTxByte)
        baudsel := .data, connected := false
        status := 0b1001#4, busy := false, seq := .idle }

/-- A transfer failure in the reset of a round trip: `TRANSFER`, the data rate restored, `CONNECTED` cleared. -/
def Obligations.CommandResetTransferFailure : Prop :=
  ∀ (cmd : Command) (payload : List Byte) (s : State) (l : Link), s.Ready →
    payload.length = (s.params.desc cmd).tx →
    (s.link.afterEvent (.setBaud s.params.baudReset)).ExchangeFails s.params.resetTxByte l →
    ∃ t, exec (requestOf cmd payload) s = .next t ∧
      t = { s with
        rxbuf := t.rxbuf, draws := t.draws, rxlen := 0
        link := l.afterEvent (.setBaud s.params.baudData)
        baudsel := .data, connected := false
        status := 0b1010#4, busy := false, seq := .idle }

/-- A transfer failure in a slot of a round trip: the earlier slots are done, no later one is, `TRANSFER`. -/
def Obligations.CommandSlotTransferFailure : Prop :=
  ∀ (cmd : Command) (payload : List Byte) (s : State) (e0 : Byte) (es : List Byte) (b : Byte)
    (l : Link), s.Ready →
    payload.length = (s.params.desc cmd).tx → e0 ≠ s.params.resetTxByte →
    s.link.Echoes (e0 :: es) →
    (commandBytes s.params (s.params.desc cmd) payload)[es.length]? = some b →
    (s.link.after (1 + es.length) (resetEvents s.params e0 ++
      slotEvents ((commandBytes s.params (s.params.desc cmd) payload).take es.length) es)).ExchangeFails
      b l →
    ∃ t, exec (requestOf cmd payload) s = .next t ∧
      t = { s with
        rxbuf := t.rxbuf, draws := t.draws, rxlen := 0
        link := l, baudsel := .data, connected := true
        status := 0b1010#4, busy := false, seq := .idle }

/-! ## The Scratchpad Codec -/

/-- `K.DECODE` of a response with a known config byte: mask, then sign by bit 15, the limits and the config byte
verbatim, and nothing else written (R161, R162). -/
def Obligations.KDecodeResult : Prop :=
  ∀ (s : State) (lsb msb th tl cfg : Byte) (rest : List Byte) (r : Resolution), s.params.wf = true →
    5 ≤ s.rxlen → s.rxbuf = lsb :: msb :: th :: tl :: cfg :: rest →
    cfg = (s.params.row r).cfgPat →
    exec .kDecode s = .next { s with
      temp := if msb.getLsbD 7
        then ((msb ++ lsb) &&& (s.params.row r).dataMask) ||| s.params.signMask
        else (msb ++ lsb) &&& (s.params.row r).dataMask
      th := th, tl := tl, cfg := cfg
      status := 0b0000#4, busy := false, seq := .idle }

/-- R168: a response of fewer than five bytes, or with a config byte that is none of the four patterns, is a decode
failure and changes nothing. -/
def Obligations.DecodeFailureChangesNothing : Prop :=
  ∀ s : State, s.params.wf = true →
    (s.rxlen < 5 ∨
      ∃ c, s.rxbuf[4]? = some c ∧ ∀ r, c ≠ (s.params.row r).cfgPat) →
    exec .kDecode s = .next { s with status := 0b1011#4, busy := false, seq := .idle }

/-- R163: the words of `K.ENCODE`; it puts the three bytes in `TXBUF` in wire order and writes nothing else; every
operand is accepted. -/
def Obligations.KEncodeResult : Prop :=
  (∀ w : Word, w.extractLsb' 0 6 = 0x21#6 →
    decode w = .ok (.kEncode (w.extractLsb' 8 8) (w.extractLsb' 16 8) (w.extractLsb' 24 8))) ∧
  ∀ (s : State) (th tl cfg : Byte), s.params.wf = true →
    exec (.kEncode th tl cfg) s = .next { s with
      txbuf := [th, tl, cfg], txlen := 3
      status := 0b0000#4, busy := false, seq := .idle }

/-- R169: encoding a triple and decoding a response with the same three bytes reproduces them; with a config byte
that is not recognised the encode succeeds, the decode fails and changes nothing. -/
def Obligations.EncodeDecodeRoundTrip : Prop :=
  ∀ (s u : State) (a b c lsb msb : Byte) (rest : List Byte), s.params.wf = true →
    u.params = s.params →
    ∃ t, exec (.kEncode a b c) s = .next t ∧ t.status = 0b0000#4 ∧
      (5 ≤ u.rxlen → u.rxbuf = lsb :: msb :: (t.txbuf ++ rest) →
        ∃ v, exec .kDecode u = .next v ∧
          ((∃ r, c = (s.params.row r).cfgPat) →
            v.status = 0b0000#4 ∧ v.th = a ∧ v.tl = b ∧ v.cfg = c) ∧
          ((∀ r, c ≠ (s.params.row r).cfgPat) →
            v.status = 0b1011#4 ∧ v.th = u.th ∧ v.tl = u.tl ∧ v.cfg = u.cfg ∧ v.temp = u.temp))

/-- R167: whatever operation writes `TEMP` leaves it between -2048 and 2047 counts, that is between -128 and 127.9375
degrees, and every raw value decodes. The premises name the spec's sign mask (decision D22) and its step. -/
def Obligations.DecodedTemperatureIsInRange : Prop :=
  ∀ s : State, s.Ready → s.params.signMask = 0xF800#16 → s.params.step = 1 / 16 →
    (∀ (i : Instr) (t : State), exec i s = .next t → t.temp ≠ s.temp →
      -2048 ≤ t.temp.toInt ∧ t.temp.toInt ≤ 2047 ∧
      -128 ≤ t.celsius ∧ t.celsius ≤ 2047 / 16) ∧
    (∀ (lsb msb th tl : Byte) (rest : List Byte) (r : Resolution), 5 ≤ s.rxlen →
      s.rxbuf = lsb :: msb :: th :: tl :: (s.params.row r).cfgPat :: rest →
      ∃ t, exec .kDecode s = .next t ∧ t.status = 0b0000#4 ∧
        -2048 ≤ t.temp.toInt ∧ t.temp.toInt ≤ 2047)

/-- When the five top bits of the raw value are equal, a decode rounds it toward minus infinity to a multiple of
`2^k` counts, `k = 12 - r` (R173, R172). The premises name the masks of R100 and the sign mask of D22. -/
def Obligations.DecodeRoundsTowardMinusInfinity : Prop :=
  ∀ (s : State) (lsb msb th tl cfg : Byte) (rest : List Byte) (r : Resolution) (k : Nat),
    s.params.wf = true → s.params.signMask = 0xF800#16 →
    (r, k) ∈ [(Resolution.r9, 3), (Resolution.r10, 2), (Resolution.r11, 1), (Resolution.r12, 0)] →
    (s.params.row r).dataMask = 0x07FF#16 &&& ~~~(BitVec.ofNat 16 (2 ^ k - 1)) →
    5 ≤ s.rxlen → s.rxbuf = lsb :: msb :: th :: tl :: cfg :: rest →
    cfg = (s.params.row r).cfgPat →
    (msb.extractLsb' 3 5 = 0#5 ∨ msb.extractLsb' 3 5 = 31#5) →
    ∃ t, exec .kDecode s = .next t ∧ t.status = 0b0000#4 ∧
      t.temp.toInt = 2 ^ k * ((msb ++ lsb).toInt / 2 ^ k)

/-! ## The Conversion Waiter -/

/-- R181: the words of `W.WAIT NONE`; it performs no event and writes `STATUS` only. -/
def Obligations.WaitNoneResult : Prop :=
  (∀ w : Word, w.extractLsb' 0 6 = 0x30#6 → w.extractLsb' 8 2 = 0#2 → decode w = .ok .wWaitNone) ∧
  ∀ s : State, s.params.wf = true →
    exec .wWaitNone s = .next { s with status := 0b0000#4, busy := false, seq := .idle }

/-- R183: the words of `W.WAIT DELAY`; it performs one `Sleep` of the delay of the resolution whose pattern `CFG` holds,
or fails with `RESOLUTION` and no event; the delays of the default record are 94, 188, 375 and 750. -/
def Obligations.WaitDelayOutcome : Prop :=
  (∀ w : Word, w.extractLsb' 0 6 = 0x30#6 → w.extractLsb' 8 2 = 2#2 → decode w = .ok .wWaitDelay) ∧
  ((Cfg.standard.row .r9).delayMs = 94 ∧ (Cfg.standard.row .r10).delayMs = 188 ∧
    (Cfg.standard.row .r11).delayMs = 375 ∧ (Cfg.standard.row .r12).delayMs = 750) ∧
  ∀ s : State, s.Ready →
    (∀ r, s.cfg = (s.params.row r).cfgPat →
      exec .wWaitDelay s = .next { s with
        link := s.link.afterEvent (.sleep (s.params.row r).delayMs)
        status := 0b0000#4, busy := false, seq := .idle }) ∧
    ((∀ r, s.cfg ≠ (s.params.row r).cfgPat) →
      exec .wWaitDelay s = .next { s with status := 0b1100#4, busy := false, seq := .idle })

/-- `W.WAIT DATA` whose first poll reads 1, or whose first poll's transfer fails, completes at it (R182). That each
later poll is a step of its own is the model's choice (log 8). -/
def Obligations.WaitDataFirstPoll : Prop :=
  ∀ s : State, s.Ready →
    (s.link.Echoes [s.params.readTxByte] →
      exec .wWaitData s = .next { s with
        link := s.link.after 1 (exchangeEvents s.params.readTxByte s.params.readTxByte)
        status := 0b0000#4, busy := false, seq := .idle }) ∧
    (∀ l, s.link.ExchangeFails s.params.readTxByte l →
      exec .wWaitData s = .next { s with
        link := l, status := 0b1010#4, busy := false, seq := .idle })

/-- `W.WAIT DATA` completes at the first poll that reads 1: after any number of polls that read 0, below the limit
if there is one, with exactly these slots and writing `STATUS` only, whatever the host does short of a reset (R182). One
poll for each step is the model's choice (log 8), and so is the host's list (log 9). -/
def Obligations.WaitDataEndsAtTheFirstOne : Prop :=
  ∀ (s : State) (zs : List Byte), s.Ready → s.NoReset → (∀ z ∈ zs, z ≠ s.params.readTxByte) →
    (∀ limit, s.params.pollLimit = some limit → zs.length < limit) →
    s.link.Echoes (zs ++ [s.params.readTxByte]) →
    ∃ t u, exec .wWaitData s = .next t ∧ steps zs.length t = .next u ∧
      u = { s with
        link := s.link.after (zs.length + 1)
          (slotEvents (List.replicate (zs.length + 1) s.params.readTxByte)
            (zs ++ [s.params.readTxByte]))
        status := 0b0000#4, busy := false, seq := .idle, host := u.host }

/-- R187: with no limit, as long as every poll reads 0 the operation has not completed, whatever the host tries short of
a reset: for any number of polls `BUSY` stays 1, no other request is accepted, and nothing but the boundary, the
sequencer and the host's own list changes. A reset ends it. One poll for each step is the model's choice (log 8). -/
def Obligations.WaitDataHangsWhileEveryPollReadsZero : Prop :=
  ∀ (s : State) (z : Byte) (zs : List Byte), s.Ready → s.params.pollLimit = none →
    (∀ y ∈ z :: zs, y ≠ s.params.readTxByte) → s.link.Echoes (z :: zs) →
    ∃ t, exec .wWaitData s = .next t ∧
      (s.NoReset → ∃ u, steps zs.length t = .next u ∧
        u = { s with
          link := s.link.after (zs.length + 1)
            (slotEvents (List.replicate (zs.length + 1) s.params.readTxByte) (z :: zs))
          busy := true, seq := .polling (zs.length + 1), host := u.host }) ∧
      (∀ rest, s.host = .reset :: rest → ∃ u, step t = .next u ∧ u.busy = false)

/-- `W.WAIT DATA` one of whose polls has a failing exchange ends there with `TRANSFER`, after any number of polls that
read 0, and writes `STATUS` only, whatever the host does short of a reset (R182). One poll for each step is the model's
choice (log 8), and so is the host's list (log 9). -/
def Obligations.WaitDataFailsAtAFailingPoll : Prop :=
  ∀ (s : State) (zs : List Byte) (l : Link), s.Ready → s.NoReset →
    (∀ z ∈ zs, z ≠ s.params.readTxByte) →
    (∀ limit, s.params.pollLimit = some limit → zs.length < limit) → s.link.Echoes zs →
    (s.link.after zs.length
      (slotEvents (List.replicate zs.length s.params.readTxByte) zs)).ExchangeFails
      s.params.readTxByte l →
    ∃ t u, exec .wWaitData s = .next t ∧ steps zs.length t = .next u ∧
      u = { s with
        link := l, status := 0b1010#4, busy := false, seq := .idle, host := u.host }

/-- R186: with `POLL_LIMIT = N` the wait fails with `TIMEOUT` after `N` consecutive polls that read 0, having
performed exactly `N` slots, whatever the host does short of a reset. One poll for each step is the model's choice
(log 8), and so is the host's list (log 9). -/
def Obligations.WaitDataTimesOutAtTheLimit : Prop :=
  ∀ (s : State) (z : Byte) (zs : List Byte), s.Ready → s.NoReset →
    s.params.pollLimit = some (zs.length + 1) →
    (∀ y ∈ z :: zs, y ≠ s.params.readTxByte) → s.link.Echoes (z :: zs) →
    ∃ t u, exec .wWaitData s = .next t ∧ steps zs.length t = .next u ∧
      u = { s with
        link := s.link.after (zs.length + 1)
          (slotEvents (List.replicate (zs.length + 1) s.params.readTxByte) (z :: zs))
        status := 0b1111#4, busy := false, seq := .idle, host := u.host }

/-- One step of a block that is polling, of `W.WAIT DATA` or `S.CONVERT DATA`, from any such state and whatever the host
does short of the reset input: one poll that reads 1 is success, one that reads 0 is the next poll or `TIMEOUT` at the
limit, a failing exchange is `TRANSFER` (R182, R186), a call that never returns keeps the block (R226); a reset inside
the poll gives the reset values (R242). Only `STATUS` is written. `whileBusy` takes the host's action: what it writes
has no effect (D29). One poll for each step, the host's list, the position `calling` and resets at the ends of events
are the model's choice (log 7, 8, 9, 11). -/
def Obligations.StepOfAPollingBlock : Prop :=
  ∀ (s u : State) (n : Nat), s.params.wf = true → s.busy = true → s.seq = .polling n →
    (∀ rest, s.host ≠ .reset :: rest) → u = s.whileBusy →
    (u.link.resetAfter = none →
      (u.link.Echoes [s.params.readTxByte] →
        step s = .next { u with
          link := u.link.after 1 (exchangeEvents s.params.readTxByte s.params.readTxByte)
          status := 0b0000#4, busy := false, seq := .idle }) ∧
      (∀ z, z ≠ s.params.readTxByte → u.link.Echoes [z] →
        (s.params.pollLimit ≠ some (n + 1) →
          step s = .next { u with
            link := u.link.after 1 (exchangeEvents s.params.readTxByte z)
            seq := .polling (n + 1) }) ∧
        (s.params.pollLimit = some (n + 1) →
          step s = .next { u with
            link := u.link.after 1 (exchangeEvents s.params.readTxByte z)
            status := 0b1111#4, busy := false, seq := .idle })) ∧
      (∀ l, u.link.ExchangeFails s.params.readTxByte l →
        step s = .next { u with link := l, status := 0b1010#4, busy := false, seq := .idle }) ∧
      (∀ l, u.link.ExchangeHangs s.params.readTxByte l →
        step s = .next { u with link := l, seq := .calling })) ∧
    (∀ k, u.link.resetAfter = some k → ∃ t, step s = .next t ∧
      (k = 0 ∨ (k = 1 ∧ u.link.txAt 0 = .ok) →
        t.HasResetValues ∧ t.link.resetAfter = none ∧
          t.link.trace.length = s.link.trace.length + k + 1) ∧
      (¬(k = 0 ∨ (k = 1 ∧ u.link.txAt 0 = .ok)) →
        ∃ j, t.link.resetAfter = some j ∧
          t.link.trace.length + j = s.link.trace.length + k))

/-! ## The Sensor Session -/

/-- `S.READROM` with presence and every slot answered: the Read-ROM round trip, then the six serial bytes (R195). -/
def Obligations.SReadromSucceeds : Prop :=
  ∀ (s : State) (e0 : Byte) (es : List Byte), s.Ready → e0 ≠ s.params.resetTxByte →
    es.length = 8 * (1 + s.params.romRxLen) → s.link.Echoes (e0 :: es) →
    ∃ t, exec .sReadrom s = .next t ∧
      ResponseIs s.params (s.params.desc .readRom) [] es t.rxbuf ∧
      t.sn.length = 6 ∧ (∀ k, k < 6 → t.sn[k]? = t.rxbuf[s.params.snOffset + k]?) ∧
      t = { s with
        rxbuf := t.rxbuf, draws := t.draws, rxlen := s.params.romRxLen, sn := t.sn
        link := s.link.after (1 + es.length)
          (commandEvents s.params (s.params.desc .readRom) [] e0 es)
        baudsel := .data, connected := true
        status := 0b0000#4, busy := false, seq := .idle }

/-- R195: the words of `S.READROM`; it is the Read-ROM round trip, and when that succeeds the six serial bytes are copied
from the response into `SN`, all together; when it fails or does not complete, nothing is copied. -/
def Obligations.SReadromIsTheRoundTripThenTheCopy : Prop :=
  (∀ w : Word, w.extractLsb' 0 6 = 0x3C#6 → decode w = .ok .sReadrom) ∧
  ∀ s : State, s.Ready →
    ∃ t, exec (.cReadrom []) s = .next t ∧
      exec .sReadrom s = .next
        (if t.busy = false ∧ t.failFlag = false
          then { t with sn := (t.rxbuf.drop s.params.snOffset).take 6 } else t)

/-- `S.SKIPROM` with presence and every slot answered: the Skip-ROM round trip and nothing else (R196). -/
def Obligations.SSkipromSucceeds : Prop :=
  ∀ (s : State) (e0 : Byte) (es : List Byte), s.Ready → e0 ≠ s.params.resetTxByte →
    es.length = 8 → s.link.Echoes (e0 :: es) →
    ∃ t, exec .sSkiprom s = .next t ∧
      t = { s with
        rxbuf := t.rxbuf, draws := t.draws, rxlen := 0
        link := s.link.after 9 (commandEvents s.params (s.params.desc .skipRom) [] e0 es)
        baudsel := .data, connected := true
        status := 0b0000#4, busy := false, seq := .idle }

/-- `S.INITIALIZE` with presence at both resets and every slot answered: two resets, the Read-ROM slots, the serial
number, and the two flags (R191, last row of its table). -/
def Obligations.SInitializeSucceeds : Prop :=
  ∀ (s : State) (e0 e1 : Byte) (es : List Byte), s.Ready → e0 ≠ s.params.resetTxByte →
    e1 ≠ s.params.resetTxByte → es.length = 8 * (1 + s.params.romRxLen) →
    s.link.Echoes (e0 :: e1 :: es) →
    ∃ t, exec .sInitialize s = .next t ∧
      ResponseIs s.params (s.params.desc .readRom) [] es t.rxbuf ∧
      t.sn.length = 6 ∧ (∀ k, k < 6 → t.sn[k]? = t.rxbuf[s.params.snOffset + k]?) ∧
      t = { s with
        rxbuf := t.rxbuf, draws := t.draws, rxlen := s.params.romRxLen, sn := t.sn
        link := s.link.after (2 + es.length)
          (resetEvents s.params e0 ++
            commandEvents s.params (s.params.desc .readRom) [] e1 es)
        baudsel := .data, initialized := true, connected := true
        status := 0b0000#4, busy := false, seq := .idle }

/-- The failing rows of R191's table: in each `INITIALIZED` is cleared and `SN` unchanged; `CONNECTED` is what the
last reset left; without presence at the first reset no Read-ROM is attempted. -/
def Obligations.SInitializeFailures : Prop :=
  ∀ s : State, s.Ready →
    (∀ l, (s.link.afterEvent (.setBaud s.params.baudReset)).ExchangeFails s.params.resetTxByte l →
      exec .sInitialize s = .next { s with
        link := l.afterEvent (.setBaud s.params.baudData)
        baudsel := .data, initialized := false, connected := false
        status := 0b1010#4, busy := false, seq := .idle }) ∧
    (s.link.Echoes [s.params.resetTxByte] →
      exec .sInitialize s = .next { s with
        link := s.link.after 1 (resetEvents s.params s.params.resetTxByte)
        baudsel := .data, initialized := false, connected := false
        status := 0b1001#4, busy := false, seq := .idle }) ∧
    (∀ e0 l, e0 ≠ s.params.resetTxByte → s.link.Echoes [e0] →
      ((s.link.after 1 (resetEvents s.params e0)).afterEvent
        (.setBaud s.params.baudReset)).ExchangeFails s.params.resetTxByte l →
      ∃ t, exec .sInitialize s = .next t ∧
        t = { s with
          rxbuf := t.rxbuf, draws := t.draws, rxlen := 0
          link := l.afterEvent (.setBaud s.params.baudData)
          baudsel := .data, initialized := false, connected := false
          status := 0b1010#4, busy := false, seq := .idle }) ∧
    (∀ e0, e0 ≠ s.params.resetTxByte → s.link.Echoes [e0, s.params.resetTxByte] →
      ∃ t, exec .sInitialize s = .next t ∧
        t = { s with
          rxbuf := t.rxbuf, draws := t.draws, rxlen := 0
          link := s.link.after 2
            (resetEvents s.params e0 ++ resetEvents s.params s.params.resetTxByte)
          baudsel := .data, initialized := false, connected := false
          status := 0b1001#4, busy := false, seq := .idle }) ∧
    (∀ e0 e1 es b l, e0 ≠ s.params.resetTxByte → e1 ≠ s.params.resetTxByte →
      s.link.Echoes (e0 :: e1 :: es) →
      (commandBytes s.params (s.params.desc .readRom) [])[es.length]? = some b →
      (s.link.after (2 + es.length) (resetEvents s.params e0 ++ (resetEvents s.params e1 ++
        slotEvents ((commandBytes s.params (s.params.desc .readRom) []).take es.length)
          es))).ExchangeFails b l →
      ∃ t, exec .sInitialize s = .next t ∧
        t = { s with
          rxbuf := t.rxbuf, draws := t.draws, rxlen := 0
          link := l, baudsel := .data, initialized := false, connected := true
          status := 0b1010#4, busy := false, seq := .idle })

/-- `S.INITIALIZE` is its expansion (R104, R191): `T.RESET`, then `S.READROM` if present, then the flags, for every end
of the two. If the reset does not complete, neither does the request, at the same point; if it fails, or no device is
present, `INITIALIZED` is cleared and no Read-ROM attempted; else the request ends as `S.READROM` does, with
`INITIALIZED` cleared when that failed and both flags set when it succeeded. `RDATA` is not written, and `STATUS` not
while `BUSY = 1` (R104). -/
def Obligations.SInitializeIsItsExpansion : Prop :=
  ∀ s : State, s.Ready → ∃ t1, exec .tReset s = .next t1 ∧
    (t1.busy = true → exec .sInitialize s = .next t1) ∧
    (t1.busy = false → t1.failFlag = true →
      exec .sInitialize s = .next { t1 with initialized := false }) ∧
    (t1.busy = false → t1.failFlag = false → t1.rdata = 0 →
      exec .sInitialize s = .next { t1 with
        rdata := s.rdata, initialized := false, status := 0b1001#4 }) ∧
    (t1.busy = false → t1.failFlag = false → t1.rdata ≠ 0 →
      ∃ t2, exec .sReadrom { t1 with rdata := s.rdata } = .next t2 ∧
        (t2.busy = true → exec .sInitialize s = .next { t2 with status := s.status }) ∧
        (t2.busy = false → t2.failFlag = true →
          exec .sInitialize s = .next { t2 with initialized := false }) ∧
        (t2.busy = false → t2.failFlag = false →
          exec .sInitialize s = .next { t2 with initialized := true, connected := true }))

/-- The three `S.CONVERT` requests with presence at both resets and every slot answered: Skip-ROM, Convert-T, then
the wait of the strategy (R192): none; one poll that reads 1; one `Sleep` keyed by `CFG`, or `RESOLUTION` after both
commands have gone out. `TEMP` is not written. -/
def Obligations.SConvertOutcome : Prop :=
  ∀ (s : State) (e0 e1 : Byte) (es fs : List Byte), s.Ready → e0 ≠ s.params.resetTxByte →
    e1 ≠ s.params.resetTxByte → es.length = 8 → fs.length = 8 →
    s.link.Echoes (e0 :: es ++ e1 :: fs) →
    let evs := commandEvents s.params (s.params.desc .skipRom) [] e0 es ++
      commandEvents s.params (s.params.desc .convertT) [] e1 fs
    (∃ t, exec .sConvertNone s = .next t ∧
      t = { s with
        rxbuf := t.rxbuf, draws := t.draws, rxlen := 0
        link := s.link.after 18 evs, baudsel := .data, connected := true
        status := 0b0000#4, busy := false, seq := .idle }) ∧
    (s.link.Echoes (e0 :: es ++ e1 :: fs ++ [s.params.readTxByte]) →
      ∃ t, exec .sConvertData s = .next t ∧
        t = { s with
          rxbuf := t.rxbuf, draws := t.draws, rxlen := 0
          link := s.link.after 19
            (evs ++ exchangeEvents s.params.readTxByte s.params.readTxByte)
          baudsel := .data, connected := true
          status := 0b0000#4, busy := false, seq := .idle }) ∧
    (∀ r, s.cfg = (s.params.row r).cfgPat →
      ∃ t, exec .sConvertDelay s = .next t ∧
        t = { s with
          rxbuf := t.rxbuf, draws := t.draws, rxlen := 0
          link := s.link.after 18 (evs ++ [.sleep (s.params.row r).delayMs])
          baudsel := .data, connected := true
          status := 0b0000#4, busy := false, seq := .idle }) ∧
    ((∀ r, s.cfg ≠ (s.params.row r).cfgPat) →
      ∃ t, exec .sConvertDelay s = .next t ∧
        t = { s with
          rxbuf := t.rxbuf, draws := t.draws, rxlen := 0
          link := s.link.after 18 evs, baudsel := .data, connected := true
          status := 0b1100#4, busy := false, seq := .idle })

/-- `S.CONVERT DATA` whose poll reads 0 below the limit goes on polling like `W.WAIT DATA`: `BUSY` stays 1, and each
later step is one poll, whatever the host does short of a reset (R192, R182); how each later poll can end is
`StepOfAPollingBlock`. One poll for each step is the model's choice (log 8), and so is the host's list (log 9). -/
def Obligations.SConvertDataGoesOnPolling : Prop :=
  ∀ (s : State) (e0 e1 : Byte) (es fs : List Byte) (z : Byte) (zs : List Byte), s.Ready →
    s.NoReset → e0 ≠ s.params.resetTxByte → e1 ≠ s.params.resetTxByte →
    es.length = 8 → fs.length = 8 → (∀ y ∈ z :: zs, y ≠ s.params.readTxByte) →
    (∀ limit, s.params.pollLimit = some limit → zs.length + 1 < limit) →
    s.link.Echoes (e0 :: es ++ e1 :: fs ++ z :: zs ++ [s.params.readTxByte]) →
    ∃ t u, exec .sConvertData s = .next t ∧ t.busy = true ∧ t.seq = .polling 1 ∧
      steps (zs.length + 1) t = .next u ∧
      u = { s with
        rxbuf := u.rxbuf, draws := u.draws, rxlen := 0
        link := s.link.after (20 + zs.length)
          (commandEvents s.params (s.params.desc .skipRom) [] e0 es ++
            commandEvents s.params (s.params.desc .convertT) [] e1 fs ++
            slotEvents (List.replicate (zs.length + 2) s.params.readTxByte)
              (z :: zs ++ [s.params.readTxByte]))
        baudsel := .data, connected := true
        status := 0b0000#4, busy := false, seq := .idle, host := u.host }

/-- `S.READSCRATCH` with presence at both resets and every slot answered: Skip-ROM, Read-Scratchpad, then the decode
of the response: the four registers together when the config byte is known, none of them when it is not or when the
response is shorter than five bytes (R193). -/
def Obligations.SReadscratchOutcome : Prop :=
  ∀ (s : State) (e0 e1 : Byte) (es fs : List Byte), s.Ready → e0 ≠ s.params.resetTxByte →
    e1 ≠ s.params.resetTxByte → es.length = 8 → fs.length = 8 * (1 + s.params.scratchRxLen) →
    s.link.Echoes (e0 :: es ++ e1 :: fs) →
    ∃ t, exec .sReadscratch s = .next t ∧
      ResponseIs s.params (s.params.desc .readScratch) [] fs t.rxbuf ∧
      t = { s with
        rxbuf := t.rxbuf, draws := t.draws, rxlen := s.params.scratchRxLen
        temp := t.temp, th := t.th, tl := t.tl, cfg := t.cfg
        link := s.link.after (18 + 8 * s.params.scratchRxLen)
          (commandEvents s.params (s.params.desc .skipRom) [] e0 es ++
            commandEvents s.params (s.params.desc .readScratch) [] e1 fs)
        baudsel := .data, connected := true
        status := t.status, busy := false, seq := .idle } ∧
      (∀ lsb msb th tl cfg rest r, 5 ≤ s.params.scratchRxLen →
        t.rxbuf = lsb :: msb :: th :: tl :: cfg :: rest → cfg = (s.params.row r).cfgPat →
        t.status = 0b0000#4 ∧ t.th = th ∧ t.tl = tl ∧ t.cfg = cfg ∧
        t.temp = if msb.getLsbD 7
          then ((msb ++ lsb) &&& (s.params.row r).dataMask) ||| s.params.signMask
          else (msb ++ lsb) &&& (s.params.row r).dataMask) ∧
      ((s.params.scratchRxLen < 5 ∨
          ∃ c, t.rxbuf[4]? = some c ∧ ∀ r, c ≠ (s.params.row r).cfgPat) →
        t.status = 0b1011#4 ∧ t.temp = s.temp ∧ t.th = s.th ∧ t.tl = s.tl ∧ t.cfg = s.cfg)

/-- `S.WRITESCRATCH th, tl, cfg` with presence at both resets and every slot answered: the payload in `TXBUF`,
Skip-ROM, Write-Scratchpad with the three bytes in wire order; the cached `TH`, `TL`, `CFG` are not written
(R194). -/
def Obligations.SWritescratchSucceeds : Prop :=
  ∀ (s : State) (th tl cfg e0 e1 : Byte) (es fs : List Byte), s.Ready →
    e0 ≠ s.params.resetTxByte → e1 ≠ s.params.resetTxByte → es.length = 8 → fs.length = 32 →
    s.link.Echoes (e0 :: es ++ e1 :: fs) →
    ∃ t, exec (.sWritescratch th tl cfg) s = .next t ∧
      t = { s with
        rxbuf := t.rxbuf, draws := t.draws, rxlen := 0
        txbuf := [th, tl, cfg], txlen := 3
        link := s.link.after 42
          (commandEvents s.params (s.params.desc .skipRom) [] e0 es ++
            commandEvents s.params (s.params.desc .writeScratch) [th, tl, cfg] e1 fs)
        baudsel := .data, connected := true
        status := 0b0000#4, busy := false, seq := .idle }

/-- `S.SKIPROM`, the three `S.CONVERT` requests, `S.READSCRATCH` and `S.WRITESCRATCH` do what their expansions do,
request by request, up to and including the first that fails (R104). `S.READROM` and `S.INITIALIZE`, whose expansions
also write `SN` and `INITIALIZED`, are `SReadromIsTheRoundTripThenTheCopy` and `SInitializeIsItsExpansion`. -/
def Obligations.SixCompositesAreTheirExpansions : Prop :=
  ∀ s : State, s.Ready →
    CompositeIs .sSkiprom [.cSkiprom []] s ∧
    CompositeIs .sConvertNone [.cSkiprom [], .cConvertt [], .wWaitNone] s ∧
    CompositeIs .sConvertData [.cSkiprom [], .cConvertt [], .wWaitData] s ∧
    CompositeIs .sConvertDelay [.cSkiprom [], .cConvertt [], .wWaitDelay] s ∧
    CompositeIs .sReadscratch [.cSkiprom [], .cRscratch [], .kDecode] s ∧
    (∀ th tl cfg, CompositeIs (.sWritescratch th tl cfg)
      [.kEncode th tl cfg, .cSkiprom [], .cWscratch [th, tl, cfg]] s)

/-! ## The whole machine -/

/-- The invariant between steps holds after reset. -/
def Obligations.ResetMeetsTheInvariant : Prop := State.reset.Inv

/-- Every step keeps the invariant between steps, from every state that meets it. Its clauses about the sequencer's
positions are the model's (log 7, 8). -/
def Obligations.StepKeepsTheInvariant : Prop :=
  ∀ s t : State, s.Inv → step s = .next t → t.Inv

/-- A decoded reading stays one: while no reset is asserted, every step leaves `CFG` a known pattern and `TEMP` within
the masks of that resolution. -/
def Obligations.StepKeepsADecodedReading : Prop :=
  ∀ s t : State, s.Decoded → s.NoReset → step s = .next t → t.Decoded ∧ t.NoReset

/-- After a `K.DECODE` or `S.READSCRATCH` that completed with success the registers hold a decoded reading, and a
`W.WAIT DELAY` cannot fail (R25, R185). -/
def Obligations.DelayCannotFailAfterADecode : Prop :=
  ∀ (i : Instr) (s t : State), i = .kDecode ∨ i = .sReadscratch → s.Ready →
    exec i s = .next t → t.busy = false → t.failFlag = false →
    t.Decoded ∧ ∃ u, exec .wWaitDelay t = .next u ∧ u.status = 0b0000#4 ∧
      ∃ ms ∈ [s.params.row9.delayMs, s.params.row10.delayMs, s.params.row11.delayMs,
        s.params.row12.delayMs], u.link.trace = t.link.trace ++ [.sleep ms]

/-- R219: an operation that completes with a failure leaves `TEMP`, `TH`, `TL`, `CFG`, `SN` and `RDATA` as they were;
`INITIALIZED` is 0 after a failed `S.INITIALIZE` and otherwise unchanged. -/
def Obligations.FailureKeepsTheSensorRegisters : Prop :=
  ∀ (i : Instr) (s t : State), s.Ready → exec i s = .next t → t.busy = false →
    t.failFlag = true →
    t.temp = s.temp ∧ t.th = s.th ∧ t.tl = s.tl ∧ t.cfg = s.cfg ∧ t.sn = s.sn ∧
      t.rdata = s.rdata ∧
      t.initialized = (if i = .sInitialize then false else s.initialized)

/-- R230: an operation completes with success or with one of the causes its row of the table allows; `TIMEOUT` only
with `POLL_LIMIT` set. -/
def Obligations.CausesAreThoseOfTheTable : Prop :=
  ∀ (i : Instr) (s t : State), s.Ready → exec i s = .next t → t.busy = false →
    t.status = 0b0000#4 ∨
    ∃ c ∈ possibleCauses s.params i, t.failFlag = true ∧ t.causeField = c.code

/-- Only the operations the rules name write a register, and no operation writes the record, `REQ` or the host's
future (R21 to R31, R133, R140, R180). -/
def Obligations.OnlyTheNamedOperationsWrite : Prop :=
  ∀ (i : Instr) (s t : State), s.Ready → exec i s = .next t →
    t.params = s.params ∧ t.req = s.req ∧ t.host = s.host ∧
    (t.rdata ≠ s.rdata → i = .tReset ∨ i = .tRbit ∨ i = .tRbyte) ∧
    (t.sn ≠ s.sn → i = .sReadrom ∨ i = .sInitialize) ∧
    (t.initialized ≠ s.initialized → i = .sInitialize) ∧
    (t.txbuf ≠ s.txbuf ∨ t.txlen ≠ s.txlen →
      ∃ a b c, i = .kEncode a b c ∨ i = .sWritescratch a b c) ∧
    (t.temp ≠ s.temp ∨ t.th ≠ s.th ∨ t.tl ≠ s.tl ∨ t.cfg ≠ s.cfg →
      i = .kDecode ∨ i = .sReadscratch) ∧
    ((∃ b, i = .tWbit b) ∨ (∃ v, i = .tWbyte v) ∨
        i ∈ [.tReset, .tRbit, .tRbyte, .kDecode, .wWaitNone, .wWaitData, .wWaitDelay] ∨
        (∃ a b c, i = .kEncode a b c) →
      t.rxlen = s.rxlen ∧ t.rxbuf = s.rxbuf ∧
      (i ≠ .tReset → t.connected = s.connected ∧ t.baudsel = s.baudsel))

/-- The resting state: a completed operation either performed no `SetBaud` and left `BAUDSEL`, or its last `SetBaud`
is to the data rate and `BAUDSEL = DATA`; the bit and byte requests and the waits perform none (R120, R244). -/
def Obligations.DataRateIsRestored : Prop :=
  ∀ (i : Instr) (s t : State), s.Ready → exec i s = .next t → t.busy = false →
    ∃ evs, t.link.trace = s.link.trace ++ evs ∧
      (((∀ r, Event.setBaud r ∉ evs) ∧ t.baudsel = s.baudsel) ∨
        (t.baudsel = .data ∧
          (∃ a b, evs = a ++ Event.setBaud s.params.baudData :: b ∧ ∀ r, Event.setBaud r ∉ b) ∧
          (∀ b, i ≠ .tWbit b) ∧ i ≠ .tRbit ∧ (∀ v, i ≠ .tWbyte v) ∧ i ≠ .tRbyte ∧
          i ≠ .wWaitNone ∧ i ≠ .wWaitData ∧ i ≠ .wWaitDelay))

/-- No step ever takes an event back: the trace only grows, across resets too (R63). The
trace as a field is the model's choice (log 16). -/
def Obligations.TraceOnlyGrows : Prop :=
  ∀ s t : State, step s = .next t → ∃ evs, t.link.trace = s.link.trace ++ evs

/-- No operation reads `REQ`, `STATUS`, `RDATA`, `TXBUF`, `BAUDSEL`, `INITIALIZED`, `CONNECTED`, `SN`, `TH`, `TL` or
`TEMP`: from two states that differ in these only, a request performs the same events, ends at the same point and
completes with the same status (R197, R133, R21 to R31). -/
def Obligations.UnreadRegistersDoNotMatter : Prop :=
  ∀ (i : Instr) (s s' t : State), s.SameInputs s' → exec i s = .next t →
    ∃ t', exec i s' = .next t' ∧ t.SameInputs t' ∧ t.busy = t'.busy ∧ t.seq = t'.seq ∧
      (t.busy = false → t.status = t'.status)

/-- The host can read every register of R39 in every state, arrays byte by byte (R224); while an operation runs it sees
the intermediate values of its pseudocode (R250). At the end of every event of every operation `BUSY` is 1 and only
`RXLEN`, `RXBUF`, `TXLEN`, `TXBUF`, `CONNECTED` and `BAUDSEL` can differ from what they were when the step began; in a `C`
request `RXLEN` is 0 from the first event on, and at the second, the transmit of the reset, `BAUDSEL` is `RESET` (code 1)
and `CONNECTED` still as before; after the first poll of an `S.CONVERT DATA` that goes on, `CONNECTED` and `BAUDSEL` are
those of its second command, `RXLEN` is 0 and `STATUS` as before. That a read stands at the end of an event or between two
steps is the model's choice (log 14). -/
def Obligations.HostReadsEveryRegister : Prop :=
  (∀ s : State, s.hostRead .req = some s.req.toNat ∧ s.hostRead .status = some s.status.toNat ∧
    s.hostRead .busy = some (if s.busy then 1 else 0) ∧ s.hostRead .rdata = some s.rdata.toNat ∧
    s.hostRead .rxlen = some s.rxlen ∧ s.hostRead .txlen = some s.txlen ∧
    (∀ k, s.hostRead (.rxbuf k) = (s.rxbuf[k]?).map BitVec.toNat ∧
      s.hostRead (.txbuf k) = (s.txbuf[k]?).map BitVec.toNat ∧
      s.hostRead (.sn k) = (s.sn[k]?).map BitVec.toNat) ∧
    (s.baudsel = .unknown → s.hostRead .baudsel = some 0) ∧
    (s.baudsel = .reset → s.hostRead .baudsel = some 1) ∧
    (s.baudsel = .data → s.hostRead .baudsel = some 2) ∧
    s.hostRead .initialized = some (if s.initialized then 1 else 0) ∧
    s.hostRead .connected = some (if s.connected then 1 else 0) ∧
    s.hostRead .th = some s.th.toNat ∧ s.hostRead .tl = some s.tl.toNat ∧
    s.hostRead .cfg = some s.cfg.toNat ∧ s.hostRead .temp = some s.temp.toNat) ∧
  (∀ (s u : State) (k : Nat), s.inside k = some u →
    u.link.trace.length = s.link.trace.length + k + 1 ∧ s.hostReadInside k .busy = some 1 ∧
    (∀ r ∈ [HostReg.req, .status, .rdata, .initialized, .th, .tl, .cfg, .temp],
      s.hostReadInside k r = s.hostRead r) ∧
    ∀ j, s.hostReadInside k (.sn j) = s.hostRead (.sn j)) ∧
  (∀ (s : State) (cmd : Command) (payload : List Byte), s.Ready → s.busy = true → s.seq = .idle →
    decode s.req = .ok (requestOf cmd payload) → payload.length = (s.params.desc cmd).tx →
    s.hostReadInside 0 .rxlen = some 0 ∧ s.hostReadInside 1 .rxlen = some 0 ∧
    s.hostReadInside 1 .baudsel = some 1 ∧
    s.hostReadInside 1 .connected = s.hostRead .connected) ∧
  (∀ (s : State) (e0 e1 : Byte) (es fs : List Byte) (z : Byte), s.Ready →
    e0 ≠ s.params.resetTxByte → e1 ≠ s.params.resetTxByte → es.length = 8 → fs.length = 8 →
    z ≠ s.params.readTxByte → s.params.pollLimit ≠ some 1 →
    s.link.Echoes (e0 :: es ++ e1 :: fs ++ [z]) →
    ∃ t, exec .sConvertData s = .next t ∧ t.hostRead .busy = some 1 ∧
      t.hostRead .connected = some 1 ∧ t.hostRead .baudsel = some 2 ∧
      t.hostRead .rxlen = some 0 ∧ t.hostRead .status = s.hostRead .status)

/-- A record that is not well formed is refused, by every operation and every step (R9). The model counts the types
of R8 among the conditions (log 2). -/
def Obligations.IllFormedRecordIsRefused : Prop :=
  ∀ s : State, s.params.wf = false →
    step s = .refused .illFormedConfiguration ∧
    ∀ i : Instr, exec i s = .refused .illFormedConfiguration
end

