-- ==== Sys2Proof/Laws/State.lean ====
section
/-! SUPPORT. One lemma per field per named update of State, so that no proof unfolds a record update. -/

namespace Sys2Proof.Machine

variable (s : State)

/-! ### setLink -/

@[simp] theorem setLink_params (l : Link) : (s.setLink l).params = s.params := rfl
@[simp] theorem setLink_req (l : Link) : (s.setLink l).req = s.req := rfl
@[simp] theorem setLink_status (l : Link) : (s.setLink l).status = s.status := rfl
@[simp] theorem setLink_busy (l : Link) : (s.setLink l).busy = s.busy := rfl
@[simp] theorem setLink_seq (l : Link) : (s.setLink l).seq = s.seq := rfl
@[simp] theorem setLink_rdata (l : Link) : (s.setLink l).rdata = s.rdata := rfl
@[simp] theorem setLink_rxlen (l : Link) : (s.setLink l).rxlen = s.rxlen := rfl
@[simp] theorem setLink_rxbuf (l : Link) : (s.setLink l).rxbuf = s.rxbuf := rfl
@[simp] theorem setLink_txlen (l : Link) : (s.setLink l).txlen = s.txlen := rfl
@[simp] theorem setLink_txbuf (l : Link) : (s.setLink l).txbuf = s.txbuf := rfl
@[simp] theorem setLink_baudsel (l : Link) : (s.setLink l).baudsel = s.baudsel := rfl
@[simp] theorem setLink_initialized (l : Link) : (s.setLink l).initialized = s.initialized := rfl
@[simp] theorem setLink_connected (l : Link) : (s.setLink l).connected = s.connected := rfl
@[simp] theorem setLink_sn (l : Link) : (s.setLink l).sn = s.sn := rfl
@[simp] theorem setLink_th (l : Link) : (s.setLink l).th = s.th := rfl
@[simp] theorem setLink_tl (l : Link) : (s.setLink l).tl = s.tl := rfl
@[simp] theorem setLink_cfg (l : Link) : (s.setLink l).cfg = s.cfg := rfl
@[simp] theorem setLink_temp (l : Link) : (s.setLink l).temp = s.temp := rfl
@[simp] theorem setLink_link (l : Link) : (s.setLink l).link = l := rfl
@[simp] theorem setLink_draws (l : Link) : (s.setLink l).draws = s.draws := rfl
@[simp] theorem setLink_host (l : Link) : (s.setLink l).host = s.host := rfl

/-! ### setBaudsel -/

@[simp] theorem setBaudsel_params (b : BaudSel) : (s.setBaudsel b).params = s.params := rfl
@[simp] theorem setBaudsel_req (b : BaudSel) : (s.setBaudsel b).req = s.req := rfl
@[simp] theorem setBaudsel_status (b : BaudSel) : (s.setBaudsel b).status = s.status := rfl
@[simp] theorem setBaudsel_busy (b : BaudSel) : (s.setBaudsel b).busy = s.busy := rfl
@[simp] theorem setBaudsel_seq (b : BaudSel) : (s.setBaudsel b).seq = s.seq := rfl
@[simp] theorem setBaudsel_rdata (b : BaudSel) : (s.setBaudsel b).rdata = s.rdata := rfl
@[simp] theorem setBaudsel_rxlen (b : BaudSel) : (s.setBaudsel b).rxlen = s.rxlen := rfl
@[simp] theorem setBaudsel_rxbuf (b : BaudSel) : (s.setBaudsel b).rxbuf = s.rxbuf := rfl
@[simp] theorem setBaudsel_txlen (b : BaudSel) : (s.setBaudsel b).txlen = s.txlen := rfl
@[simp] theorem setBaudsel_txbuf (b : BaudSel) : (s.setBaudsel b).txbuf = s.txbuf := rfl
@[simp] theorem setBaudsel_baudsel (b : BaudSel) : (s.setBaudsel b).baudsel = b := rfl
@[simp] theorem setBaudsel_initialized (b : BaudSel) : (s.setBaudsel b).initialized = s.initialized := rfl
@[simp] theorem setBaudsel_connected (b : BaudSel) : (s.setBaudsel b).connected = s.connected := rfl
@[simp] theorem setBaudsel_sn (b : BaudSel) : (s.setBaudsel b).sn = s.sn := rfl
@[simp] theorem setBaudsel_th (b : BaudSel) : (s.setBaudsel b).th = s.th := rfl
@[simp] theorem setBaudsel_tl (b : BaudSel) : (s.setBaudsel b).tl = s.tl := rfl
@[simp] theorem setBaudsel_cfg (b : BaudSel) : (s.setBaudsel b).cfg = s.cfg := rfl
@[simp] theorem setBaudsel_temp (b : BaudSel) : (s.setBaudsel b).temp = s.temp := rfl
@[simp] theorem setBaudsel_link (b : BaudSel) : (s.setBaudsel b).link = s.link := rfl
@[simp] theorem setBaudsel_draws (b : BaudSel) : (s.setBaudsel b).draws = s.draws := rfl
@[simp] theorem setBaudsel_host (b : BaudSel) : (s.setBaudsel b).host = s.host := rfl

/-! ### setConnected -/

@[simp] theorem setConnected_params (b : Bool) : (s.setConnected b).params = s.params := rfl
@[simp] theorem setConnected_req (b : Bool) : (s.setConnected b).req = s.req := rfl
@[simp] theorem setConnected_status (b : Bool) : (s.setConnected b).status = s.status := rfl
@[simp] theorem setConnected_busy (b : Bool) : (s.setConnected b).busy = s.busy := rfl
@[simp] theorem setConnected_seq (b : Bool) : (s.setConnected b).seq = s.seq := rfl
@[simp] theorem setConnected_rdata (b : Bool) : (s.setConnected b).rdata = s.rdata := rfl
@[simp] theorem setConnected_rxlen (b : Bool) : (s.setConnected b).rxlen = s.rxlen := rfl
@[simp] theorem setConnected_rxbuf (b : Bool) : (s.setConnected b).rxbuf = s.rxbuf := rfl
@[simp] theorem setConnected_txlen (b : Bool) : (s.setConnected b).txlen = s.txlen := rfl
@[simp] theorem setConnected_txbuf (b : Bool) : (s.setConnected b).txbuf = s.txbuf := rfl
@[simp] theorem setConnected_baudsel (b : Bool) : (s.setConnected b).baudsel = s.baudsel := rfl
@[simp] theorem setConnected_initialized (b : Bool) : (s.setConnected b).initialized = s.initialized := rfl
@[simp] theorem setConnected_connected (b : Bool) : (s.setConnected b).connected = b := rfl
@[simp] theorem setConnected_sn (b : Bool) : (s.setConnected b).sn = s.sn := rfl
@[simp] theorem setConnected_th (b : Bool) : (s.setConnected b).th = s.th := rfl
@[simp] theorem setConnected_tl (b : Bool) : (s.setConnected b).tl = s.tl := rfl
@[simp] theorem setConnected_cfg (b : Bool) : (s.setConnected b).cfg = s.cfg := rfl
@[simp] theorem setConnected_temp (b : Bool) : (s.setConnected b).temp = s.temp := rfl
@[simp] theorem setConnected_link (b : Bool) : (s.setConnected b).link = s.link := rfl
@[simp] theorem setConnected_draws (b : Bool) : (s.setConnected b).draws = s.draws := rfl
@[simp] theorem setConnected_host (b : Bool) : (s.setConnected b).host = s.host := rfl

/-! ### setInitialized -/

@[simp] theorem setInitialized_params (b : Bool) : (s.setInitialized b).params = s.params := rfl
@[simp] theorem setInitialized_req (b : Bool) : (s.setInitialized b).req = s.req := rfl
@[simp] theorem setInitialized_status (b : Bool) : (s.setInitialized b).status = s.status := rfl
@[simp] theorem setInitialized_busy (b : Bool) : (s.setInitialized b).busy = s.busy := rfl
@[simp] theorem setInitialized_seq (b : Bool) : (s.setInitialized b).seq = s.seq := rfl
@[simp] theorem setInitialized_rdata (b : Bool) : (s.setInitialized b).rdata = s.rdata := rfl
@[simp] theorem setInitialized_rxlen (b : Bool) : (s.setInitialized b).rxlen = s.rxlen := rfl
@[simp] theorem setInitialized_rxbuf (b : Bool) : (s.setInitialized b).rxbuf = s.rxbuf := rfl
@[simp] theorem setInitialized_txlen (b : Bool) : (s.setInitialized b).txlen = s.txlen := rfl
@[simp] theorem setInitialized_txbuf (b : Bool) : (s.setInitialized b).txbuf = s.txbuf := rfl
@[simp] theorem setInitialized_baudsel (b : Bool) : (s.setInitialized b).baudsel = s.baudsel := rfl
@[simp] theorem setInitialized_initialized (b : Bool) : (s.setInitialized b).initialized = b := rfl
@[simp] theorem setInitialized_connected (b : Bool) : (s.setInitialized b).connected = s.connected := rfl
@[simp] theorem setInitialized_sn (b : Bool) : (s.setInitialized b).sn = s.sn := rfl
@[simp] theorem setInitialized_th (b : Bool) : (s.setInitialized b).th = s.th := rfl
@[simp] theorem setInitialized_tl (b : Bool) : (s.setInitialized b).tl = s.tl := rfl
@[simp] theorem setInitialized_cfg (b : Bool) : (s.setInitialized b).cfg = s.cfg := rfl
@[simp] theorem setInitialized_temp (b : Bool) : (s.setInitialized b).temp = s.temp := rfl
@[simp] theorem setInitialized_link (b : Bool) : (s.setInitialized b).link = s.link := rfl
@[simp] theorem setInitialized_draws (b : Bool) : (s.setInitialized b).draws = s.draws := rfl
@[simp] theorem setInitialized_host (b : Bool) : (s.setInitialized b).host = s.host := rfl

/-! ### setRdata -/

@[simp] theorem setRdata_params (v : Byte) : (s.setRdata v).params = s.params := rfl
@[simp] theorem setRdata_req (v : Byte) : (s.setRdata v).req = s.req := rfl
@[simp] theorem setRdata_status (v : Byte) : (s.setRdata v).status = s.status := rfl
@[simp] theorem setRdata_busy (v : Byte) : (s.setRdata v).busy = s.busy := rfl
@[simp] theorem setRdata_seq (v : Byte) : (s.setRdata v).seq = s.seq := rfl
@[simp] theorem setRdata_rdata (v : Byte) : (s.setRdata v).rdata = v := rfl
@[simp] theorem setRdata_rxlen (v : Byte) : (s.setRdata v).rxlen = s.rxlen := rfl
@[simp] theorem setRdata_rxbuf (v : Byte) : (s.setRdata v).rxbuf = s.rxbuf := rfl
@[simp] theorem setRdata_txlen (v : Byte) : (s.setRdata v).txlen = s.txlen := rfl
@[simp] theorem setRdata_txbuf (v : Byte) : (s.setRdata v).txbuf = s.txbuf := rfl
@[simp] theorem setRdata_baudsel (v : Byte) : (s.setRdata v).baudsel = s.baudsel := rfl
@[simp] theorem setRdata_initialized (v : Byte) : (s.setRdata v).initialized = s.initialized := rfl
@[simp] theorem setRdata_connected (v : Byte) : (s.setRdata v).connected = s.connected := rfl
@[simp] theorem setRdata_sn (v : Byte) : (s.setRdata v).sn = s.sn := rfl
@[simp] theorem setRdata_th (v : Byte) : (s.setRdata v).th = s.th := rfl
@[simp] theorem setRdata_tl (v : Byte) : (s.setRdata v).tl = s.tl := rfl
@[simp] theorem setRdata_cfg (v : Byte) : (s.setRdata v).cfg = s.cfg := rfl
@[simp] theorem setRdata_temp (v : Byte) : (s.setRdata v).temp = s.temp := rfl
@[simp] theorem setRdata_link (v : Byte) : (s.setRdata v).link = s.link := rfl
@[simp] theorem setRdata_draws (v : Byte) : (s.setRdata v).draws = s.draws := rfl
@[simp] theorem setRdata_host (v : Byte) : (s.setRdata v).host = s.host := rfl

/-! ### setSn -/

@[simp] theorem setSn_params (bs : List Byte) : (s.setSn bs).params = s.params := rfl
@[simp] theorem setSn_req (bs : List Byte) : (s.setSn bs).req = s.req := rfl
@[simp] theorem setSn_status (bs : List Byte) : (s.setSn bs).status = s.status := rfl
@[simp] theorem setSn_busy (bs : List Byte) : (s.setSn bs).busy = s.busy := rfl
@[simp] theorem setSn_seq (bs : List Byte) : (s.setSn bs).seq = s.seq := rfl
@[simp] theorem setSn_rdata (bs : List Byte) : (s.setSn bs).rdata = s.rdata := rfl
@[simp] theorem setSn_rxlen (bs : List Byte) : (s.setSn bs).rxlen = s.rxlen := rfl
@[simp] theorem setSn_rxbuf (bs : List Byte) : (s.setSn bs).rxbuf = s.rxbuf := rfl
@[simp] theorem setSn_txlen (bs : List Byte) : (s.setSn bs).txlen = s.txlen := rfl
@[simp] theorem setSn_txbuf (bs : List Byte) : (s.setSn bs).txbuf = s.txbuf := rfl
@[simp] theorem setSn_baudsel (bs : List Byte) : (s.setSn bs).baudsel = s.baudsel := rfl
@[simp] theorem setSn_initialized (bs : List Byte) : (s.setSn bs).initialized = s.initialized := rfl
@[simp] theorem setSn_connected (bs : List Byte) : (s.setSn bs).connected = s.connected := rfl
@[simp] theorem setSn_sn (bs : List Byte) : (s.setSn bs).sn = bs := rfl
@[simp] theorem setSn_th (bs : List Byte) : (s.setSn bs).th = s.th := rfl
@[simp] theorem setSn_tl (bs : List Byte) : (s.setSn bs).tl = s.tl := rfl
@[simp] theorem setSn_cfg (bs : List Byte) : (s.setSn bs).cfg = s.cfg := rfl
@[simp] theorem setSn_temp (bs : List Byte) : (s.setSn bs).temp = s.temp := rfl
@[simp] theorem setSn_link (bs : List Byte) : (s.setSn bs).link = s.link := rfl
@[simp] theorem setSn_draws (bs : List Byte) : (s.setSn bs).draws = s.draws := rfl
@[simp] theorem setSn_host (bs : List Byte) : (s.setSn bs).host = s.host := rfl

/-! ### setTxbuf -/

@[simp] theorem setTxbuf_params (bs : List Byte) : (s.setTxbuf bs).params = s.params := rfl
@[simp] theorem setTxbuf_req (bs : List Byte) : (s.setTxbuf bs).req = s.req := rfl
@[simp] theorem setTxbuf_status (bs : List Byte) : (s.setTxbuf bs).status = s.status := rfl
@[simp] theorem setTxbuf_busy (bs : List Byte) : (s.setTxbuf bs).busy = s.busy := rfl
@[simp] theorem setTxbuf_seq (bs : List Byte) : (s.setTxbuf bs).seq = s.seq := rfl
@[simp] theorem setTxbuf_rdata (bs : List Byte) : (s.setTxbuf bs).rdata = s.rdata := rfl
@[simp] theorem setTxbuf_rxlen (bs : List Byte) : (s.setTxbuf bs).rxlen = s.rxlen := rfl
@[simp] theorem setTxbuf_rxbuf (bs : List Byte) : (s.setTxbuf bs).rxbuf = s.rxbuf := rfl
@[simp] theorem setTxbuf_txlen (bs : List Byte) : (s.setTxbuf bs).txlen = bs.length := rfl
@[simp] theorem setTxbuf_txbuf (bs : List Byte) : (s.setTxbuf bs).txbuf = bs := rfl
@[simp] theorem setTxbuf_baudsel (bs : List Byte) : (s.setTxbuf bs).baudsel = s.baudsel := rfl
@[simp] theorem setTxbuf_initialized (bs : List Byte) : (s.setTxbuf bs).initialized = s.initialized := rfl
@[simp] theorem setTxbuf_connected (bs : List Byte) : (s.setTxbuf bs).connected = s.connected := rfl
@[simp] theorem setTxbuf_sn (bs : List Byte) : (s.setTxbuf bs).sn = s.sn := rfl
@[simp] theorem setTxbuf_th (bs : List Byte) : (s.setTxbuf bs).th = s.th := rfl
@[simp] theorem setTxbuf_tl (bs : List Byte) : (s.setTxbuf bs).tl = s.tl := rfl
@[simp] theorem setTxbuf_cfg (bs : List Byte) : (s.setTxbuf bs).cfg = s.cfg := rfl
@[simp] theorem setTxbuf_temp (bs : List Byte) : (s.setTxbuf bs).temp = s.temp := rfl
@[simp] theorem setTxbuf_link (bs : List Byte) : (s.setTxbuf bs).link = s.link := rfl
@[simp] theorem setTxbuf_draws (bs : List Byte) : (s.setTxbuf bs).draws = s.draws := rfl
@[simp] theorem setTxbuf_host (bs : List Byte) : (s.setTxbuf bs).host = s.host := rfl

/-! ### setSensor -/

@[simp] theorem setSensor_params (x : Half) (a b c : Byte) : (s.setSensor x a b c).params = s.params := rfl
@[simp] theorem setSensor_req (x : Half) (a b c : Byte) : (s.setSensor x a b c).req = s.req := rfl
@[simp] theorem setSensor_status (x : Half) (a b c : Byte) : (s.setSensor x a b c).status = s.status := rfl
@[simp] theorem setSensor_busy (x : Half) (a b c : Byte) : (s.setSensor x a b c).busy = s.busy := rfl
@[simp] theorem setSensor_seq (x : Half) (a b c : Byte) : (s.setSensor x a b c).seq = s.seq := rfl
@[simp] theorem setSensor_rdata (x : Half) (a b c : Byte) : (s.setSensor x a b c).rdata = s.rdata := rfl
@[simp] theorem setSensor_rxlen (x : Half) (a b c : Byte) : (s.setSensor x a b c).rxlen = s.rxlen := rfl
@[simp] theorem setSensor_rxbuf (x : Half) (a b c : Byte) : (s.setSensor x a b c).rxbuf = s.rxbuf := rfl
@[simp] theorem setSensor_txlen (x : Half) (a b c : Byte) : (s.setSensor x a b c).txlen = s.txlen := rfl
@[simp] theorem setSensor_txbuf (x : Half) (a b c : Byte) : (s.setSensor x a b c).txbuf = s.txbuf := rfl
@[simp] theorem setSensor_baudsel (x : Half) (a b c : Byte) : (s.setSensor x a b c).baudsel = s.baudsel := rfl
@[simp] theorem setSensor_initialized (x : Half) (a b c : Byte) : (s.setSensor x a b c).initialized = s.initialized := rfl
@[simp] theorem setSensor_connected (x : Half) (a b c : Byte) : (s.setSensor x a b c).connected = s.connected := rfl
@[simp] theorem setSensor_sn (x : Half) (a b c : Byte) : (s.setSensor x a b c).sn = s.sn := rfl
@[simp] theorem setSensor_th (x : Half) (a b c : Byte) : (s.setSensor x a b c).th = a := rfl
@[simp] theorem setSensor_tl (x : Half) (a b c : Byte) : (s.setSensor x a b c).tl = b := rfl
@[simp] theorem setSensor_cfg (x : Half) (a b c : Byte) : (s.setSensor x a b c).cfg = c := rfl
@[simp] theorem setSensor_temp (x : Half) (a b c : Byte) : (s.setSensor x a b c).temp = x := rfl
@[simp] theorem setSensor_link (x : Half) (a b c : Byte) : (s.setSensor x a b c).link = s.link := rfl
@[simp] theorem setSensor_draws (x : Half) (a b c : Byte) : (s.setSensor x a b c).draws = s.draws := rfl
@[simp] theorem setSensor_host (x : Half) (a b c : Byte) : (s.setSensor x a b c).host = s.host := rfl

/-! ### openResponse -/

@[simp] theorem openResponse_params : s.openResponse.params = s.params := rfl
@[simp] theorem openResponse_req : s.openResponse.req = s.req := rfl
@[simp] theorem openResponse_status : s.openResponse.status = s.status := rfl
@[simp] theorem openResponse_busy : s.openResponse.busy = s.busy := rfl
@[simp] theorem openResponse_seq : s.openResponse.seq = s.seq := rfl
@[simp] theorem openResponse_rdata : s.openResponse.rdata = s.rdata := rfl
@[simp] theorem openResponse_rxlen : s.openResponse.rxlen = 0 := rfl
@[simp] theorem openResponse_rxbuf : s.openResponse.rxbuf = freeBytes s.draws s.params.rxbufLen := rfl
@[simp] theorem openResponse_txlen : s.openResponse.txlen = s.txlen := rfl
@[simp] theorem openResponse_txbuf : s.openResponse.txbuf = s.txbuf := rfl
@[simp] theorem openResponse_baudsel : s.openResponse.baudsel = s.baudsel := rfl
@[simp] theorem openResponse_initialized : s.openResponse.initialized = s.initialized := rfl
@[simp] theorem openResponse_connected : s.openResponse.connected = s.connected := rfl
@[simp] theorem openResponse_sn : s.openResponse.sn = s.sn := rfl
@[simp] theorem openResponse_th : s.openResponse.th = s.th := rfl
@[simp] theorem openResponse_tl : s.openResponse.tl = s.tl := rfl
@[simp] theorem openResponse_cfg : s.openResponse.cfg = s.cfg := rfl
@[simp] theorem openResponse_temp : s.openResponse.temp = s.temp := rfl
@[simp] theorem openResponse_link : s.openResponse.link = s.link := rfl
@[simp] theorem openResponse_draws : s.openResponse.draws = s.draws + s.params.rxbufLen := rfl
@[simp] theorem openResponse_host : s.openResponse.host = s.host := rfl

/-! ### commitResponse -/

@[simp] theorem commitResponse_params (r : List Byte) : (s.commitResponse r).params = s.params := rfl
@[simp] theorem commitResponse_req (r : List Byte) : (s.commitResponse r).req = s.req := rfl
@[simp] theorem commitResponse_status (r : List Byte) : (s.commitResponse r).status = s.status := rfl
@[simp] theorem commitResponse_busy (r : List Byte) : (s.commitResponse r).busy = s.busy := rfl
@[simp] theorem commitResponse_seq (r : List Byte) : (s.commitResponse r).seq = s.seq := rfl
@[simp] theorem commitResponse_rdata (r : List Byte) : (s.commitResponse r).rdata = s.rdata := rfl
@[simp] theorem commitResponse_rxlen (r : List Byte) : (s.commitResponse r).rxlen = r.length := rfl
@[simp] theorem commitResponse_rxbuf (r : List Byte) : (s.commitResponse r).rxbuf = r ++ s.rxbuf.drop r.length := rfl
@[simp] theorem commitResponse_txlen (r : List Byte) : (s.commitResponse r).txlen = s.txlen := rfl
@[simp] theorem commitResponse_txbuf (r : List Byte) : (s.commitResponse r).txbuf = s.txbuf := rfl
@[simp] theorem commitResponse_baudsel (r : List Byte) : (s.commitResponse r).baudsel = s.baudsel := rfl
@[simp] theorem commitResponse_initialized (r : List Byte) : (s.commitResponse r).initialized = s.initialized := rfl
@[simp] theorem commitResponse_connected (r : List Byte) : (s.commitResponse r).connected = s.connected := rfl
@[simp] theorem commitResponse_sn (r : List Byte) : (s.commitResponse r).sn = s.sn := rfl
@[simp] theorem commitResponse_th (r : List Byte) : (s.commitResponse r).th = s.th := rfl
@[simp] theorem commitResponse_tl (r : List Byte) : (s.commitResponse r).tl = s.tl := rfl
@[simp] theorem commitResponse_cfg (r : List Byte) : (s.commitResponse r).cfg = s.cfg := rfl
@[simp] theorem commitResponse_temp (r : List Byte) : (s.commitResponse r).temp = s.temp := rfl
@[simp] theorem commitResponse_link (r : List Byte) : (s.commitResponse r).link = s.link := rfl
@[simp] theorem commitResponse_draws (r : List Byte) : (s.commitResponse r).draws = s.draws := rfl
@[simp] theorem commitResponse_host (r : List Byte) : (s.commitResponse r).host = s.host := rfl

/-! ### complete -/

@[simp] theorem complete_params (st : BitVec 4) : (s.complete st).params = s.params := rfl
@[simp] theorem complete_req (st : BitVec 4) : (s.complete st).req = s.req := rfl
@[simp] theorem complete_status (st : BitVec 4) : (s.complete st).status = st := rfl
@[simp] theorem complete_busy (st : BitVec 4) : (s.complete st).busy = false := rfl
@[simp] theorem complete_seq (st : BitVec 4) : (s.complete st).seq = .idle := rfl
@[simp] theorem complete_rdata (st : BitVec 4) : (s.complete st).rdata = s.rdata := rfl
@[simp] theorem complete_rxlen (st : BitVec 4) : (s.complete st).rxlen = s.rxlen := rfl
@[simp] theorem complete_rxbuf (st : BitVec 4) : (s.complete st).rxbuf = s.rxbuf := rfl
@[simp] theorem complete_txlen (st : BitVec 4) : (s.complete st).txlen = s.txlen := rfl
@[simp] theorem complete_txbuf (st : BitVec 4) : (s.complete st).txbuf = s.txbuf := rfl
@[simp] theorem complete_baudsel (st : BitVec 4) : (s.complete st).baudsel = s.baudsel := rfl
@[simp] theorem complete_initialized (st : BitVec 4) : (s.complete st).initialized = s.initialized := rfl
@[simp] theorem complete_connected (st : BitVec 4) : (s.complete st).connected = s.connected := rfl
@[simp] theorem complete_sn (st : BitVec 4) : (s.complete st).sn = s.sn := rfl
@[simp] theorem complete_th (st : BitVec 4) : (s.complete st).th = s.th := rfl
@[simp] theorem complete_tl (st : BitVec 4) : (s.complete st).tl = s.tl := rfl
@[simp] theorem complete_cfg (st : BitVec 4) : (s.complete st).cfg = s.cfg := rfl
@[simp] theorem complete_temp (st : BitVec 4) : (s.complete st).temp = s.temp := rfl
@[simp] theorem complete_link (st : BitVec 4) : (s.complete st).link = s.link := rfl
@[simp] theorem complete_draws (st : BitVec 4) : (s.complete st).draws = s.draws := rfl
@[simp] theorem complete_host (st : BitVec 4) : (s.complete st).host = s.host := rfl

/-! ### suspend -/

@[simp] theorem suspend_params (q : Seq) : (s.suspend q).params = s.params := rfl
@[simp] theorem suspend_req (q : Seq) : (s.suspend q).req = s.req := rfl
@[simp] theorem suspend_status (q : Seq) : (s.suspend q).status = s.status := rfl
@[simp] theorem suspend_busy (q : Seq) : (s.suspend q).busy = true := rfl
@[simp] theorem suspend_seq (q : Seq) : (s.suspend q).seq = q := rfl
@[simp] theorem suspend_rdata (q : Seq) : (s.suspend q).rdata = s.rdata := rfl
@[simp] theorem suspend_rxlen (q : Seq) : (s.suspend q).rxlen = s.rxlen := rfl
@[simp] theorem suspend_rxbuf (q : Seq) : (s.suspend q).rxbuf = s.rxbuf := rfl
@[simp] theorem suspend_txlen (q : Seq) : (s.suspend q).txlen = s.txlen := rfl
@[simp] theorem suspend_txbuf (q : Seq) : (s.suspend q).txbuf = s.txbuf := rfl
@[simp] theorem suspend_baudsel (q : Seq) : (s.suspend q).baudsel = s.baudsel := rfl
@[simp] theorem suspend_initialized (q : Seq) : (s.suspend q).initialized = s.initialized := rfl
@[simp] theorem suspend_connected (q : Seq) : (s.suspend q).connected = s.connected := rfl
@[simp] theorem suspend_sn (q : Seq) : (s.suspend q).sn = s.sn := rfl
@[simp] theorem suspend_th (q : Seq) : (s.suspend q).th = s.th := rfl
@[simp] theorem suspend_tl (q : Seq) : (s.suspend q).tl = s.tl := rfl
@[simp] theorem suspend_cfg (q : Seq) : (s.suspend q).cfg = s.cfg := rfl
@[simp] theorem suspend_temp (q : Seq) : (s.suspend q).temp = s.temp := rfl
@[simp] theorem suspend_link (q : Seq) : (s.suspend q).link = s.link := rfl
@[simp] theorem suspend_draws (q : Seq) : (s.suspend q).draws = s.draws := rfl
@[simp] theorem suspend_host (q : Seq) : (s.suspend q).host = s.host := rfl

/-! ### accept -/

@[simp] theorem accept_params (w : Word) : (s.accept w).params = s.params := rfl
@[simp] theorem accept_req (w : Word) : (s.accept w).req = w := rfl
@[simp] theorem accept_status (w : Word) : (s.accept w).status = s.status := rfl
@[simp] theorem accept_busy (w : Word) : (s.accept w).busy = true := rfl
@[simp] theorem accept_seq (w : Word) : (s.accept w).seq = .idle := rfl
@[simp] theorem accept_rdata (w : Word) : (s.accept w).rdata = s.rdata := rfl
@[simp] theorem accept_rxlen (w : Word) : (s.accept w).rxlen = s.rxlen := rfl
@[simp] theorem accept_rxbuf (w : Word) : (s.accept w).rxbuf = s.rxbuf := rfl
@[simp] theorem accept_txlen (w : Word) : (s.accept w).txlen = s.txlen := rfl
@[simp] theorem accept_txbuf (w : Word) : (s.accept w).txbuf = s.txbuf := rfl
@[simp] theorem accept_baudsel (w : Word) : (s.accept w).baudsel = s.baudsel := rfl
@[simp] theorem accept_initialized (w : Word) : (s.accept w).initialized = s.initialized := rfl
@[simp] theorem accept_connected (w : Word) : (s.accept w).connected = s.connected := rfl
@[simp] theorem accept_sn (w : Word) : (s.accept w).sn = s.sn := rfl
@[simp] theorem accept_th (w : Word) : (s.accept w).th = s.th := rfl
@[simp] theorem accept_tl (w : Word) : (s.accept w).tl = s.tl := rfl
@[simp] theorem accept_cfg (w : Word) : (s.accept w).cfg = s.cfg := rfl
@[simp] theorem accept_temp (w : Word) : (s.accept w).temp = s.temp := rfl
@[simp] theorem accept_link (w : Word) : (s.accept w).link = s.link := rfl
@[simp] theorem accept_draws (w : Word) : (s.accept w).draws = s.draws := rfl
@[simp] theorem accept_host (w : Word) : (s.accept w).host = s.host := rfl

/-! ### setHost -/

@[simp] theorem setHost_params (h : List HostEvent) : (s.setHost h).params = s.params := rfl
@[simp] theorem setHost_req (h : List HostEvent) : (s.setHost h).req = s.req := rfl
@[simp] theorem setHost_status (h : List HostEvent) : (s.setHost h).status = s.status := rfl
@[simp] theorem setHost_busy (h : List HostEvent) : (s.setHost h).busy = s.busy := rfl
@[simp] theorem setHost_seq (h : List HostEvent) : (s.setHost h).seq = s.seq := rfl
@[simp] theorem setHost_rdata (h : List HostEvent) : (s.setHost h).rdata = s.rdata := rfl
@[simp] theorem setHost_rxlen (h : List HostEvent) : (s.setHost h).rxlen = s.rxlen := rfl
@[simp] theorem setHost_rxbuf (h : List HostEvent) : (s.setHost h).rxbuf = s.rxbuf := rfl
@[simp] theorem setHost_txlen (h : List HostEvent) : (s.setHost h).txlen = s.txlen := rfl
@[simp] theorem setHost_txbuf (h : List HostEvent) : (s.setHost h).txbuf = s.txbuf := rfl
@[simp] theorem setHost_baudsel (h : List HostEvent) : (s.setHost h).baudsel = s.baudsel := rfl
@[simp] theorem setHost_initialized (h : List HostEvent) : (s.setHost h).initialized = s.initialized := rfl
@[simp] theorem setHost_connected (h : List HostEvent) : (s.setHost h).connected = s.connected := rfl
@[simp] theorem setHost_sn (h : List HostEvent) : (s.setHost h).sn = s.sn := rfl
@[simp] theorem setHost_th (h : List HostEvent) : (s.setHost h).th = s.th := rfl
@[simp] theorem setHost_tl (h : List HostEvent) : (s.setHost h).tl = s.tl := rfl
@[simp] theorem setHost_cfg (h : List HostEvent) : (s.setHost h).cfg = s.cfg := rfl
@[simp] theorem setHost_temp (h : List HostEvent) : (s.setHost h).temp = s.temp := rfl
@[simp] theorem setHost_link (h : List HostEvent) : (s.setHost h).link = s.link := rfl
@[simp] theorem setHost_draws (h : List HostEvent) : (s.setHost h).draws = s.draws := rfl
@[simp] theorem setHost_host (h : List HostEvent) : (s.setHost h).host = h := rfl

/-! ### hardReset: the values of R38 -/

@[simp] theorem hardReset_params : s.hardReset.params = s.params := rfl
@[simp] theorem hardReset_status : s.hardReset.status = 0 := rfl
@[simp] theorem hardReset_busy : s.hardReset.busy = false := rfl
@[simp] theorem hardReset_seq : s.hardReset.seq = .idle := rfl
@[simp] theorem hardReset_rxlen : s.hardReset.rxlen = 0 := rfl
@[simp] theorem hardReset_rxbuf : s.hardReset.rxbuf = freeBytes (s.draws + 13) s.params.rxbufLen := rfl
@[simp] theorem hardReset_txlen : s.hardReset.txlen = 0 := rfl
@[simp] theorem hardReset_txbuf : s.hardReset.txbuf = freeBytes (s.draws + 10) 3 := rfl
@[simp] theorem hardReset_baudsel : s.hardReset.baudsel = .unknown := rfl
@[simp] theorem hardReset_initialized : s.hardReset.initialized = false := rfl
@[simp] theorem hardReset_connected : s.hardReset.connected = false := rfl
@[simp] theorem hardReset_sn : s.hardReset.sn = freeBytes s.draws 6 := rfl
@[simp] theorem hardReset_link : s.hardReset.link = { s.link with resetAfter := none } := rfl
@[simp] theorem hardReset_draws : s.hardReset.draws = s.draws + 13 + s.params.rxbufLen := rfl
@[simp] theorem hardReset_host : s.hardReset.host = s.host := rfl

@[simp] theorem freeBytes_length (start n : Nat) : (freeBytes start n).length = n := by
  simp [freeBytes]

/-! ### Updates that meet -/

@[simp] theorem setLink_link_self : s.setLink s.link = s := rfl
@[simp] theorem setLink_setLink (l l' : Link) : (s.setLink l).setLink l' = s.setLink l' := rfl
@[simp] theorem setBaudsel_setLink (l : Link) (b : BaudSel) :
    (s.setLink l).setBaudsel b = (s.setBaudsel b).setLink l := rfl
@[simp] theorem setBaudsel_setBaudsel (b b' : BaudSel) :
    (s.setBaudsel b).setBaudsel b' = s.setBaudsel b' := rfl
@[simp] theorem setConnected_setLink (l : Link) (b : Bool) :
    (s.setLink l).setConnected b = (s.setConnected b).setLink l := rfl

end Sys2Proof.Machine
end

