-- ==== Sys2Proof/Laws/Link.lean ====
section
/-! SUPPORT. The boundary to the collaborators: how the answers to come move on as calls are made. -/

namespace Sys2Proof.Machine

variable (l : Link)

theorem Link.ext_fields {l l' : Link} (h1 : l.txQ = l'.txQ) (h2 : l.rxQ = l'.rxQ) (h3 : l.txN = l'.txN)
    (h4 : l.rxN = l'.rxN) (h5 : l.trace = l'.trace) (h6 : l.resetAfter = l'.resetAfter) : l = l' := by
  cases l; cases l'; simp_all

@[simp] theorem log_resetAfter (e : Event) : (l.log e).resetAfter = l.resetAfter := rfl
@[simp] theorem popTx_resetAfter : l.popTx.resetAfter = l.resetAfter := rfl
@[simp] theorem popRx_resetAfter : l.popRx.resetAfter = l.resetAfter := rfl
@[simp] theorem log_trace (e : Event) : (l.log e).trace = l.trace ++ [e] := rfl
@[simp] theorem popTx_trace : l.popTx.trace = l.trace := rfl
@[simp] theorem popRx_trace : l.popRx.trace = l.trace := rfl
@[simp] theorem log_txAt (e : Event) (k : Nat) : (l.log e).txAt k = l.txAt k := rfl
@[simp] theorem log_rxAt (e : Event) (k : Nat) : (l.log e).rxAt k = l.rxAt k := rfl
@[simp] theorem popTx_rxAt (k : Nat) : l.popTx.rxAt k = l.rxAt k := rfl
@[simp] theorem popRx_txAt (k : Nat) : l.popRx.txAt k = l.txAt k := rfl

@[simp] theorem popTx_txAt (k : Nat) : l.popTx.txAt k = l.txAt (k + 1) := by
  simp [Link.txAt, Link.popTx, Nat.add_assoc, Nat.add_comm 1 k]

@[simp] theorem popRx_rxAt (k : Nat) : l.popRx.rxAt k = l.rxAt (k + 1) := by
  simp [Link.rxAt, Link.popRx, Nat.add_assoc, Nat.add_comm 1 k]

@[simp] theorem after_resetAfter (n : Nat) (evs : List Event) :
    (l.after n evs).resetAfter = l.resetAfter := rfl
@[simp] theorem after_trace (n : Nat) (evs : List Event) : (l.after n evs).trace = l.trace ++ evs := rfl

@[simp] theorem after_txAt (n k : Nat) (evs : List Event) : (l.after n evs).txAt k = l.txAt (n + k) := by
  simp [Link.txAt, Link.after, Nat.add_assoc]

@[simp] theorem after_rxAt (n k : Nat) (evs : List Event) : (l.after n evs).rxAt k = l.rxAt (n + k) := by
  simp [Link.rxAt, Link.after, Nat.add_assoc]

@[simp] theorem after_zero : l.after 0 [] = l := by simp [Link.after]

@[simp] theorem after_after (m n : Nat) (a b : List Event) :
    (l.after m a).after n b = l.after (m + n) (a ++ b) := by
  simp [Link.after, Nat.add_assoc]

/-- A `Tx` and an `Rx` call with their events are one exchange. -/
theorem exchange_eq_after (e1 e2 : Event) :
    ((l.popTx.log e1).popRx.log e2) = l.after 1 [e1, e2] := by
  simp [Link.after, Link.popTx, Link.popRx, Link.log]

theorem log_eq_after (e : Event) : l.log e = l.after 0 [e] := by simp [Link.after, Link.log]

theorem log_eq_afterEvent (e : Event) : l.log e = l.afterEvent e := rfl

/-! ### Echoes -/

theorem Link.Echoes.nil : l.Echoes [] := by simp [Link.Echoes]

theorem Link.Echoes.head {l : Link} {e : Byte} {es : List Byte} (h : l.Echoes (e :: es)) :
    l.txAt 0 = .ok ∧ l.rxAt 0 = .got e .ok := h 0 e rfl

theorem Link.Echoes.tail {l : Link} {e : Byte} {es : List Byte} (h : l.Echoes (e :: es))
    (evs : List Event) : (l.after 1 evs).Echoes es := by
  intro k e' hk
  have := h (k + 1) e' (by simpa using hk)
  simpa [Nat.add_comm 1 k] using this

theorem Link.Echoes.left {l : Link} {a b : List Byte} (h : l.Echoes (a ++ b)) : l.Echoes a := by
  intro k e hk
  have hlt : k < a.length := by
    rcases Nat.lt_or_ge k a.length with h | h
    · exact h
    · simp [List.getElem?_eq_none h] at hk
  exact h k e (by rw [List.getElem?_append_left hlt]; exact hk)

theorem Link.Echoes.right {l : Link} {a b : List Byte} (h : l.Echoes (a ++ b)) (evs : List Event) :
    (l.after a.length evs).Echoes b := by
  intro k e hk
  have := h (a.length + k) e (by
    rw [List.getElem?_append_right (by omega)]; simpa using hk)
  simpa using this

end Sys2Proof.Machine
end

