-- ==== Sys2Proof/Laws/Ops.lean ====
section
/-! SUPPORT. What each shared procedure does when no reset of the block is due and the collaborators answer `OK`:
one equation per procedure. -/

namespace Sys2Proof.Machine

variable {α β : Type}

/-! ### Sequencing -/

theorem bind_ok {p : Proc α} {f : α → Proc β} {s s' : State} {a : α} (h : p s = .ok a s') :
    (p >>= f) s = f a s' := by
  show EStateM.bind p f s = _
  simp [EStateM.bind, h]

theorem bind_error {p : Proc α} {f : α → Proc β} {s s' : State} {e : Stop} (h : p s = .error e s') :
    (p >>= f) s = .error e s' := by
  show EStateM.bind p f s = _
  simp [EStateM.bind, h]

@[simp] theorem pure_run (a : α) (s : State) : (pure a : Proc α) s = .ok a s := rfl
@[simp] theorem throw_run (e : Stop) (s : State) : (throw e : Proc α) s = .error e s := rfl
@[simp] theorem get_run (s : State) : (get : Proc State) s = .ok s s := rfl
@[simp] theorem set_run (t s : State) : (set t : Proc PUnit) s = .ok ⟨⟩ t := rfl
@[simp] theorem modify_run (f : State → State) (s : State) :
    (modify f : Proc PUnit) s = .ok ⟨⟩ (f s) := rfl

theorem get_bind (f : State → Proc β) (s : State) : (get >>= f) s = f s s := rfl
theorem modify_bind (g : State → State) (f : PUnit → Proc β) (s : State) :
    (modify g >>= f) s = f ⟨⟩ (g s) := rfl
theorem pure_bind_run (a : α) (f : α → Proc β) (s : State) : (pure a >>= f) s = f a s := rfl
theorem throw_bind (e : Stop) (f : α → Proc β) (s : State) :
    ((throw e : Proc α) >>= f) s = .error e s := rfl

theorem failIf_true {p : Prop} [Decidable p] {c : Cause} (h : p) (f : Unit → Proc β) (s : State) :
    (failIf p c >>= f) s = .error (.fail c) s := by simp [failIf, h, throw_bind]

theorem failIf_false {p : Prop} [Decidable p] {c : Cause} (h : ¬p) (f : Unit → Proc β) (s : State) :
    (failIf p c >>= f) s = f () s := by
  simp only [failIf, h, if_false]
  rfl

/-! ### Events -/

theorem event_run {s : State} (h : s.link.resetAfter = none) (e : Event) :
    event e s = .ok () (s.setLink (s.link.log e)) := by simp [event, h]

theorem tx_ok {s : State} (h : s.link.resetAfter = none) (b : Byte) (ha : s.link.txAt 0 = .ok) :
    tx b s = .ok .ok (s.setLink (s.link.popTx.log (.tx b .ok))) := by
  simp only [tx, get_bind, modify_bind, ha]
  rw [bind_ok (event_run (by simpa using h) _)]
  rfl

theorem tx_fail {s : State} (h : s.link.resetAfter = none) (b : Byte) (ha : s.link.txAt 0 = .fail) :
    tx b s = .ok .fail (s.setLink (s.link.popTx.log (.tx b .fail))) := by
  simp only [tx, get_bind, modify_bind, ha]
  rw [bind_ok (event_run (by simpa using h) _)]
  rfl

theorem tx_never {s : State} (h : s.link.resetAfter = none) (b : Byte) (ha : s.link.txAt 0 = .never) :
    tx b s = .error .noReturn (s.setLink (s.link.popTx.log (.tx b .never))) := by
  simp only [tx, get_bind, modify_bind, ha]
  rw [bind_ok (event_run (by simpa using h) _)]
  rfl

theorem rx_got {s : State} (h : s.link.resetAfter = none) {e : Byte} {st : XferStatus}
    (ha : s.link.rxAt 0 = .got e st) :
    rx s = .ok (e, st) (s.setLink (s.link.popRx.log (.rx (.got e st)))) := by
  simp only [rx, get_bind, modify_bind, ha]
  rw [bind_ok (event_run (by simpa using h) _)]
  rfl

theorem rx_never {s : State} (h : s.link.resetAfter = none) (ha : s.link.rxAt 0 = .never) :
    rx s = .error .noReturn (s.setLink (s.link.popRx.log (.rx .never))) := by
  simp only [rx, get_bind, modify_bind, ha]
  rw [bind_ok (event_run (by simpa using h) _)]
  rfl

/-! ### Slots -/

theorem slot_ok {s : State} (h : s.link.resetAfter = none) (b : Byte) {e : Byte}
    (ht : s.link.txAt 0 = .ok) (hr : s.link.rxAt 0 = .got e .ok) :
    slot b s = .ok e (s.setLink (s.link.after 1 (exchangeEvents b e))) := by
  simp only [slot]
  rw [bind_ok (tx_ok h b ht), failIf_false (by simp)]
  rw [bind_ok (rx_got (e := e) (st := .ok) (by simpa using h) (by simpa using hr)),
    failIf_false (by simp)]
  simp [exchange_eq_after, exchangeEvents]

theorem slot_tx_fail {s : State} (h : s.link.resetAfter = none) (b : Byte)
    (ht : s.link.txAt 0 = .fail) :
    slot b s = .error (.fail .transfer) (s.setLink (s.link.afterTxFail b)) := by
  simp only [slot]
  rw [bind_ok (tx_fail h b ht), failIf_true rfl]
  simp [Link.afterTxFail, Link.popTx, Link.log]

theorem slot_rx_fail {s : State} (h : s.link.resetAfter = none) (b : Byte) {e : Byte}
    (ht : s.link.txAt 0 = .ok) (hr : s.link.rxAt 0 = .got e .fail) :
    slot b s = .error (.fail .transfer)
      (s.setLink (s.link.after 1 [.tx b .ok, .rx (.got e .fail)])) := by
  simp only [slot]
  rw [bind_ok (tx_ok h b ht), failIf_false (by simp)]
  rw [bind_ok (rx_got (e := e) (st := .fail) (by simpa using h) (by simpa using hr)),
    failIf_true rfl]
  simp [exchange_eq_after]

/-- A failing exchange ends the slot with `TRANSFER` (R121, R212). -/
theorem slot_fails {s : State} (h : s.link.resetAfter = none) (b : Byte) {l' : Link}
    (hf : s.link.ExchangeFails b l') :
    slot b s = .error (.fail .transfer) (s.setLink l') := by
  rcases hf with ⟨ht, rfl⟩ | ⟨e, ht, hr, rfl⟩
  · exact slot_tx_fail h b ht
  · exact slot_rx_fail h b ht hr

/-- An exchange inside which a call never returns breaks the slot off (R121, R226). -/
theorem slot_hangs {s : State} (h : s.link.resetAfter = none) (b : Byte) {l' : Link}
    (hf : s.link.ExchangeHangs b l') : slot b s = .error .noReturn (s.setLink l') := by
  simp only [slot]
  rcases hf with ⟨ht, rfl⟩ | ⟨ht, hr, rfl⟩
  · rw [bind_error (tx_never h b ht)]
    simp [Link.popTx, Link.log]
  · rw [bind_ok (tx_ok h b ht), failIf_false (by simp),
      bind_error (rx_never (by simpa using h) (by simpa using hr))]
    simp [exchange_eq_after]

/-! ### A reset due inside a slot -/

/-- A call or other event at whose end a reset is due ends there (R242). -/
theorem event_cut {s : State} (h : s.link.resetAfter = some 0) (e : Event) :
    event e s = .error .reset (s.setLink (s.link.log e)) := by simp [event, h]

/-- An event before the one at whose end a reset is due. -/
theorem event_due {s : State} {k : Nat} (h : s.link.resetAfter = some (k + 1)) (e : Event) :
    event e s = .ok () (s.setLink { s.link.log e with resetAfter := some k }) := by simp [event, h]

/-- A transmit at whose end a reset is due (R242). -/
theorem tx_cut {s : State} (h : s.link.resetAfter = some 0) (b : Byte) :
    tx b s = .error .reset (s.setLink (s.link.popTx.log (.tx b (s.link.txAt 0)))) := by
  simp only [tx, get_bind, modify_bind]
  rw [bind_error (event_cut (by simpa using h) _)]
  rfl

/-- A receive at whose end a reset is due (R242). -/
theorem rx_cut {s : State} (h : s.link.resetAfter = some 0) :
    rx s = .error .reset (s.setLink (s.link.popRx.log (.rx (s.link.rxAt 0)))) := by
  simp only [rx, get_bind, modify_bind]
  rw [bind_error (event_cut (by simpa using h) _)]
  rfl

/-- The result of a call of `Tx` with its answer. -/
def txResult : TxAnswer → State → EStateM.Result Stop State XferStatus
  | .ok, s => .ok .ok s
  | .fail, s => .ok .fail s
  | .never, s => .error .noReturn s

/-- A transmit before the event at whose end a reset is due. -/
theorem tx_due {s : State} {k : Nat} (h : s.link.resetAfter = some (k + 1)) (b : Byte) :
    tx b s = txResult (s.link.txAt 0)
      (s.setLink { s.link.popTx.log (.tx b (s.link.txAt 0)) with resetAfter := some k }) := by
  simp only [tx, get_bind, modify_bind]
  rw [bind_ok (event_due (by simpa using h) _)]
  cases s.link.txAt 0 <;> rfl

/-- A receive before the event at whose end a reset is due. -/
theorem rx_due {s : State} {k : Nat} (h : s.link.resetAfter = some (k + 1)) (u : State) :
    rx s ≠ .error .reset u := by
  simp only [rx, get_bind, modify_bind]
  rw [bind_ok (event_due (by simpa using h) _)]
  cases s.link.rxAt 0 <;> simp

/-- A slot inside which a reset is due ends there: in its transmit, or in its receive (R242). -/
theorem slot_cut {s : State} {k : Nat} (h : s.link.resetAfter = some k)
    (hk : k = 0 ∨ (k = 1 ∧ s.link.txAt 0 = .ok)) (b : Byte) :
    ∃ u, slot b s = .error .reset u := by
  simp only [slot]
  rcases hk with rfl | ⟨rfl, ht⟩
  · exact ⟨_, bind_error (tx_cut h b)⟩
  · rw [bind_ok (tx_due h b |>.trans (by rw [ht]; rfl)), failIf_false (by simp),
      bind_error (rx_cut (by simp))]
    exact ⟨_, rfl⟩

/-- A slot with fewer events than a reset is due after does not end by the reset. -/
theorem slot_due {s : State} {k : Nat} (h : s.link.resetAfter = some k)
    (hk : ¬(k = 0 ∨ (k = 1 ∧ s.link.txAt 0 = .ok))) (b : Byte) (u : State) :
    slot b s ≠ .error .reset u := by
  obtain ⟨j, rfl⟩ : ∃ j, k = j + 1 := ⟨k - 1, by omega⟩
  simp only [slot]
  cases ht : s.link.txAt 0 with
  | ok =>
    obtain ⟨i, rfl⟩ : ∃ i, j = i + 1 := ⟨j - 1, by simp [ht] at hk; omega⟩
    rw [bind_ok (tx_due h b |>.trans (by rw [ht]; rfl)), failIf_false (by simp)]
    intro hc
    cases hr : rx (s.setLink { s.link.popTx.log (.tx b .ok) with resetAfter := some (i + 1) }) with
    | ok r v =>
      rw [bind_ok hr] at hc
      by_cases hf : r.2 = .fail
      · rw [failIf_true hf] at hc; cases hc
      · rw [failIf_false hf] at hc; cases hc
    | error e v =>
      rw [bind_error hr] at hc
      cases hc
      exact rx_due (k := i) (by simp) _ hr
  | fail =>
    rw [bind_ok (tx_due h b |>.trans (by rw [ht]; rfl)), failIf_true rfl]
    simp
  | never =>
    rw [bind_error (tx_due h b |>.trans (by rw [ht]; rfl))]
    simp

/-! ### Bits and bytes: a sequence of slots -/

/-- The slots of a list of bytes to transmit, all answered: what every bit and byte procedure amounts to. -/
def slots : List Byte → Proc (List Byte)
  | [] => pure []
  | b :: bs => do
    let e ← slot b
    let es ← slots bs
    return e :: es

theorem slotEvents_cons (b e : Byte) (bs es : List Byte) :
    slotEvents (b :: bs) (e :: es) = exchangeEvents b e ++ slotEvents bs es := by
  simp [slotEvents]

theorem slotEvents_append {a a' : List Byte} (b b' : List Byte) (h : a.length = a'.length) :
    slotEvents (a ++ b) (a' ++ b') = slotEvents a a' ++ slotEvents b b' := by
  simp [slotEvents, List.zip_append h]

theorem slots_ok {s : State} (h : s.link.resetAfter = none) :
    ∀ (bs es : List Byte), bs.length = es.length → s.link.Echoes es →
      slots bs s = .ok es (s.setLink (s.link.after bs.length (slotEvents bs es))) := by
  intro bs
  induction bs generalizing s with
  | nil =>
    intro es hl _
    obtain rfl : es = [] := by simpa using hl.symm
    simp [slots, slotEvents]
  | cons b bs ih =>
    intro es hl he
    obtain ⟨e, es, rfl⟩ : ∃ e es', es = e :: es' := by
      cases es with
      | nil => simp at hl
      | cons e es' => exact ⟨e, es', rfl⟩
    simp only [slots]
    rw [bind_ok (slot_ok h b he.head.1 he.head.2)]
    rw [bind_ok (ih (s := s.setLink (s.link.after 1 (exchangeEvents b e))) (by simpa using h) es
      (by simpa using hl) (by simpa using he.tail (exchangeEvents b e)))]
    simp [slotEvents_cons, Nat.add_comm]

/-- The first slots answer, the next one ends with `x`: the sequence ends there with `x`. -/
theorem slots_stop {s : State} (h : s.link.resetAfter = none) (bs es rest : List Byte) (b : Byte)
    {x : Stop} {l' : Link} (hl : bs.length = es.length) (he : s.link.Echoes es)
    (hf : slot b (s.setLink (s.link.after bs.length (slotEvents bs es))) = .error x (s.setLink l')) :
    slots (bs ++ b :: rest) s = .error x (s.setLink l') := by
  induction bs generalizing s es with
  | nil =>
    obtain rfl : es = [] := by simpa using hl.symm
    simp only [List.nil_append, slots]
    rw [bind_error (by simpa [slotEvents] using hf)]
  | cons c bs ih =>
    obtain ⟨e, es, rfl⟩ : ∃ e es', es = e :: es' := by
      cases es with
      | nil => simp at hl
      | cons e es' => exact ⟨e, es', rfl⟩
    simp only [List.cons_append, slots]
    rw [bind_ok (slot_ok h c he.head.1 he.head.2)]
    rw [bind_error (ih (s := s.setLink (s.link.after 1 (exchangeEvents c e))) (by simpa using h) es
      (by simpa using hl) (by simpa using he.tail (exchangeEvents c e))
      (by simpa [slotEvents_cons, Nat.add_comm] using hf))]
    rfl

/-- The first slots answer, the next exchange fails: the sequence ends there with `TRANSFER`. -/
theorem slots_fails {s : State} (h : s.link.resetAfter = none) (bs es rest : List Byte) (b : Byte)
    {l' : Link} (hl : bs.length = es.length) (he : s.link.Echoes es)
    (hf : (s.link.after bs.length (slotEvents bs es)).ExchangeFails b l') :
    slots (bs ++ b :: rest) s = .error (.fail .transfer) (s.setLink l') :=
  slots_stop h bs es rest b hl he (slot_fails (by simpa using h) b hf)

/-! ### What a slot can do, whatever the answers -/

/-- A procedure broken off: inside a call that does not return, or by a reset. -/
def Stop.broken : Stop → Prop
  | .fail _ => False
  | .polling _ => False
  | .noReturn => True
  | .reset => True

/-- The ends of a bus procedure other than its result: `TRANSFER`, or broken off. -/
def Stop.onBus : Stop → Prop
  | .fail c => c = .transfer
  | .polling _ => False
  | .noReturn => True
  | .reset => True

theorem Stop.broken.onBus {e : Stop} (h : e.broken) : e.onBus := by cases e <;> simp_all [broken, Stop.onBus]

/-- An event of a slot. -/
def Event.ofSlot : Event → Prop
  | .setBaud _ => False
  | .tx _ _ => True
  | .rx _ => True
  | .sleep _ => False

/-- The boundary has moved on by events of `Q`; a reset that is due has come nearer by as many events. -/
structure Link.Advances (Q : Event → Prop) (l l' : Link) : Prop where
  grows : ∃ evs, l'.trace = l.trace ++ evs ∧ ∀ e ∈ evs, Q e
  notDue : l.resetAfter = none → l'.resetAfter = none
  due : ∀ k, l.resetAfter = some k →
    ∃ j, l'.resetAfter = some j ∧ l'.trace.length + j = l.trace.length + k

/-- The boundary has moved on by events of `Q` up to the event at whose end a reset was due (R242). -/
structure Link.IsCut (Q : Event → Prop) (l l' : Link) : Prop where
  grows : ∃ evs, l'.trace = l.trace ++ evs ∧ ∀ e ∈ evs, Q e
  due : ∃ k, l.resetAfter = some k ∧ l'.trace.length = l.trace.length + k + 1

/-- How the boundary has moved on where a procedure ends with `e`. -/
def Link.EndsBy (Q : Event → Prop) (e : Stop) (l l' : Link) : Prop :=
  (e ≠ .reset ∧ l.Advances Q l') ∨ (e = .reset ∧ l.IsCut Q l')

variable {Q : Event → Prop}

theorem Link.Advances.refl (l : Link) : l.Advances Q l :=
  ⟨⟨[], by simp⟩, id, fun k h => ⟨k, h, rfl⟩⟩

theorem grows_trans {l l' l'' : Link} (h : ∃ evs, l'.trace = l.trace ++ evs ∧ ∀ e ∈ evs, Q e)
    (h' : ∃ evs, l''.trace = l'.trace ++ evs ∧ ∀ e ∈ evs, Q e) :
    ∃ evs, l''.trace = l.trace ++ evs ∧ ∀ e ∈ evs, Q e := by
  obtain ⟨e1, he1, hs1⟩ := h
  obtain ⟨e2, he2, hs2⟩ := h'
  refine ⟨e1 ++ e2, by simp [he1, he2], fun e he => ?_⟩
  rcases List.mem_append.mp he with h | h
  · exact hs1 e h
  · exact hs2 e h

theorem Link.Advances.trans {l l' l'' : Link} (h : l.Advances Q l') (h' : l'.Advances Q l'') :
    l.Advances Q l'' := by
  refine ⟨grows_trans h.grows h'.grows, fun hn => h'.notDue (h.notDue hn), fun k hk => ?_⟩
  obtain ⟨j, hj, h1⟩ := h.due k hk
  obtain ⟨i, hi, h2⟩ := h'.due j hj
  exact ⟨i, hi, by omega⟩

theorem Link.Advances.cut {l l' l'' : Link} (h : l.Advances Q l') (h' : l'.IsCut Q l'') :
    l.IsCut Q l'' := by
  refine ⟨grows_trans h.grows h'.grows, ?_⟩
  obtain ⟨j, hj, h2⟩ := h'.due
  cases hk : l.resetAfter with
  | none =>
    rw [h.notDue hk] at hj
    cases hj
  | some k =>
    obtain ⟨i, hi, h1⟩ := h.due k hk
    rw [hi] at hj
    cases hj
    exact ⟨k, rfl, by omega⟩

theorem Link.Advances.ends {e : Stop} {l l' l'' : Link} (h : l.Advances Q l')
    (h' : l'.EndsBy Q e l'') : l.EndsBy Q e l'' := by
  rcases h' with ⟨he, ha⟩ | ⟨he, hc⟩
  · exact .inl ⟨he, h.trans ha⟩
  · exact .inr ⟨he, h.cut hc⟩

theorem Link.EndsBy.notReset {e : Stop} {l l' : Link} (h : l.EndsBy Q e l')
    (hn : l.resetAfter = none) : e ≠ .reset := by
  rcases h with ⟨he, -⟩ | ⟨-, hc⟩
  · exact he
  · obtain ⟨k, hk, -⟩ := hc.due
    rw [hn] at hk
    cases hk

theorem Link.EndsBy.notDue {e : Stop} {l l' : Link} (h : l.EndsBy Q e l')
    (hn : l.resetAfter = none) : l'.resetAfter = none := by
  rcases h with ⟨-, ha⟩ | ⟨-, hc⟩
  · exact ha.notDue hn
  · obtain ⟨k, hk, -⟩ := hc.due
    rw [hn] at hk
    cases hk

theorem Link.EndsBy.grows {e : Stop} {l l' : Link} (h : l.EndsBy Q e l') :
    ∃ evs, l'.trace = l.trace ++ evs ∧ ∀ e ∈ evs, Q e := by
  rcases h with ⟨-, ha⟩ | ⟨-, hc⟩
  · exact ha.grows
  · exact hc.grows

theorem Link.Advances.mono {Q' : Event → Prop} {l l' : Link} (h : l.Advances Q l')
    (hq : ∀ e, Q e → Q' e) : l.Advances Q' l' := by
  obtain ⟨⟨evs, ht, he⟩, h2, h3⟩ := h
  exact ⟨⟨evs, ht, fun e h => hq e (he e h)⟩, h2, h3⟩

theorem Link.EndsBy.mono {Q' : Event → Prop} {e : Stop} {l l' : Link} (h : l.EndsBy Q e l')
    (hq : ∀ e, Q e → Q' e) : l.EndsBy Q' e l' := by
  rcases h with ⟨he, ha⟩ | ⟨he, ⟨evs, ht, hev⟩, hd⟩
  · exact .inl ⟨he, ha.mono hq⟩
  · exact .inr ⟨he, ⟨evs, ht, fun e h => hq e (hev e h)⟩, hd⟩

/-- `p` only moves the boundary on by slot events: it ends with a result or in one of the ways `P`, every register
unchanged. -/
def OnlySlots (P : Stop → Prop) (p : Proc α) : Prop :=
  ∀ s, ∃ l, (s.link.Advances Event.ofSlot l ∧ ∃ a, p s = .ok a (s.setLink l)) ∨
     (∃ e, P e ∧ s.link.EndsBy Event.ofSlot e l ∧ p s = .error e (s.setLink l))

variable {P P' : Stop → Prop}

theorem OnlySlots.mono {p : Proc α} (hp : OnlySlots P p) (h : ∀ e, P e → P' e) : OnlySlots P' p := by
  intro s
  obtain ⟨l, ha | ⟨e, he, hne, ha⟩⟩ := hp s
  · exact ⟨l, .inl ha⟩
  · exact ⟨l, .inr ⟨e, h e he, hne, ha⟩⟩

theorem OnlySlots.pure (a : α) : OnlySlots P (pure a : Proc α) :=
  fun s => ⟨s.link, .inl ⟨.refl _, a, rfl⟩⟩

theorem OnlySlots.bind {p : Proc α} {f : α → Proc β} (hp : OnlySlots P p)
    (hf : ∀ a, OnlySlots P (f a)) : OnlySlots P (p >>= f) := by
  intro s
  obtain ⟨l, ⟨hl, a, ha⟩ | ⟨e, he, hne, ha⟩⟩ := hp s
  · rw [bind_ok ha]
    obtain ⟨l', ⟨hl', b, hb⟩ | ⟨e, he, hne, hb⟩⟩ := hf a (s.setLink l)
    · exact ⟨l', .inl ⟨hl.trans hl', b, by simpa using hb⟩⟩
    · exact ⟨l', .inr ⟨e, he, hl.ends hne, by simpa using hb⟩⟩
  · rw [bind_error ha]
    exact ⟨l, .inr ⟨e, he, hne, rfl⟩⟩

theorem OnlySlots.throw (e : Stop) (he : P e) (hr : e ≠ .reset) : OnlySlots P (throw e : Proc α) :=
  fun s => ⟨s.link, .inr ⟨e, he, .inl ⟨hr, .refl _⟩, rfl⟩⟩

/-- A procedure that first looks at the state. -/
theorem OnlySlots.get {f : State → Proc β} (hf : ∀ s, OnlySlots P (f s)) :
    OnlySlots P (get >>= f) :=
  fun s => hf s s

theorem onlySlots_link (f : Link → Link) (hf : ∀ l : Link, l.Advances Event.ofSlot (f l)) :
    OnlySlots P (modify fun s => s.setLink (f s.link)) :=
  fun s => ⟨f s.link, .inl ⟨hf _, ⟨⟩, rfl⟩⟩

/-- Every event, whatever is due: the trace grows by it, and a reset that is due at its end lands there. -/
theorem event_cases (e : Event) (he : Q e) (s : State) :
    ∃ l, l.trace = s.link.trace ++ [e] ∧
      ((s.link.Advances Q l ∧ event e s = .ok () (s.setLink l)) ∨
        (s.link.IsCut Q l ∧ event e s = .error .reset (s.setLink l))) := by
  have grows : ∃ evs, s.link.trace ++ [e] = s.link.trace ++ evs ∧ ∀ x ∈ evs, Q x :=
    ⟨[e], rfl, by simpa using he⟩
  cases h : s.link.resetAfter with
  | none =>
    exact ⟨s.link.log e, rfl, .inl ⟨⟨grows, fun _ => h, by simp [h]⟩, event_run h e⟩⟩
  | some k =>
    cases k with
    | zero =>
      exact ⟨s.link.log e, rfl, .inr ⟨⟨grows, 0, h, by simp⟩, by simp [event, h]⟩⟩
    | succ k =>
      refine ⟨{ s.link.log e with resetAfter := some k }, rfl, .inl ⟨⟨grows, by simp [h], ?_⟩,
        by simp [event, h]⟩⟩
      intro k' hk
      rw [h] at hk
      cases hk
      exact ⟨k, rfl, by simp; omega⟩

theorem event_onlySlots (e : Event) (he : e.ofSlot) : OnlySlots Stop.broken (event e) := by
  intro s
  obtain ⟨l, -, ⟨ha, h⟩ | ⟨hc, h⟩⟩ := event_cases e he s
  · exact ⟨l, .inl ⟨ha, (), h⟩⟩
  · exact ⟨l, .inr ⟨.reset, trivial, .inr ⟨rfl, hc⟩, h⟩⟩

theorem popTx_advances (l : Link) : l.Advances Event.ofSlot l.popTx :=
  ⟨⟨[], by simp⟩, id, fun k h => ⟨k, h, rfl⟩⟩
theorem popRx_advances (l : Link) : l.Advances Event.ofSlot l.popRx :=
  ⟨⟨[], by simp⟩, id, fun k h => ⟨k, h, rfl⟩⟩

theorem tx_onlySlots (b : Byte) : OnlySlots Stop.broken (tx b) := by
  unfold tx
  refine .get fun s => .bind (onlySlots_link _ popTx_advances) fun _ =>
    .bind (event_onlySlots _ trivial) fun _ => ?_
  split
  · exact .pure _
  · exact .pure _
  · exact .throw _ trivial (by simp)

theorem rx_onlySlots : OnlySlots Stop.broken rx := by
  unfold rx
  refine .get fun s => .bind (onlySlots_link _ popRx_advances) fun _ =>
    .bind (event_onlySlots _ trivial) fun _ => ?_
  split
  · exact .pure _
  · exact .throw _ trivial (by simp)

theorem failIf_onlySlots (p : Prop) [Decidable p] : OnlySlots Stop.onBus (failIf p .transfer) := by
  unfold failIf
  split
  · exact .throw _ rfl (by simp)
  · exact .pure _

theorem slot_onlySlots (b : Byte) : OnlySlots Stop.onBus (slot b) :=
  .bind ((tx_onlySlots b).mono fun _ => Stop.broken.onBus) fun _ =>
    .bind (failIf_onlySlots _) fun _ =>
    .bind (rx_onlySlots.mono fun _ => Stop.broken.onBus) fun _ =>
    .bind (failIf_onlySlots _) fun _ => .pure _

theorem slots_onlySlots : ∀ bs, OnlySlots Stop.onBus (slots bs)
  | [] => .pure _
  | b :: bs => .bind (slot_onlySlots b) fun _ => .bind (slots_onlySlots bs) fun _ => .pure _

theorem resetEcho_onlySlots (s : XferStatus) : OnlySlots Stop.broken (resetEcho s) := by
  cases s
  · exact .bind rx_onlySlots fun _ => .pure _
  · exact .pure _

end Sys2Proof.Machine
end

