-- ==== Sys2Proof/Laws/Procs.lean ====
section
/-! SUPPORT. Bit and byte procedures are sequences of slots; the bus reset, the round trip, the decode, the waits:
one equation for each way they can go when no reset of the block is due. -/

namespace Sys2Proof.Machine

variable {α β γ : Type}

/-! ### Bits and bytes as slots -/

/-- The result of the slots of `bs`, seen through `f`. -/
def slotsThen (bs : List Byte) (f : List Byte → α) : Proc α := do
  let es ← slots bs
  return f es

theorem slotsThen_ok {s : State} {bs : List Byte} {f : List Byte → α} {s' : State} {es : List Byte}
    (h : slots bs s = .ok es s') : slotsThen bs f s = .ok (f es) s' := by
  unfold slotsThen
  rw [bind_ok h]
  rfl

theorem slotsThen_error {s : State} {bs : List Byte} {f : List Byte → α} {s' : State} {e : Stop}
    (h : slots bs s = .error e s') : slotsThen bs f s = .error e s' := by
  unfold slotsThen
  rw [bind_error h]

/-- One slot, then more slots. -/
theorem slot_slotsThen (b : Byte) (bs : List Byte) (f : List Byte → α) (s : State) :
    (slot b >>= fun e => slotsThen bs (fun es => f (e :: es))) s = slotsThen (b :: bs) f s := by
  unfold slotsThen
  simp only [slots]
  cases h : slot b s with
  | ok e s' =>
    rw [bind_ok h]
    cases h2 : slots bs s' with
    | ok es s'' =>
      rw [bind_ok h2]
      rw [bind_ok (a := e :: es) (s' := s'') (by rw [bind_ok h, bind_ok h2]; rfl)]
    | error x s'' =>
      rw [bind_error h2]
      rw [bind_error (e := x) (s' := s'') (by rw [bind_ok h, bind_error h2])]
  | error x s' =>
    rw [bind_error h]
    rw [bind_error (e := x) (s' := s') (by rw [bind_error h])]

/-- Slots, then more slots. -/
theorem slotsThen_append (as bs : List Byte) (f : List Byte → List Byte → α) (s : State) :
    (slots as >>= fun ea => slotsThen bs (f ea)) s =
      slotsThen (as ++ bs) (fun es => f (es.take as.length) (es.drop as.length)) s := by
  induction as generalizing s f with
  | nil => simp [slots, pure_bind_run]
  | cons a as ih =>
    rw [List.cons_append, ← slot_slotsThen]
    simp only [slots]
    cases h : slot a s with
    | error x s' =>
      rw [bind_error h]
      rw [bind_error (e := x) (s' := s') (by rw [bind_error h])]
    | ok e s' =>
      rw [bind_ok h]
      have := ih (fun ea => f (e :: ea)) s'
      simp only [List.length_cons, List.take_succ_cons, List.drop_succ_cons]
      rw [← this]
      cases h2 : slots as s' with
      | error x s'' =>
        rw [bind_error h2]
        rw [bind_error (e := x) (s' := s'') (by rw [bind_ok h, bind_error h2])]
      | ok es s'' =>
        rw [bind_ok h2]
        rw [bind_ok (a := e :: es) (s' := s'') (by rw [bind_ok h, bind_ok h2]; rfl)]

/-- A slot leaves the configuration record as it is. -/
theorem onlySlots_params {P : Stop → Prop} {p : Proc α} (hp : OnlySlots P p) (s : State) :
    (∀ a s', p s = .ok a s' → s'.params = s.params) := by
  intro a s' h
  obtain ⟨l, ⟨-, b, hb⟩ | ⟨e, -, -, hb⟩⟩ := hp s
  · rw [hb] at h
    injection h with _ h
    simp [← h]
  · rw [hb] at h
    cases h

theorem writeBit_run (b : Bool) (s : State) :
    writeBit b s = slotsThen [wireByte s.params b] (fun _ => ()) s := by
  rw [← slot_slotsThen]
  simp only [writeBit, get_bind]
  cases h : slot (wireByte s.params b) s with
  | ok e s' => rw [bind_ok h, bind_ok h]; rfl
  | error x s' => rw [bind_error h, bind_error h]

theorem writeBits_run (bits : List Bool) (s : State) :
    writeBits bits s = slotsThen (bits.map (wireByte s.params)) (fun _ => ()) s := by
  induction bits generalizing s with
  | nil => rfl
  | cons b bits ih =>
    rw [List.map_cons, ← slot_slotsThen]
    simp only [writeBits]
    cases h : slot (wireByte s.params b) s with
    | ok e s' =>
      have hp := onlySlots_params (slot_onlySlots _) s _ _ h
      rw [bind_ok (a := ()) (s' := s') (by
        rw [writeBit_run, ← slot_slotsThen, bind_ok h]; rfl), bind_ok h, ih, hp]
    | error x s' =>
      rw [bind_error h]
      rw [bind_error (e := x) (s' := s') (by
        rw [writeBit_run, ← slot_slotsThen, bind_error h])]

theorem wireBytes_eq (c : Cfg) (v : Byte) : (bitsOf v).map (wireByte c) = wireBytes c v := by
  simp [bitsOf, wireBytes, wireByte, List.map_map, Function.comp_def]

theorem writeByte_run (v : Byte) (s : State) :
    writeByte v s = slotsThen (wireBytes s.params v) (fun _ => ()) s := by
  rw [writeByte, writeBits_run, wireBytes_eq]

theorem slotsThen_slotsThen (as bs : List Byte) (f : List Byte → α) (g : α → List Byte → β)
    (s : State) :
    (slotsThen as f >>= fun a => slotsThen bs (g a)) s =
      slotsThen (as ++ bs) (fun es => g (f (es.take as.length)) (es.drop as.length)) s := by
  rw [← slotsThen_append as bs (fun ea => g (f ea))]
  cases h : slots as s with
  | ok es s' => rw [bind_ok h, bind_ok (slotsThen_ok h)]
  | error x s' => rw [bind_error h, bind_error (slotsThen_error h)]

theorem slotsThen_onlySlots (bs : List Byte) (f : List Byte → α) : OnlySlots Stop.onBus (slotsThen bs f) := by
  unfold slotsThen
  exact .bind (slots_onlySlots bs) fun es => .pure (f es)

theorem slotsThen_params (bs : List Byte) (f : List Byte → α) (s : State) :
    ∀ a s', slotsThen bs f s = .ok a s' → s'.params = s.params :=
  onlySlots_params (slotsThen_onlySlots bs f) s

/-- Two procedures that are slots, one after the other, where the second depends on the record only. -/
theorem bind_slotsThen {p : Proc α} {q : Proc β} {s : State} {as : List Byte} {f : List Byte → α}
    {bs : Cfg → List Byte} {g : List Byte → β} {h : α → β → γ}
    (hp : p s = slotsThen as f s) (hq : ∀ t, q t = slotsThen (bs t.params) g t) :
    (p >>= fun a => q >>= fun b => pure (h a b)) s =
      slotsThen (as ++ bs s.params) (fun es => h (f (es.take as.length)) (g (es.drop as.length))) s := by
  have hb : ∀ a t, (q >>= fun b => pure (h a b)) t = slotsThen (bs t.params) (fun es => h a (g es)) t := by
    intro a t
    cases hs : slots (bs t.params) t with
    | ok es t' => rw [slotsThen_ok hs, bind_ok (by rw [hq, slotsThen_ok hs])]; rfl
    | error x t' => rw [slotsThen_error hs, bind_error (by rw [hq, slotsThen_error hs])]
  rw [← slotsThen_slotsThen as (bs s.params) f (fun a es => h a (g es))]
  cases hs : slotsThen as f s with
  | ok a s' =>
    rw [bind_ok (hp.trans hs), bind_ok hs, hb, slotsThen_params as f s a s' hs]
  | error x s' => rw [bind_error (hp.trans hs), bind_error hs]

theorem writeBytes_run (vs : List Byte) (s : State) :
    writeBytes vs s = slotsThen (vs.flatMap (wireBytes s.params)) (fun _ => ()) s := by
  induction vs generalizing s with
  | nil => rfl
  | cons v vs ih =>
    have := bind_slotsThen (bs := fun c => vs.flatMap (wireBytes c))
      (h := fun (_ : Unit) (b : Unit) => b) (writeByte_run v s) ih
    rw [List.flatMap_cons]
    refine Eq.trans ?_ this
    simp only [writeBytes]
    cases hs : writeByte v s with
    | error x s' => rw [bind_error hs, bind_error hs]
    | ok a s' =>
      rw [bind_ok hs, bind_ok hs]
      cases ht : writeBytes vs s' with
      | ok a t => rw [bind_ok ht]; rfl
      | error x t => rw [bind_error ht]

theorem readBit_run (s : State) :
    readBit s = slotsThen [s.params.readTxByte] (fun es => readBitOf s.params (es.getD 0 0)) s := by
  rw [← slot_slotsThen]
  simp only [readBit, get_bind]
  cases h : slot s.params.readTxByte s with
  | ok e s' => rw [bind_ok h, bind_ok h]; rfl
  | error x s' => rw [bind_error h, bind_error h]

theorem readBits_run (n : Nat) (s : State) :
    readBits n s = slotsThen (List.replicate n s.params.readTxByte)
      (fun es => es.map (readBitOf s.params)) s := by
  induction n generalizing s with
  | zero => rfl
  | succ n ih =>
    rw [List.replicate_succ, ← slot_slotsThen]
    simp only [readBits]
    cases h : slot s.params.readTxByte s with
    | error x s' =>
      rw [bind_error h]
      rw [bind_error (e := x) (s' := s') (by
        rw [readBit_run, ← slot_slotsThen, bind_error h])]
    | ok e s' =>
      have hp := onlySlots_params (slot_onlySlots _) s _ _ h
      rw [bind_ok (a := readBitOf s.params e) (s' := s') (by
        rw [readBit_run, ← slot_slotsThen, bind_ok h]; rfl), bind_ok h]
      cases hs : slots (List.replicate n s.params.readTxByte) s' with
      | ok es t =>
        rw [slotsThen_ok hs, bind_ok (a := es.map (readBitOf s.params)) (s' := t) (by
          rw [ih, hp, slotsThen_ok hs])]
        simp
      | error x t =>
        rw [slotsThen_error hs, bind_error (e := x) (s' := t) (by
          rw [ih, hp, slotsThen_error hs])]

/-- The byte eight echoes read as. -/
def echoByte (c : Cfg) (es : List Byte) : Byte := byteOfBits (es.map (readBitOf c))

theorem readByte_run (s : State) :
    readByte s = slotsThen (List.replicate 8 s.params.readTxByte) (echoByte s.params) s := by
  simp only [readByte]
  cases hs : slots (List.replicate 8 s.params.readTxByte) s with
  | ok es t =>
    rw [slotsThen_ok hs, bind_ok (by rw [readBits_run, slotsThen_ok hs])]
    rfl
  | error x t =>
    rw [slotsThen_error hs, bind_error (by rw [readBits_run, slotsThen_error hs])]

/-- The `n` bytes that `8 * n` echoes read as. -/
def echoBytes (c : Cfg) : Nat → List Byte → List Byte
  | 0, _ => []
  | n + 1, es => echoByte c (es.take 8) :: echoBytes c n (es.drop 8)

@[simp] theorem echoBytes_length (c : Cfg) (n : Nat) (es : List Byte) :
    (echoBytes c n es).length = n := by
  induction n generalizing es with
  | zero => rfl
  | succ n ih => simp [echoBytes, ih]

theorem echoBytes_getElem? (c : Cfg) (n k : Nat) (es : List Byte) (h : k < n) :
    (echoBytes c n es)[k]? = some (echoByte c ((es.drop (8 * k)).take 8)) := by
  induction n generalizing es k with
  | zero => omega
  | succ n ih =>
    cases k with
    | zero => simp [echoBytes]
    | succ k =>
      simp only [echoBytes, List.getElem?_cons_succ]
      rw [ih k _ (by omega), List.drop_drop]
      congr 4
      omega

theorem readBytes_run (n : Nat) (s : State) :
    readBytes n s = slotsThen (List.replicate (8 * n) s.params.readTxByte)
      (echoBytes s.params n) s := by
  induction n generalizing s with
  | zero => rfl
  | succ n ih =>
    have hq : ∀ t, t.params = s.params → readBytes n t =
        slotsThen (List.replicate (8 * n) s.params.readTxByte) (echoBytes s.params n) t := by
      intro t ht
      rw [ih, ht]
    simp only [readBytes]
    have e8 : 8 * (n + 1) = 8 + 8 * n := by omega
    rw [e8, List.replicate_add]
    have := slotsThen_slotsThen (List.replicate 8 s.params.readTxByte)
      (List.replicate (8 * n) s.params.readTxByte) (echoByte s.params)
      (fun v es => v :: echoBytes s.params n es) s
    simp only [List.length_replicate] at this
    refine Eq.trans ?_ this
    cases hs : slotsThen (List.replicate 8 s.params.readTxByte) (echoByte s.params) s with
    | error x s' => rw [bind_error hs, bind_error (by rw [readByte_run, hs])]
    | ok v s' =>
      have hp := slotsThen_params _ _ s v s' hs
      rw [bind_ok hs, bind_ok (by rw [readByte_run, hs])]
      cases ht : slots (List.replicate (8 * n) s.params.readTxByte) s' with
      | ok es t =>
        rw [slotsThen_ok ht, bind_ok (by rw [hq s' hp, slotsThen_ok ht])]
        rfl
      | error x t =>
        rw [slotsThen_error ht, bind_error (by rw [hq s' hp, slotsThen_error ht])]

theorem wireBytes_length (c : Cfg) (v : Byte) : (wireBytes c v).length = 8 := by simp [wireBytes]

theorem wireBytes_flatMap_length (c : Cfg) (vs : List Byte) :
    (vs.flatMap (wireBytes c)).length = 8 * vs.length := by
  induction vs with
  | nil => rfl
  | cons v vs ih => simp [wireBytes_length, ih]; omega

theorem commandBytes_length (c : Cfg) (d : Descriptor) (payload : List Byte) :
    (commandBytes c d payload).length = 8 * (writtenBytes d payload).length + 8 * d.rx := by
  simp only [commandBytes, List.length_append, List.length_replicate, wireBytes_flatMap_length]

/-- The middle of a round trip is the slots of `commandBytes` (R141 steps 4 to 6). -/
theorem shuttle_run (d : Descriptor) (payload : List Byte) (s : State) :
    shuttle d payload s = slotsThen (commandBytes s.params d payload)
      (fun es => echoBytes s.params d.rx (es.drop (8 * (writtenBytes d payload).length))) s := by
  have hw : ∀ t, (writeBytes d.op.toList >>= fun _ => writeBytes payload) t =
      slotsThen ((writtenBytes d payload).flatMap (wireBytes t.params)) (fun _ => ()) t := by
    intro t
    have := slotsThen_slotsThen (d.op.toList.flatMap (wireBytes t.params))
      (payload.flatMap (wireBytes t.params)) (fun _ => ()) (fun _ _ => ()) t
    rw [writtenBytes, List.flatMap_append, ← this]
    cases h : slotsThen (d.op.toList.flatMap (wireBytes t.params)) (fun _ => ()) t with
    | error x t' => rw [bind_error h, bind_error (by rw [writeBytes_run, h])]
    | ok a t' =>
      rw [bind_ok h, bind_ok (by rw [writeBytes_run, h]), writeBytes_run,
        slotsThen_params _ _ t a t' h]
  have := slotsThen_slotsThen ((writtenBytes d payload).flatMap (wireBytes s.params))
    (List.replicate (8 * d.rx) s.params.readTxByte) (fun _ => ())
    (fun _ es => echoBytes s.params d.rx es) s
  rw [wireBytes_flatMap_length] at this
  rw [commandBytes, ← this]
  have h2 : shuttle d payload s =
      ((writeBytes d.op.toList >>= fun _ => writeBytes payload) >>= fun _ => readBytes d.rx) s := by
    simp only [shuttle, bind_assoc]
  rw [h2]
  cases h : slotsThen ((writtenBytes d payload).flatMap (wireBytes s.params)) (fun _ => ()) s with
  | error x t' => rw [bind_error h, bind_error (by rw [hw, h])]
  | ok a t' =>
    rw [bind_ok h, bind_ok (by rw [hw, h]), readBytes_run, slotsThen_params _ _ s a t' h]

/-! ### Bits of a byte -/

theorem byteOfBits_getLsbD (bits : List Bool) (i : Nat) :
    (byteOfBits bits).getLsbD i = (decide (i < 8) && bits.getD i false) := by
  induction bits generalizing i with
  | nil => simp [byteOfBits]
  | cons b bits ih =>
    cases i with
    | zero => cases b <;> simp [byteOfBits]
    | succ i =>
      cases b <;>
        simp [byteOfBits, ih, BitVec.getLsbD_one] <;>
        by_cases h : i + 1 < 8 <;> simp [h] <;> omega

/-- Eight echoes read as the byte `echoByte` makes of them (R131). -/
theorem readsAs_echoByte (c : Cfg) (es : List Byte) : ReadsAs c es (echoByte c es) := by
  intro i hi
  simp only [echoByte, byteOfBits_getLsbD, hi, decide_true, Bool.true_and]
  rcases h : es[i]? with _ | e
  · simp [List.getD, h]
  · simp [List.getD, h, readBitOf]

theorem readsAs_unique {c : Cfg} {es : List Byte} {v w : Byte} (hv : ReadsAs c es v)
    (hw : ReadsAs c es w) : v = w := by
  apply BitVec.eq_of_getLsbD_eq
  intro i hi
  have h1 := hv i hi
  have h2 := hw i hi
  rw [Bool.eq_iff_iff, h1, h2]

end Sys2Proof.Machine
end

