-- ==== Sys2Proof/Laws/Execute.lean ====
section
/-! SUPPORT. The bus reset, the round trip, the decode, the waits and the end of an operation: one equation for each
way they can go when no reset of the block is due, and one statement of everything they can do. -/

namespace Sys2Proof.Machine

variable {α β : Type}

/-! ### The bus reset -/

/-- The state after a bus reset that left the boundary at `l` and `CONNECTED` at `p` (R123). -/
def State.afterReset (s : State) (p : Bool) (l : Link) : State :=
  ((s.setBaudsel .data).setConnected p).setLink l

@[simp] theorem afterReset_params (s : State) (p : Bool) (l : Link) :
    (s.afterReset p l).params = s.params := rfl
@[simp] theorem afterReset_link (s : State) (p : Bool) (l : Link) : (s.afterReset p l).link = l := rfl
@[simp] theorem afterReset_setLink (s : State) (p : Bool) (l l' : Link) :
    (s.afterReset p l).setLink l' = s.afterReset p l' := rfl
@[simp] theorem afterReset_connected (s : State) (p : Bool) (l : Link) :
    (s.afterReset p l).connected = p := rfl
@[simp] theorem afterReset_baudsel (s : State) (p : Bool) (l : Link) :
    (s.afterReset p l).baudsel = .data := rfl

theorem busReset_ok {s : State} (h : s.link.resetAfter = none) {e : Byte}
    (ht : s.link.txAt 0 = .ok) (hr : s.link.rxAt 0 = .got e .ok) :
    busReset s = .ok (present s.params e)
      (s.afterReset (present s.params e) (s.link.after 1 (resetEvents s.params e))) := by
  simp only [busReset, get_bind, setBaud]
  rw [bind_ok (event_run h _), modify_bind,
    bind_ok (tx_ok (by simpa using h) _ (by simpa using ht))]
  simp only [resetEcho]
  rw [bind_ok (a := some e) (by
      rw [bind_ok (rx_got (e := e) (st := .ok) (by simpa using h) (by simpa using hr))]
      simp only [if_true]
      rfl),
    bind_ok (event_run (by simpa using h) _), modify_bind]
  simp only [inspectEcho, get_bind, modify_bind]
  simp [State.afterReset, Link.after, Link.popTx, Link.popRx, Link.log,
    resetEvents]

/-- A transfer failure in a bus reset: the rate is restored, `CONNECTED` cleared, `TRANSFER` raised (R123). -/
theorem busReset_fails {s : State} (h : s.link.resetAfter = none) {l : Link}
    (hf : (s.link.afterEvent (.setBaud s.params.baudReset)).ExchangeFails s.params.resetTxByte l) :
    busReset s = .error (.fail .transfer)
      (s.afterReset false (l.afterEvent (.setBaud s.params.baudData))) := by
  simp only [busReset, get_bind, setBaud]
  rw [bind_ok (event_run h _), modify_bind]
  rcases hf with ⟨ht, rfl⟩ | ⟨e, ht, hr, rfl⟩
  · rw [bind_ok (tx_fail (by simpa using h) _ (by simpa [← log_eq_afterEvent] using ht))]
    simp only [resetEcho]
    rw [pure_bind_run, bind_ok (event_run (by simpa using h) _), modify_bind]
    simp only [inspectEcho, modify_bind]
    simp [State.afterReset, Link.popTx, Link.log, Link.afterTxFail, Link.afterEvent]
  · rw [bind_ok (tx_ok (by simpa using h) _ (by simpa [← log_eq_afterEvent] using ht))]
    simp only [resetEcho]
    rw [bind_ok (a := (none : Option Byte)) (by
        rw [bind_ok (rx_got (e := e) (st := .fail) (by simpa using h)
          (by simpa [← log_eq_afterEvent] using hr))]
        simp only [reduceCtorEq, if_false]
        rfl),
      bind_ok (event_run (by simpa using h) _), modify_bind]
    simp only [inspectEcho, modify_bind]
    simp [State.afterReset, Link.after, Link.popTx, Link.popRx, Link.log, Link.afterEvent]

/-- A bus reset whose exchange never returns is broken off inside the call, at the reset rate (R123, R226). -/
theorem busReset_hangs {s : State} (h : s.link.resetAfter = none) {l : Link}
    (hf : (s.link.afterEvent (.setBaud s.params.baudReset)).ExchangeHangs s.params.resetTxByte l) :
    busReset s = .error .noReturn ((s.setBaudsel .reset).setLink l) := by
  simp only [busReset, get_bind, setBaud]
  rw [bind_ok (event_run h _), modify_bind]
  rcases hf with ⟨ht, rfl⟩ | ⟨ht, hr, rfl⟩
  · rw [bind_error (tx_never (by simpa using h) _ (by simpa [← log_eq_afterEvent] using ht))]
    simp [Link.popTx, Link.log, Link.afterEvent]
  · rw [bind_ok (tx_ok (by simpa using h) _ (by simpa [← log_eq_afterEvent] using ht))]
    simp only [resetEcho]
    rw [bind_error (bind_error (rx_never (by simpa using h)
      (by simpa [← log_eq_afterEvent] using hr)))]
    simp [Link.after, Link.popTx, Link.popRx, Link.log, Link.afterEvent]

/-! ### What an operation can do to the boundary -/

/-- The boundary has moved on by any events. -/
abbrev Link.Moves (l l' : Link) : Prop := l.Advances (fun _ => True) l'

/-- How the boundary has moved on, by any events, where a procedure ends with `e`. -/
abbrev Link.MovesBy (e : Stop) (l l' : Link) : Prop := l.EndsBy (fun _ => True) e l'

theorem Link.Advances.moves {Q : Event → Prop} {l l' : Link} (h : l.Advances Q l') : l.Moves l' :=
  h.mono fun _ _ => trivial

theorem Link.EndsBy.moves {Q : Event → Prop} {e : Stop} {l l' : Link} (h : l.EndsBy Q e l') :
    l.MovesBy e l' := h.mono fun _ _ => trivial

/-- The boundary has moved on, and the last event was the return to the data rate. -/
structure Link.Resets (c : Cfg) (l l' : Link) : Prop where
  moves : l.Moves l'
  restored : ∃ evs, l'.trace = l.trace ++ (evs ++ [.setBaud c.baudData])

/-- Everything a bus reset can do: it answers presence and leaves it in `CONNECTED`, or it fails with `TRANSFER`
and clears `CONNECTED`, in both cases at the data rate; or it is broken off, and then only the boundary and
`BAUDSEL` have changed (R123). -/
theorem busReset_cases (s : State) :
    ∃ l, (s.link.Resets s.params l ∧
        ((∃ p, busReset s = .ok p (s.afterReset p l)) ∨
         busReset s = .error (.fail .transfer) (s.afterReset false l))) ∨
      (∃ e b, e.broken ∧ s.link.MovesBy e l ∧
          busReset s = .error e ((s.setBaudsel b).setLink l)) := by
  simp only [busReset, get_bind, setBaud]
  obtain ⟨l1, -, ⟨m1, h1⟩ | ⟨c1, h1⟩⟩ := event_cases (.setBaud s.params.baudReset)
    (Q := fun _ => True) trivial s
  case inr =>
    exact ⟨l1, .inr ⟨.reset, s.baudsel, trivial, .inr ⟨rfl, c1⟩, by rw [bind_error h1]; rfl⟩⟩
  rw [bind_ok h1, modify_bind]
  obtain ⟨l2, ⟨a2, st, h2⟩ | ⟨e2, b2, n2, h2⟩⟩ :=
    tx_onlySlots s.params.resetTxByte ((s.setLink l1).setBaudsel .reset)
  all_goals simp only [setLink_link, setBaudsel_setLink, setLink_setLink] at *
  case inr => exact ⟨l2, .inr ⟨e2, .reset, b2, m1.ends n2.moves, by rw [bind_error h2]⟩⟩
  have m2 : s.link.Moves l2 := m1.trans a2.moves
  rw [bind_ok h2]
  obtain ⟨l3, ⟨a3, eo, h3⟩ | ⟨e3, b3, n3, h3⟩⟩ :=
    resetEcho_onlySlots st ((s.setBaudsel .reset).setLink l2)
  all_goals simp only [setLink_link, setLink_setLink] at *
  case inr => exact ⟨l3, .inr ⟨e3, .reset, b3, m2.ends n3.moves, by rw [bind_error h3]⟩⟩
  have m3 : s.link.Moves l3 := m2.trans a3.moves
  rw [bind_ok h3]
  obtain ⟨l4, t4, ⟨m4, h4⟩ | ⟨c4, h4⟩⟩ := event_cases (.setBaud s.params.baudData)
    (Q := fun _ => True) trivial
    ((s.setBaudsel .reset).setLink l3)
  all_goals simp only [setLink_link, setLink_setLink] at *
  case inr => exact ⟨l4, .inr ⟨.reset, .reset, trivial, .inr ⟨rfl, m3.cut c4⟩, by rw [bind_error h4]⟩⟩
  have r4 : s.link.Resets s.params l4 := by
    refine ⟨m3.trans m4, ?_⟩
    obtain ⟨evs, he, -⟩ := m3.grows
    exact ⟨evs, by rw [t4, he, List.append_assoc]⟩
  rw [bind_ok h4, modify_bind]
  cases eo with
  | none => exact ⟨l4, .inl ⟨r4, .inr rfl⟩⟩
  | some e => exact ⟨l4, .inl ⟨r4, .inl ⟨present s.params e, rfl⟩⟩⟩

/-! ### The round trip -/

/-- The state after a round trip whose boundary ended at `l` with the response `resp` (R141 step 7). -/
def State.afterRoundTrip (s : State) (l : Link) (resp : List Byte) : State :=
  (s.openResponse.afterReset true l).commitResponse resp

/-- A round trip in which presence is seen and every slot answers (R141). -/
theorem execute_ok {s : State} (h : s.link.resetAfter = none) (cmd : Command) (payload : List Byte)
    (hp : payload.length = (s.params.desc cmd).tx) {e0 : Byte} {es : List Byte}
    (hpres : e0 ≠ s.params.resetTxByte)
    (hlen : es.length = (commandBytes s.params (s.params.desc cmd) payload).length)
    (he : s.link.Echoes (e0 :: es)) :
    execute cmd payload s =
      .ok (echoBytes s.params (s.params.desc cmd).rx
          (es.drop (8 * (writtenBytes (s.params.desc cmd) payload).length)))
        (s.afterRoundTrip
          (s.link.after (1 + es.length) (commandEvents s.params (s.params.desc cmd) payload e0 es))
          (echoBytes s.params (s.params.desc cmd).rx
            (es.drop (8 * (writtenBytes (s.params.desc cmd) payload).length)))) := by
  have hpr : present s.params e0 = true := by simp [present, hpres]
  simp only [execute, get_bind, modify_bind]
  rw [failIf_false (by simp [hp]),
    bind_ok (busReset_ok (s := s.openResponse) (by simpa using h) he.head.1 he.head.2),
    failIf_false (by simp [hpr])]
  have hs := slots_ok (s := s.openResponse.afterReset true
      (s.link.after 1 (resetEvents s.params e0))) (by simpa using h)
    (commandBytes s.params (s.params.desc cmd) payload) es hlen.symm
    (by simpa using he.tail (resetEvents s.params e0))
  simp only [openResponse_params, openResponse_link, hpr]
  rw [bind_ok (by rw [shuttle_run]; exact slotsThen_ok hs)]
  simp only [modify_bind, pure_run, State.afterRoundTrip, afterReset_params, openResponse_params,
    afterReset_link, afterReset_setLink, after_after, hlen, commandEvents]

/-- A payload of the wrong length: `CONTRACT`, before any event (R141 step 1). -/
theorem execute_mismatch (s : State) (cmd : Command) (payload : List Byte)
    (hp : payload.length ≠ (s.params.desc cmd).tx) :
    execute cmd payload s = .error (.fail .contract) s.openResponse := by
  simp only [execute, get_bind, modify_bind]
  rw [failIf_true hp]

/-- No presence pulse: `CONNECTIVITY`, nothing transmitted after the reset (R141 step 3). -/
theorem execute_absent {s : State} (h : s.link.resetAfter = none) (cmd : Command)
    (payload : List Byte) (hp : payload.length = (s.params.desc cmd).tx)
    (he : s.link.Echoes [s.params.resetTxByte]) :
    execute cmd payload s = .error (.fail .connectivity)
      (s.openResponse.afterReset false
        (s.link.after 1 (resetEvents s.params s.params.resetTxByte))) := by
  simp only [execute, get_bind, modify_bind]
  rw [failIf_false (by simp [hp]),
    bind_ok (busReset_ok (s := s.openResponse) (by simpa using h) he.head.1 he.head.2),
    failIf_true (by simp [present])]
  simp [present]

/-- A round trip whose reset does not end ends as its reset does (R141 step 2). -/
theorem execute_reset_stop {s : State} (cmd : Command) (payload : List Byte)
    (hp : payload.length = (s.params.desc cmd).tx) {x : Stop} {u : State}
    (hr : busReset s.openResponse = .error x u) : execute cmd payload s = .error x u := by
  simp only [execute, get_bind, modify_bind]
  rw [failIf_false (by simp [hp]), bind_error hr]

/-- A transfer failure in the reset of a round trip (R123, R141). -/
theorem execute_reset_fails {s : State} (h : s.link.resetAfter = none) (cmd : Command)
    (payload : List Byte) (hp : payload.length = (s.params.desc cmd).tx) {l : Link}
    (hf : (s.link.afterEvent (.setBaud s.params.baudReset)).ExchangeFails s.params.resetTxByte l) :
    execute cmd payload s = .error (.fail .transfer)
      (s.openResponse.afterReset false (l.afterEvent (.setBaud s.params.baudData))) :=
  execute_reset_stop cmd payload hp
    (busReset_fails (s := s.openResponse) (by simpa using h) (by simpa using hf))

/-- A call in the reset of a round trip that never returns (R226). -/
theorem execute_reset_hangs {s : State} (h : s.link.resetAfter = none) (cmd : Command)
    (payload : List Byte) (hp : payload.length = (s.params.desc cmd).tx) {l : Link}
    (hf : (s.link.afterEvent (.setBaud s.params.baudReset)).ExchangeHangs s.params.resetTxByte l) :
    execute cmd payload s = .error .noReturn ((s.openResponse.setBaudsel .reset).setLink l) :=
  execute_reset_stop cmd payload hp
    (busReset_hangs (s := s.openResponse) (by simpa using h) (by simpa using hf))

/-- A round trip one of whose slots ends with `x`: the slots before it are done, none after it (R141). -/
theorem execute_slot_stop {s : State} (h : s.link.resetAfter = none) (cmd : Command)
    (payload : List Byte) (hp : payload.length = (s.params.desc cmd).tx) {e0 : Byte}
    (hpres : e0 ≠ s.params.resetTxByte) {done rest : List Byte} {b : Byte} {es : List Byte} {l : Link}
    (hb : commandBytes s.params (s.params.desc cmd) payload = done ++ b :: rest)
    (hlen : done.length = es.length) (he : s.link.Echoes (e0 :: es)) {x : Stop}
    (hf : ∀ u : State, u.link = s.link.after (1 + es.length)
      (resetEvents s.params e0 ++ slotEvents done es) → slot b u = .error x (u.setLink l)) :
    execute cmd payload s = .error x (s.openResponse.afterReset true l) := by
  have hpr : present s.params e0 = true := by simp [present, hpres]
  simp only [execute, get_bind, modify_bind]
  rw [failIf_false (by simp [hp]),
    bind_ok (busReset_ok (s := s.openResponse) (by simpa using h) he.head.1 he.head.2),
    failIf_false (by simp [hpr])]
  simp only [openResponse_params, openResponse_link, hpr]
  have hs := slots_stop (s := s.openResponse.afterReset true
      (s.link.after 1 (resetEvents s.params e0))) (by simpa using h) done es rest b hlen
    (by simpa using he.tail (resetEvents s.params e0)) (l' := l) (x := x)
    (by rw [hf _ (by simp [hlen])]; rfl)
  rw [bind_error (by rw [shuttle_run]; exact slotsThen_error (by simpa [hb] using hs))]

/-- A transfer failure in a slot of a round trip (R141). -/
theorem execute_slot_fails {s : State} (h : s.link.resetAfter = none) (cmd : Command)
    (payload : List Byte) (hp : payload.length = (s.params.desc cmd).tx) {e0 : Byte}
    (hpres : e0 ≠ s.params.resetTxByte) {done rest : List Byte} {b : Byte} {es : List Byte} {l : Link}
    (hb : commandBytes s.params (s.params.desc cmd) payload = done ++ b :: rest)
    (hlen : done.length = es.length) (he : s.link.Echoes (e0 :: es))
    (hf : (s.link.after (1 + es.length) (resetEvents s.params e0 ++ slotEvents done es)).ExchangeFails
      b l) :
    execute cmd payload s = .error (.fail .transfer) (s.openResponse.afterReset true l) :=
  execute_slot_stop h cmd payload hp hpres hb hlen he fun u hu =>
    slot_fails (by rw [hu]; exact h) b (by rw [hu]; exact hf)

/-- A call in a slot of a round trip that never returns (R226). -/
theorem execute_slot_hangs {s : State} (h : s.link.resetAfter = none) (cmd : Command)
    (payload : List Byte) (hp : payload.length = (s.params.desc cmd).tx) {e0 : Byte}
    (hpres : e0 ≠ s.params.resetTxByte) {done rest : List Byte} {b : Byte} {es : List Byte} {l : Link}
    (hb : commandBytes s.params (s.params.desc cmd) payload = done ++ b :: rest)
    (hlen : done.length = es.length) (he : s.link.Echoes (e0 :: es))
    (hf : (s.link.after (1 + es.length) (resetEvents s.params e0 ++ slotEvents done es)).ExchangeHangs
      b l) :
    execute cmd payload s = .error .noReturn (s.openResponse.afterReset true l) :=
  execute_slot_stop h cmd payload hp hpres hb hlen he fun u hu =>
    slot_hangs (by rw [hu]; exact h) b (by rw [hu]; exact hf)

/-- Everything a round trip can do (R141): it fails with `CONTRACT` before any event; or after a reset at whose end
the boundary was at `l` it fails with `TRANSFER` or `CONNECTIVITY`, or goes on by slots to `l'` and commits a response
of the descriptor's length or fails with `TRANSFER`, at the data rate, on a failure with `RXLEN` 0 and `RXBUF` drawn
anew; or it is broken off. -/
theorem execute_cases (cmd : Command) (payload : List Byte) (s : State) :
    (payload.length ≠ (s.params.desc cmd).tx ∧
      execute cmd payload s = .error (.fail .contract) s.openResponse) ∨
    (∃ l, s.link.Resets s.params l ∧
      (execute cmd payload s = .error (.fail .connectivity) (s.openResponse.afterReset false l) ∨
       execute cmd payload s = .error (.fail .transfer) (s.openResponse.afterReset false l) ∨
       (∃ l', l.Advances Event.ofSlot l' ∧
         ((∃ resp, resp.length = (s.params.desc cmd).rx ∧
            execute cmd payload s = .ok resp (s.afterRoundTrip l' resp)) ∨
          execute cmd payload s = .error (.fail .transfer) (s.openResponse.afterReset true l'))))) ∨
    (∃ e b p l, e.broken ∧ s.link.MovesBy e l ∧
      execute cmd payload s = .error e (((s.openResponse.setBaudsel b).setConnected p).setLink l)) := by
  by_cases hp : payload.length ≠ (s.params.desc cmd).tx
  · exact .inl ⟨hp, execute_mismatch s cmd payload hp⟩
  refine .inr ?_
  simp only [execute, get_bind, modify_bind]
  rw [failIf_false hp]
  obtain ⟨l, ⟨r, ⟨p, h1⟩ | h1⟩ | ⟨e, b, hb, m, h1⟩⟩ := busReset_cases s.openResponse
  · rw [bind_ok h1]
    cases p with
    | false => exact .inl ⟨l, r, .inl (by rw [failIf_true rfl])⟩
    | true =>
      rw [failIf_false (by simp)]
      obtain ⟨l', ⟨a, es, h2⟩ | ⟨e, hb, m, h2⟩⟩ := slots_onlySlots
        (commandBytes s.params (s.params.desc cmd) payload) (s.openResponse.afterReset true l)
      · refine .inl ⟨l, r, .inr (.inr ⟨l', a, .inl ⟨echoBytes s.params (s.params.desc cmd).rx
          (es.drop (8 * (writtenBytes (s.params.desc cmd) payload).length)), by simp, ?_⟩⟩)⟩
        rw [bind_ok (by rw [shuttle_run]; exact slotsThen_ok h2)]
        rfl
      · rw [bind_error (by rw [shuttle_run]; exact slotsThen_error h2)]
        cases e with
        | fail c =>
          obtain rfl : c = .transfer := hb
          rcases m with ⟨-, a⟩ | ⟨h, -⟩
          · exact .inl ⟨l, r, .inr (.inr ⟨l', a, .inr rfl⟩)⟩
          · cases h
        | polling n => exact hb.elim
        | noReturn => exact .inr ⟨.noReturn, .data, true, l', trivial, r.moves.ends m.moves, rfl⟩
        | reset => exact .inr ⟨.reset, .data, true, l', trivial, r.moves.ends m.moves, rfl⟩
  · exact .inl ⟨l, r, .inr (.inl (by rw [bind_error h1]))⟩
  · exact .inr ⟨e, b, s.connected, l, hb, m, by rw [bind_error h1]; rfl⟩

/-! ### Decode -/

theorem decodeScratch_ok {s : State} (hl : s.params.scratchMinLen ≤ s.rxlen) {lsb msb th tl cfg : Byte}
    {rest : List Byte} (hb : s.rxbuf = lsb :: msb :: th :: tl :: cfg :: rest) {r : Resolution}
    (hr : s.params.resLookup cfg = some r) :
    decodeScratch s =
      .ok () (s.setSensor (decodeTemp s.params r (rawTemp lsb msb)) th tl cfg) := by
  simp only [decodeScratch, get_bind]
  rw [failIf_false (by omega)]
  simp only [hb, hr]
  rfl

theorem decodeScratch_short {s : State} (hl : s.rxlen < s.params.scratchMinLen) :
    decodeScratch s = .error (.fail .decode) s := by
  simp only [decodeScratch, get_bind]
  rw [failIf_true hl]

theorem decodeScratch_unknown {s : State} (hl : s.params.scratchMinLen ≤ s.rxlen)
    {lsb msb th tl cfg : Byte} {rest : List Byte}
    (hb : s.rxbuf = lsb :: msb :: th :: tl :: cfg :: rest)
    (hr : s.params.resLookup cfg = none) :
    decodeScratch s = .error (.fail .decode) s := by
  simp only [decodeScratch, get_bind]
  rw [failIf_false (by omega)]
  simp only [hb, hr]
  rfl

/-- Everything a decode can do: the four registers together, or `DECODE` and nothing changed (R161, R168). -/
theorem decodeScratch_cases (s : State) :
    (∃ lsb msb th tl cfg rest r, s.rxbuf = lsb :: msb :: th :: tl :: cfg :: rest ∧
      s.params.resLookup cfg = some r ∧ decodeScratch s =
        .ok () (s.setSensor (decodeTemp s.params r (rawTemp lsb msb)) th tl cfg)) ∨
    decodeScratch s = .error (.fail .decode) s := by
  by_cases hl : s.rxlen < s.params.scratchMinLen
  · exact .inr (decodeScratch_short hl)
  rcases hb : s.rxbuf with _ | ⟨lsb, _ | ⟨msb, _ | ⟨th, _ | ⟨tl, _ | ⟨cfg, rest⟩⟩⟩⟩⟩
  case cons.cons.cons.cons.cons =>
    cases hr : s.params.resLookup cfg with
    | none => exact .inr (decodeScratch_unknown (by omega) hb hr)
    | some r =>
      exact .inl ⟨lsb, msb, th, tl, cfg, rest, r, rfl, hr, decodeScratch_ok (by omega) hb hr⟩
  all_goals
    refine .inr ?_
    simp only [decodeScratch, get_bind]
    rw [failIf_false (by omega)]
    simp only [hb]
    rfl

/-! ### Waits -/

theorem readBit_ok {s : State} (h : s.link.resetAfter = none) {e : Byte} (he : s.link.Echoes [e]) :
    readBit s = .ok (readBitOf s.params e)
      (s.setLink (s.link.after 1 (exchangeEvents s.params.readTxByte e))) := by
  simp only [readBit, get_bind]
  rw [bind_ok (slot_ok h _ he.head.1 he.head.2)]
  rfl

/-- A poll that reads 1 ends the wait (R182). -/
theorem pollOnce_one {s : State} (h : s.link.resetAfter = none) (n : Nat)
    (he : s.link.Echoes [s.params.readTxByte]) :
    pollOnce n s = .ok ()
      (s.setLink (s.link.after 1 (exchangeEvents s.params.readTxByte s.params.readTxByte))) := by
  simp only [pollOnce, get_bind]
  rw [bind_ok (readBit_ok h he)]
  simp [readBitOf]

/-- A poll that reads 0 goes on, or ends with `TIMEOUT` at the limit (R182, R186). -/
theorem pollOnce_zero {s : State} (h : s.link.resetAfter = none) (n : Nat) {e : Byte}
    (hne : e ≠ s.params.readTxByte) (he : s.link.Echoes [e]) :
    pollOnce n s = .error (if s.params.pollLimit = some (n + 1) then .fail .timeout else .polling (n + 1))
      (s.setLink (s.link.after 1 (exchangeEvents s.params.readTxByte e))) := by
  simp only [pollOnce, get_bind]
  rw [bind_ok (readBit_ok h he)]
  simp only [readBitOf, hne, decide_false, Bool.false_eq_true, if_false]
  split <;> rfl

theorem readBit_onlySlots : OnlySlots Stop.onBus readBit := by
  unfold readBit
  exact .get fun _ => .bind (slot_onlySlots _) fun _ => .pure _

/-- Everything a poll can do (R182). -/
theorem pollOnce_cases (n : Nat) (s : State) :
    ∃ l, (s.link.Advances Event.ofSlot l ∧
      (pollOnce n s = .ok () (s.setLink l) ∨
       (s.params.pollLimit = some (n + 1) ∧ pollOnce n s = .error (.fail .timeout) (s.setLink l)) ∨
       (s.params.pollLimit ≠ some (n + 1) ∧ pollOnce n s = .error (.polling (n + 1)) (s.setLink l)))) ∨
      (∃ e, e.onBus ∧ s.link.EndsBy Event.ofSlot e l ∧ pollOnce n s = .error e (s.setLink l)) := by
  simp only [pollOnce, get_bind]
  obtain ⟨l, ⟨a, b, h⟩ | ⟨e, hb, m, h⟩⟩ := readBit_onlySlots s
  · refine ⟨l, .inl ⟨a, ?_⟩⟩
    rw [bind_ok h]
    cases b with
    | true => exact .inl rfl
    | false =>
      by_cases hl : s.params.pollLimit = some (n + 1)
      · exact .inr (.inl ⟨hl, by simp [hl]⟩)
      · exact .inr (.inr ⟨hl, by simp [hl]⟩)
  · exact ⟨l, .inr ⟨e, hb, m, by rw [bind_error h]⟩⟩

theorem waitDelay_ok {s : State} (h : s.link.resetAfter = none) {r : Resolution}
    (hr : s.params.resLookup s.cfg = some r) :
    waitDelay s = .ok () (s.setLink (s.link.afterEvent (.sleep (s.params.row r).delayMs))) := by
  simp only [waitDelay, get_bind, hr, sleep]
  exact event_run h _

theorem waitDelay_unknown {s : State} (hr : s.params.resLookup s.cfg = none) :
    waitDelay s = .error (.fail .resolution) s := by
  simp only [waitDelay, get_bind, hr]
  rfl

/-- Everything the delay wait can do (R183). -/
theorem waitDelay_cases (s : State) :
    waitDelay s = .error (.fail .resolution) s ∨
    ∃ l r, l.trace = s.link.trace ++ [.sleep (s.params.row r).delayMs] ∧
      ((s.link.Moves l ∧ waitDelay s = .ok () (s.setLink l)) ∨
       (s.link.IsCut (fun _ => True) l ∧ waitDelay s = .error .reset (s.setLink l))) := by
  cases hr : s.params.resLookup s.cfg with
  | none => exact .inl (waitDelay_unknown hr)
  | some r =>
    refine .inr ?_
    obtain ⟨l, t, h⟩ := event_cases (.sleep (s.params.row r).delayMs) (Q := fun _ => True) trivial s
    refine ⟨l, r, t, ?_⟩
    simp only [waitDelay, get_bind, hr, sleep]
    exact h

/-! ### The end of an operation -/

theorem perform_eq {s : State} (h : s.params.wf = true) (p : Proc Unit) :
    perform p s = .next (settle (p s)) := by simp [perform, h]

theorem perform_next {s t : State} {p : Proc Unit} (h : perform p s = .next t) : t = settle (p s) := by
  unfold perform at h
  split at h
  · injection h with h
    exact h.symm
  · cases h

@[simp] theorem settle_ok (a : α) (s : State) :
    settle (.ok a s : EStateM.Result Stop State α) = s.complete statusSuccess := rfl
@[simp] theorem settle_fail (c : Cause) (s : State) :
    settle (.error (.fail c) s : EStateM.Result Stop State α) = s.complete (statusFailure c) := rfl
@[simp] theorem settle_polling (n : Nat) (s : State) :
    settle (.error (.polling n) s : EStateM.Result Stop State α) = s.suspend (.polling n) := rfl
@[simp] theorem settle_noReturn (s : State) :
    settle (.error .noReturn s : EStateM.Result Stop State α) = s.suspend .calling := rfl
@[simp] theorem settle_reset (s : State) :
    settle (.error .reset s : EStateM.Result Stop State α) = s.hardReset := rfl

end Sys2Proof.Machine
end

