-- ==== Sys2Proof/Laws/Values.lean ====
section
/-! SUPPORT. What the values are: the parts of a well-formed record (00_scope.md R9), the resolution lookup (R101), the
raw temperature and its range (42_codec.md R161, R167), and the lengths and bytes of a round trip. -/

namespace Sys2Proof.Machine

/-! ### A well-formed record -/

theorem wf_minLen {c : Cfg} (h : c.wf = true) : c.scratchMinLen = 5 := by
  simp only [Cfg.wf, decide_eq_true_eq] at h
  exact h.2.2.2.2.1.1

/-- The serial number fits the ROM response (R9 (d)). -/
theorem wf_serial {c : Cfg} (h : c.wf = true) : c.snLen = 6 ∧ c.snOffset + 6 ≤ c.romRxLen := by
  simp only [Cfg.wf, decide_eq_true_eq] at h
  obtain ⟨_, _, _, _, ⟨_, h1, h2, _⟩, _⟩ := h
  exact ⟨h1, by omega⟩

/-- The payload of Write-Scratchpad is three bytes (R9 (f)). -/
theorem wf_wscratch {c : Cfg} (h : c.wf = true) : c.wscratchTxLen = 3 := by
  simp only [Cfg.wf, decide_eq_true_eq] at h
  exact h.2.2.2.2.1.2.2.2.2.2.1

/-- Every response fits `RXBUF` (R9 (e)). -/
theorem wf_rx_le {c : Cfg} (h : c.wf = true) (cmd : Command) : (c.desc cmd).rx ≤ c.rxbufLen := by
  simp only [Cfg.wf, decide_eq_true_eq] at h
  obtain ⟨_, _, _, _, ⟨_, _, _, h1, h2, _⟩, _⟩ := h
  cases cmd <;> simp [Cfg.desc, h1, h2]

/-- The data masks share no bit with the sign mask (R9 (g)). -/
theorem wf_dataMask {c : Cfg} (h : c.wf = true) (r : Resolution) :
    (c.row r).dataMask &&& c.signMask = 0 := by
  simp only [Cfg.wf, decide_eq_true_eq] at h
  obtain ⟨_, _, _, _, _, h9, h10, h11, h12⟩ := h
  cases r
  · exact h9.1
  · exact h10.1
  · exact h11.1
  · exact h12.1

/-- A write-1 slot and a write-0 slot send different bytes (R9 (b)). -/
theorem wf_slotBytes {c : Cfg} (h : c.wf = true) : c.w0Byte ≠ c.w1Byte := by
  simp only [Cfg.wf, decide_eq_true_eq] at h
  exact h.2.2.1

/-! ### The resolution lookup -/

/-- The lookup finds the resolution whose pattern the byte is (R101, R9 (c)). -/
theorem resLookup_eq_some {c : Cfg} (h : c.wf = true) (b : Byte) (r : Resolution) :
    c.resLookup b = some r ↔ b = (c.row r).cfgPat := by
  simp only [Cfg.wf, decide_eq_true_eq] at h
  obtain ⟨_, _, _, ⟨h1, h2, h3, h4, h5, h6⟩, _⟩ := h
  unfold Cfg.resLookup
  constructor
  · intro h
    cases r <;> simp only [Cfg.row] <;> split_ifs at h <;> simp_all
  · rintro rfl
    cases r <;> simp [Cfg.row, *, Ne.symm]

theorem resLookup_eq_none (c : Cfg) (b : Byte) :
    c.resLookup b = none ↔ ∀ r, b ≠ (c.row r).cfgPat := by
  unfold Cfg.resLookup
  constructor
  · intro h r
    cases r <;> simp only [Cfg.row] <;> split_ifs at h <;> simp_all
  · intro h
    have h9 := h .r9
    have h10 := h .r10
    have h11 := h .r11
    have h12 := h .r12
    simp only [Cfg.row] at *
    simp [*]

theorem resLookup_sound {c : Cfg} {b : Byte} {r : Resolution} (h : c.resLookup b = some r) :
    b = (c.row r).cfgPat := by
  unfold Cfg.resLookup at h
  cases r <;> simp only [Cfg.row] <;> split_ifs at h <;> simp_all

/-! ### The temperature -/

/-- The raw value is the two bytes side by side (R53). -/
theorem rawTemp_eq_append (lsb msb : Byte) : rawTemp lsb msb = msb ++ lsb := by
  apply BitVec.eq_of_getLsbD_eq
  intro i hi
  have : BitVec.getLsbD (w := 16) (msb ++ lsb) i = BitVec.getLsbD (w := 8 + 8) (msb ++ lsb) i := rfl
  rw [this, BitVec.getLsbD_append]
  simp only [rawTemp, BitVec.getLsbD_or, BitVec.getLsbD_shiftLeft, BitVec.getLsbD_setWidth]
  by_cases h : i < 8
  · simp [h, hi]
  · have h16 : i - 8 < 16 := by omega
    have hl : lsb.getLsbD i = false := BitVec.getLsbD_of_ge _ _ (by omega)
    simp [h, hi, h16, hl]

theorem append_sign (lsb msb : Byte) : (msb ++ lsb : Half).getLsbD 15 = msb.getLsbD 7 := by
  have : BitVec.getLsbD (w := 16) (msb ++ lsb) 15 = BitVec.getLsbD (w := 8 + 8) (msb ++ lsb) 15 := rfl
  rw [this, BitVec.getLsbD_append]
  simp

/-- Mask, then sign by bit 7 of the high byte (R161 steps 4 to 6). -/
theorem decodeTemp_rawTemp (c : Cfg) (r : Resolution) (lsb msb : Byte) :
    decodeTemp c r (rawTemp lsb msb) =
      if msb.getLsbD 7 then ((msb ++ lsb) &&& (c.row r).dataMask) ||| c.signMask
      else (msb ++ lsb) &&& (c.row r).dataMask := by
  rw [rawTemp_eq_append]
  simp only [decodeTemp, append_sign]

/-- A value within a data mask that shares no bit with the sign mask, with or without the sign bits, is between
-2048 and 2047 (R167). -/
theorem masked_range (x m : Half) (hm : m &&& 0xF800#16 = 0) :
    (-2048 ≤ (x &&& m).toInt ∧ (x &&& m).toInt ≤ 2047) ∧
    (-2048 ≤ (x &&& m ||| 0xF800#16).toInt ∧ (x &&& m ||| 0xF800#16).toInt ≤ 2047) := by
  have h : ∀ i, 11 ≤ i → (x &&& m).getLsbD i = false := by
    intro i hi
    by_cases h16 : i < 16
    · have := congrArg (·.getLsbD i) hm
      simp only [BitVec.getLsbD_and] at this
      have h1 : (0xF800#16).getLsbD i = true := by
        have : i = 11 ∨ i = 12 ∨ i = 13 ∨ i = 14 ∨ i = 15 := by omega
        rcases this with rfl | rfl | rfl | rfl | rfl <;> decide
      rw [h1] at this
      simp at this
      simp [this]
    · exact BitVec.getLsbD_of_ge _ _ (by omega)
  have hlt : (x &&& m).toNat < 2 ^ 11 := by
    apply Nat.lt_pow_two_of_testBit
    intro i hi
    exact h i hi
  generalize x &&& m = y at *
  have e : y ||| 0xF800#16 = BitVec.ofNat 16 (y.toNat + 0xF800) := by
    apply BitVec.eq_of_toNat_eq
    rw [BitVec.toNat_or, BitVec.toNat_ofNat, Nat.mod_eq_of_lt (by omega)]
    have := Nat.two_pow_add_eq_or_of_lt (i := 11) (b := y.toNat) hlt 31
    rw [Nat.or_comm]
    simp at *
    omega
  rw [e]
  simp only [BitVec.toInt_eq_toNat_cond, BitVec.toNat_ofNat]
  omega

theorem decodeTemp_range {c : Cfg} (h : c.wf = true) (hs : c.signMask = 0xF800#16) (r : Resolution)
    (raw : Half) : -2048 ≤ (decodeTemp c r raw).toInt ∧ (decodeTemp c r raw).toInt ≤ 2047 := by
  have := masked_range raw _ (hs ▸ wf_dataMask h r)
  simp only [decodeTemp, hs]
  split
  · exact this.2
  · exact this.1

/-- A decoded value has no bit outside its resolution's data mask and the sign mask (R161, R25). -/
theorem decodeTemp_masked (c : Cfg) (r : Resolution) (raw : Half) :
    decodeTemp c r raw &&& ~~~((c.row r).dataMask ||| c.signMask) = 0 := by
  simp only [decodeTemp]
  split <;>
  · apply BitVec.eq_of_getLsbD_eq
    intro i hi
    simp only [BitVec.getLsbD_and, BitVec.getLsbD_or, BitVec.getLsbD_not, hi,
      decide_true, Bool.true_and]
    cases (c.row r).dataMask.getLsbD i <;> cases c.signMask.getLsbD i <;> simp

/-! ### The round trip -/

/-- The bytes committed by a round trip are the ones its read echoes make (R141, R52). -/
theorem responseIs_echoBytes (c : Cfg) (d : Descriptor) (payload es tail : List Byte) :
    ResponseIs c d payload es
      (echoBytes c d.rx (es.drop (8 * (writtenBytes d payload).length)) ++ tail) := by
  intro k hk
  refine ⟨_, by
    rw [List.getElem?_append_left (by simpa using hk)]
    exact echoBytes_getElem? _ _ _ _ hk, ?_⟩
  rw [List.drop_drop]
  exact readsAs_echoByte _ _

theorem slotEvents_length (bs es : List Byte) (h : bs.length = es.length) :
    (slotEvents bs es).length = 2 * es.length := by
  induction bs generalizing es with
  | nil =>
    obtain rfl : es = [] := by simpa using h.symm
    rfl
  | cons b bs ih =>
    cases es with
    | nil => simp at h
    | cons e es =>
      simp [slotEvents_cons, exchangeEvents, ih es (by simpa using h)]
      omega

theorem exec_requestOf (cmd : Command) (payload : List Byte) (s : State) :
    exec (requestOf cmd payload) s = perform (do let _ ← execute cmd payload) s := by
  cases cmd <;> rfl

/-- An element of a list splits it. -/
theorem split_at_getElem? {α : Type} {l : List α} {n : Nat} {b : α} (h : l[n]? = some b) :
    l = l.take n ++ b :: l.drop (n + 1) ∧ (l.take n).length = n := by
  rw [List.getElem?_eq_some_iff] at h
  obtain ⟨h, rfl⟩ := h
  simp
  omega

end Sys2Proof.Machine
end

