-- ==== Sys2Proof/Laws/Steps.lean ====
section
/-! SUPPORT. Steps of the block: many steps one after the other, the step of a wait that polls, and a run of polls that
read 0 (43_waiter.md R182, R186, R187). -/

namespace Sys2Proof.Machine

@[simp] theorem steps_zero (t : State) : steps 0 t = .next t := rfl

theorem steps_succ {t u : State} (n : Nat) (h : step t = .next u) : steps (n + 1) t = steps n u := by
  simp only [steps, h]

theorem steps_add {t u : State} {m : Nat} (n : Nat) (h : steps m t = .next u) :
    steps (m + n) t = steps n u := by
  induction m generalizing t with
  | zero =>
    rw [steps_zero] at h
    injection h with h
    simp [h]
  | succ m ih =>
    rw [Nat.add_right_comm]
    simp only [steps] at h ⊢
    split at h
    · rename_i s' hs'
      exact ih h
    · cases h
    · cases h

theorem slotEvents_replicate_succ (b e : Byte) (n : Nat) (es : List Byte) :
    slotEvents (List.replicate (n + 1) b) (e :: es) =
      exchangeEvents b e ++ slotEvents (List.replicate n b) es := by
  rw [List.replicate_succ, slotEvents_cons]

theorem slotEvents_snoc (bs es : List Byte) (b e : Byte) (h : bs.length = es.length) :
    slotEvents (bs ++ [b]) (es ++ [e]) = slotEvents bs es ++ exchangeEvents b e := by
  rw [slotEvents_append _ _ h]
  simp [slotEvents]

/-- A poll whose exchange fails (R182). -/
theorem pollOnce_fails {s : State} (h : s.link.resetAfter = none) (n : Nat) {l : Link}
    (hf : s.link.ExchangeFails s.params.readTxByte l) :
    pollOnce n s = .error (.fail .transfer) (s.setLink l) := by
  simp only [pollOnce, readBit, get_bind]
  rw [bind_error (by rw [get_bind, bind_error (slot_fails h _ hf)])]

/-- A poll inside which a call never returns (R226). -/
theorem pollOnce_hangs {s : State} (h : s.link.resetAfter = none) (n : Nat) {l : Link}
    (hf : s.link.ExchangeHangs s.params.readTxByte l) :
    pollOnce n s = .error .noReturn (s.setLink l) := by
  simp only [pollOnce, readBit, get_bind]
  rw [bind_error (by rw [get_bind, bind_error (slot_hangs h _ hf)])]

/-- A poll inside which a reset is due ends there (R242). -/
theorem pollOnce_cut {s : State} {k : Nat} (h : s.link.resetAfter = some k)
    (hk : k = 0 ∨ (k = 1 ∧ s.link.txAt 0 = .ok)) (n : Nat) :
    ∃ u, pollOnce n s = .error .reset u := by
  obtain ⟨u, hu⟩ := slot_cut h hk s.params.readTxByte
  simp only [pollOnce, readBit, get_bind]
  exact ⟨u, bind_error (by rw [get_bind, bind_error hu])⟩

/-- A poll with fewer events than a reset is due after does not end by the reset. -/
theorem pollOnce_due {s : State} {k : Nat} (h : s.link.resetAfter = some k)
    (hk : ¬(k = 0 ∨ (k = 1 ∧ s.link.txAt 0 = .ok))) (n : Nat) (u : State) :
    pollOnce n s ≠ .error .reset u := by
  intro hp
  simp only [pollOnce, readBit, get_bind] at hp
  cases hs : slot s.params.readTxByte s with
  | ok e v =>
    rw [bind_ok (by rw [get_bind, bind_ok hs]; rfl)] at hp
    split at hp
    · cases hp
    · split at hp <;> cases hp
  | error e v =>
    rw [bind_error (by rw [get_bind, bind_error hs])] at hp
    cases hp
    exact slot_due h hk _ _ hs

/-- The boundary after one poll that received `e`. -/
abbrev State.polled (s : State) (e : Byte) : State :=
  s.setLink (s.link.after 1 (exchangeEvents s.params.readTxByte e))

/-- A poll that reads 0 below the limit (R182). -/
theorem settle_pollOnce_zero {s : State} (h : s.link.resetAfter = none) (n : Nat)
    (hl : s.params.pollLimit ≠ some (n + 1)) {z : Byte} (hz : z ≠ s.params.readTxByte)
    (he : s.link.Echoes [z]) :
    settle (pollOnce n s) = (s.polled z).suspend (.polling (n + 1)) := by
  rw [pollOnce_zero h n hz he, if_neg hl]
  rfl

/-- The step of a wait that polls, when the host does nothing. -/
theorem step_polling {s : State} (hs : s.Ready) (hh : s.host = []) (n : Nat) :
    step (s.suspend (.polling n)) = .next (settle (pollOnce n (s.suspend (.polling n)))) := by
  simp [step, hs.1, hostStep, hh, advance, perform]

/-- The step of a wait that polls, whatever the host does short of a reset: only the host's list can change beside what
the poll does (D29). -/
theorem step_polling_any {s : State} (hs : s.Ready) (hn : s.NoReset) (n : Nat) :
    ∃ h, (∀ e ∈ h, e ∈ s.host) ∧
      step (s.suspend (.polling n)) =
        .next (settle (pollOnce n ((s.setHost h).suspend (.polling n)))) := by
  have same : ∀ h, s.host = h → s.setHost h = s := by
    intro h hh
    subst hh
    rfl
  rcases hh : s.host with _ | ⟨e, rest⟩
  · exact ⟨[], by simp, by rw [same _ hh, step_polling hs hh]⟩
  · have hne := hn.2 e (by simp [hh])
    cases e with
    | request w =>
      refine ⟨.request w :: rest, by simp, ?_⟩
      rw [same _ hh]
      simp [step, hs.1, hostStep, hh, advance, perform]
    | write w =>
      refine ⟨rest, by simp +contextual, ?_⟩
      simp [step, hs.1, hostStep, hh, advance, perform]
      rfl
    | pause =>
      refine ⟨rest, by simp +contextual, ?_⟩
      simp [step, hs.1, hostStep, hh, advance, perform]
      rfl
    | reset => exact absurd rfl hne.1
    | resetAfter k => exact absurd rfl (hne.2 k)

/-- A run of polls that read 0, below the limit if there is one, whatever the host does short of a reset (R182,
R187). -/
theorem steps_polling_any (zs : List Byte) {s : State} (k : Nat) (hs : s.Ready) (hn : s.NoReset)
    (hz : ∀ z ∈ zs, z ≠ s.params.readTxByte)
    (hl : ∀ limit, s.params.pollLimit = some limit → k + zs.length < limit)
    (he : s.link.Echoes zs) :
    ∃ h, (∀ e ∈ h, e ∈ s.host) ∧ steps zs.length (s.suspend (.polling k)) =
      .next (((s.setHost h).setLink (s.link.after zs.length
        (slotEvents (List.replicate zs.length s.params.readTxByte) zs))).suspend
        (.polling (k + zs.length))) := by
  induction zs generalizing s k with
  | nil => exact ⟨s.host, by simp, by simp [slotEvents]; rfl⟩
  | cons z zs ih =>
    obtain ⟨h1, hsub, hstep⟩ := step_polling_any hs hn k
    have e1 : step (s.suspend (.polling k)) =
        .next (((s.setHost h1).polled z).suspend (.polling (k + 1))) := by
      rw [hstep, settle_pollOnce_zero (s := (s.setHost h1).suspend _) hs.2 _
        (by intro h; have := hl _ h; simp at this)
        (hz z (by simp)) (by simpa using Link.Echoes.left (a := [z]) (b := zs) he)]
      rfl
    obtain ⟨h2, hsub2, e2⟩ := ih (s := (s.setHost h1).polled z) (k + 1) ⟨hs.1, hs.2⟩
      ⟨hn.1, fun e he => hn.2 e (hsub e he)⟩ (fun y hy => hz y (by simp [hy]))
      (fun limit h => by have := hl limit h; simp at this; omega) (he.tail _)
    refine ⟨h2, fun e he => hsub e (hsub2 e he), ?_⟩
    rw [List.length_cons, steps_succ _ e1, e2, slotEvents_replicate_succ, Nat.add_right_comm k,
      Nat.add_assoc k]
    simp [Nat.add_comm 1]
    rfl

/-- A run of polls that read 0 and then one more poll, whatever the host does short of a reset. -/
theorem steps_polling_last (zs : List Byte) {s : State} (k : Nat) (hs : s.Ready) (hn : s.NoReset)
    (hz : ∀ z ∈ zs, z ≠ s.params.readTxByte)
    (hl : ∀ limit, s.params.pollLimit = some limit → k + zs.length < limit)
    (he : s.link.Echoes zs) :
    ∃ h, steps (zs.length + 1) (s.suspend (.polling k)) =
      .next (settle (pollOnce (k + zs.length) (((s.setHost h).setLink (s.link.after zs.length
        (slotEvents (List.replicate zs.length s.params.readTxByte) zs))).suspend
        (.polling (k + zs.length))))) := by
  obtain ⟨h1, hsub, hrun⟩ := steps_polling_any zs k hs hn hz hl he
  obtain ⟨h2, -, hlast⟩ := step_polling_any
    (s := (s.setHost h1).setLink (s.link.after zs.length
      (slotEvents (List.replicate zs.length s.params.readTxByte) zs)))
    ⟨hs.1, hs.2⟩ ⟨hn.1, fun e he => hn.2 e (hsub e he)⟩ (k + zs.length)
  exact ⟨h2, by rw [steps_add 1 hrun, steps_succ 0 hlast, steps_zero]; rfl⟩

/-- Taking the host's action changes its list and, at most, whether a reset is due (D29). -/
theorem whileBusy_same (s : State) : s.whileBusy = { s with
    host := s.whileBusy.host, link := { s.link with resetAfter := s.whileBusy.link.resetAfter } } := by
  unfold State.whileBusy
  split <;> rfl

/-- Short of a reset, taking the host's action changes its list only (D29). -/
theorem whileBusy_noReset {s : State} (hn : s.NoReset) :
    s.whileBusy = s.setHost s.whileBusy.host ∧ s.whileBusy.NoReset := by
  have tail : ∀ {e rest}, s.host = e :: rest → (s.setHost rest).NoReset :=
    fun h => ⟨hn.1, fun x hx => hn.2 x (by rw [h]; exact List.mem_cons_of_mem _ hx)⟩
  unfold State.whileBusy
  split
  case h_1 => exact ⟨rfl, hn⟩
  case h_2 => exact ⟨rfl, hn⟩
  case h_3 h => exact ⟨rfl, tail h⟩
  case h_4 h => exact ⟨rfl, tail h⟩
  case h_5 h => exact ⟨rfl, tail h⟩
  case h_6 k rest h => exact absurd rfl ((hn.2 (.resetAfter k) (by simp [h])).2 k)

/-- The step of a block that polls, in any state: the host's action of the step is taken, then one poll (R182, D29). -/
theorem step_of_polling {s : State} (hw : s.params.wf = true) (hb : s.busy = true) {n : Nat}
    (hq : s.seq = .polling n) (hh : ∀ rest, s.host ≠ .reset :: rest) :
    step s = .next (settle (pollOnce n s.whileBusy)) := by
  rcases h : s.host with _ | ⟨e, rest⟩
  · simp [step, hw, hostStep, h, advance, hb, hq, perform, State.whileBusy]
  · cases e with
    | reset => exact absurd h (hh rest)
    | _ =>
      simp [step, hw, hostStep, h, advance, hb, hq, perform, State.whileBusy, State.setHost, State.setLink]

/-- The step of a block inside a call that does not return: only the host's list, or a reset that becomes due, can
change (R226). -/
theorem step_of_calling {s : State} (hw : s.params.wf = true) (hb : s.busy = true)
    (hq : s.seq = .calling) (hh : ∀ rest, s.host ≠ .reset :: rest) : step s = .next s.whileBusy := by
  rcases h : s.host with _ | ⟨e, rest⟩
  · simp [step, hw, hostStep, h, advance, hb, hq, State.whileBusy]
  · cases e with
    | reset => exact absurd h (hh rest)
    | _ =>
      simp [step, hw, hostStep, h, advance, hb, hq, State.whileBusy, State.setHost, State.setLink]

end Sys2Proof.Machine
end

