-- ==== Sys2Proof/Laws/Session.lean ====
section
/-! SUPPORT. The pieces of the session's requests: the end of an operation, the clean-up of `S.INITIALIZE`, the serial
number, and two round trips one after the other (44_session.md R191 to R195). -/

namespace Sys2Proof.Machine

/-! ### The end of an operation -/

theorem perform_ok {s s' : State} (hwf : s.params.wf = true) {p : Proc Unit} (h : p s = .ok () s') :
    perform p s = .next (s'.complete statusSuccess) := by
  rw [perform_eq hwf, h]
  rfl

theorem perform_fail {s s' : State} (hwf : s.params.wf = true) {p : Proc Unit} {c : Cause}
    (h : p s = .error (.fail c) s') : perform p s = .next (s'.complete (statusFailure c)) := by
  rw [perform_eq hwf, h]
  rfl

/-! ### Clean-up -/

theorem clearInitialized_ok {p : Proc Unit} {s s' : State} (h : p s = .ok () s') :
    clearInitializedOnFail p s = .ok () s' := by simp [clearInitializedOnFail, h]

theorem clearInitialized_fail {p : Proc Unit} {s s' : State} {c : Cause}
    (h : p s = .error (.fail c) s') :
    clearInitializedOnFail p s = .error (.fail c) (s'.setInitialized false) := by
  simp [clearInitializedOnFail, h]

/-! ### Round trips of the session -/

/-- The number of slots of each round trip with the payload its descriptor asks for (R57). -/
theorem commandBytes_desc_length (c : Cfg) (cmd : Command) (payload : List Byte)
    (hp : payload.length = (c.desc cmd).tx) :
    (commandBytes c (c.desc cmd) payload).length =
      8 * ((c.desc cmd).op.toList.length + (c.desc cmd).tx + (c.desc cmd).rx) := by
  rw [commandBytes_length]
  simp only [writtenBytes, List.length_append, hp]
  omega

/-- The Read-ROM round trip and the copy into `SN` (R195). -/
theorem readSerial_ok {s : State} (h : s.link.resetAfter = none) {e0 : Byte} {es : List Byte}
    (hp : e0 ≠ s.params.resetTxByte) (hl : es.length = 8 * (1 + s.params.romRxLen))
    (he : s.link.Echoes (e0 :: es)) :
    readSerial s = .ok ()
      ((s.afterRoundTrip
        (s.link.after (1 + es.length) (commandEvents s.params (s.params.desc .readRom) [] e0 es))
        (echoBytes s.params s.params.romRxLen (es.drop 8))).setSn
        (serialOf s.params (echoBytes s.params s.params.romRxLen (es.drop 8)))) := by
  simp only [readSerial]
  rw [bind_ok (execute_ok h .readRom [] rfl hp
    (by rw [commandBytes_desc_length _ _ _ rfl]; simpa [Cfg.desc] using hl) he)]
  rfl

/-- Where the Read-ROM of the session does not end with its copy, it failed or was broken off, with `STATUS` as it was. -/
theorem readSerial_error {s u : State} {e : Stop} (h : readSerial s = .error e u) :
    (∃ c, e = .fail c) ∨ (e.broken ∧ s.link.MovesBy e u.link ∧ u.status = s.status) := by
  unfold readSerial at h
  obtain ⟨-, hp⟩ | ⟨l, -, hp | hp | ⟨l', -, ⟨resp, -, hp⟩ | hp⟩⟩ | ⟨e', b, p, l, he, hm, hp⟩ :=
    execute_cases .readRom [] s
  case inr.inl.inr.inr.inl => rw [bind_ok hp] at h; cases h
  case inr.inr => rw [bind_error hp] at h; cases h; exact .inr ⟨he, hm, rfl⟩
  all_goals
    rw [bind_error hp] at h
    cases h
    exact .inl ⟨_, rfl⟩
/-- The serial number is six bytes of the response, from `SN_OFFSET` on (R55). -/
theorem serialOf_bytes {c : Cfg} (h : c.wf = true) (resp tail : List Byte)
    (hl : resp.length = c.romRxLen) :
    (serialOf c resp).length = 6 ∧
      ∀ k, k < 6 → (serialOf c resp)[k]? = (resp ++ tail)[c.snOffset + k]? := by
  obtain ⟨h1, h2⟩ := wf_serial h
  refine ⟨by simp [serialOf, h1, hl]; omega, ?_⟩
  intro k hk
  rw [List.getElem?_append_left (by omega)]
  simp [serialOf, h1, hk]

/-- Two round trips one after the other, both with presence and every slot answered. -/
theorem execute_twice {s : State} (h : s.link.resetAfter = none) (c1 c2 : Command)
    (p1 p2 : List Byte) (hp1 : p1.length = (s.params.desc c1).tx)
    (hp2 : p2.length = (s.params.desc c2).tx) {e0 e1 : Byte} {es fs : List Byte}
    (h0 : e0 ≠ s.params.resetTxByte) (h1 : e1 ≠ s.params.resetTxByte)
    (hl1 : es.length = (commandBytes s.params (s.params.desc c1) p1).length)
    (hl2 : fs.length = (commandBytes s.params (s.params.desc c2) p2).length)
    (he : s.link.Echoes (e0 :: es ++ e1 :: fs)) :
    ∃ s1 r1 r2, execute c1 p1 s = .ok r1 s1 ∧
      execute c2 p2 s1 = .ok r2
        ((s1.afterRoundTrip
          (s.link.after (1 + es.length + (1 + fs.length))
            (commandEvents s.params (s.params.desc c1) p1 e0 es ++
              commandEvents s.params (s.params.desc c2) p2 e1 fs)) r2)) ∧
      s1 = s.afterRoundTrip
        (s.link.after (1 + es.length) (commandEvents s.params (s.params.desc c1) p1 e0 es)) r1 ∧
      r1.length = (s.params.desc c1).rx ∧
      r2 = echoBytes s.params (s.params.desc c2).rx
        (fs.drop (8 * (writtenBytes (s.params.desc c2) p2).length)) := by
  have first := execute_ok h c1 p1 hp1 h0 hl1 he.left
  have he2 := he.right (commandEvents s.params (s.params.desc c1) p1 e0 es)
  rw [List.length_cons, Nat.add_comm] at he2
  have second := execute_ok
    (s := s.afterRoundTrip
      (s.link.after (1 + es.length) (commandEvents s.params (s.params.desc c1) p1 e0 es))
      (echoBytes s.params (s.params.desc c1).rx
        (es.drop (8 * (writtenBytes (s.params.desc c1) p1).length))))
    h c2 p2 hp2 h1 hl2 he2
  refine ⟨_, _, _, first, ?_, rfl, by simp, rfl⟩
  rw [second]
  simp [State.afterRoundTrip]

end Sys2Proof.Machine
end

