-- ==== Sys2Proof/Laws/Frames.lean ====
section
/-! SUPPORT. Frames: what a procedure does to the state, said once for every relation. A claim of the form "every
operation keeps R" names R, shows that the updates keep it, and follows for the procedures by their structure. -/

namespace Sys2Proof.Machine

variable {α β : Type} {R : State → State → Prop} {E : Stop → State → State → Prop}

/-- `R` relates the state before to the state after a procedure that ends with a result, `E e` to the state after one
that ends with `e`. -/
def Runs (R : State → State → Prop) (E : Stop → State → State → Prop) (p : Proc α) : Prop :=
  ∀ s, (∃ a s', p s = .ok a s' ∧ R s s') ∨ (∃ e s', p s = .error e s' ∧ E e s s')

/-- The relations can be put one after the other. -/
structure Chains (R : State → State → Prop) (E : Stop → State → State → Prop) : Prop where
  refl : ∀ s, R s s
  trans : ∀ s t u, R s t → R t u → R s u
  absorb : ∀ e s t u, R s t → E e t u → E e s u

theorem Runs.pure (h : Chains R E) (a : α) : Runs R E (pure a : Proc α) :=
  fun s => .inl ⟨a, s, rfl, h.refl s⟩

theorem Runs.throw {e : Stop} (h : ∀ s, E e s s) : Runs R E (throw e : Proc α) :=
  fun s => .inr ⟨e, s, rfl, h s⟩

theorem Runs.bind (h : Chains R E) {p : Proc α} {f : α → Proc β} (hp : Runs R E p)
    (hf : ∀ a, Runs R E (f a)) : Runs R E (p >>= f) := by
  intro s
  obtain ⟨a, s1, h1, r1⟩ | ⟨e, s1, h1, r1⟩ := hp s
  · rw [bind_ok h1]
    obtain ⟨b, s2, h2, r2⟩ | ⟨e, s2, h2, r2⟩ := hf a s1
    · exact .inl ⟨b, s2, h2, h.trans _ _ _ r1 r2⟩
    · exact .inr ⟨e, s2, h2, h.absorb _ _ _ _ r1 r2⟩
  · exact .inr ⟨e, s1, bind_error h1, r1⟩

theorem Runs.get {f : State → Proc β} (hf : ∀ s, Runs R E (f s)) : Runs R E (get >>= f) :=
  fun s => hf s s

theorem Runs.modify {f : State → State} (h : ∀ s, R s (f s)) : Runs R E (modify f) :=
  fun s => .inl ⟨⟨⟩, f s, rfl, h s⟩

theorem Runs.failIf (h : Chains R E) {p : Prop} [Decidable p] {c : Cause}
    (he : ∀ s, E (.fail c) s s) : Runs R E (failIf p c) := by
  unfold Machine.failIf
  split
  · exact .throw he
  · exact .pure h _

/-- The updates of the bus procedures keep the relations. The round trips asked about are those of `P`. -/
structure BusKeeps (P : Command → List Byte → Prop) (R : State → State → Prop)
    (E : Stop → State → State → Prop) : Prop extends Chains R E where
  slots : ∀ s l, s.link.Advances Event.ofSlot l → R s (s.setLink l)
  slotsEnd : ∀ e s l, e.onBus → s.link.EndsBy Event.ofSlot e l → E e s (s.setLink l)
  reset : ∀ s p l, s.link.Resets s.params l → R s (s.afterReset p l)
  transfer : ∀ s, E (.fail .transfer) s s
  broken : ∀ e s b p l, e.broken → s.link.MovesBy e l →
    E e s (((s.setBaudsel b).setConnected p).setLink l)
  absent : ∀ s, E (.fail .connectivity) s s
  openResponse : ∀ s, R s s.openResponse
  commit : ∀ s cmd resp, resp.length = (s.params.desc cmd).rx → R s (s.commitResponse resp)
  mismatch : ∀ s cmd payload, P cmd payload → payload.length ≠ (s.params.desc cmd).tx →
    E (.fail .contract) s s

variable {P : Command → List Byte → Prop}

theorem Runs.onlySlots (h : BusKeeps P R E) {p : Proc α} (hp : OnlySlots Stop.onBus p) : Runs R E p := by
  intro s
  obtain ⟨l, ⟨a, x, hx⟩ | ⟨e, he, hn, hx⟩⟩ := hp s
  · exact .inl ⟨x, _, hx, h.slots s l a⟩
  · exact .inr ⟨e, _, hx, h.slotsEnd e s l he hn⟩

theorem Runs.busReset (h : BusKeeps P R E) : Runs R E busReset := by
  intro s
  obtain ⟨l, ⟨r, ⟨p, hp⟩ | hp⟩ | ⟨e, b, hb, m, hp⟩⟩ := busReset_cases s
  · exact .inl ⟨p, _, hp, h.reset s p l r⟩
  · exact .inr ⟨_, _, hp, h.absorb _ _ _ _ (h.reset s false l r) (h.transfer _)⟩
  · exact .inr ⟨e, _, hp, h.broken e s b s.connected l hb m⟩

theorem Runs.execute (h : BusKeeps P R E) (cmd : Command) (payload : List Byte)
    (hP : P cmd payload) : Runs R E (execute cmd payload) := by
  intro s
  have ho := h.openResponse s
  obtain ⟨hm, hp⟩ | ⟨l, r, hp | hp | ⟨l', a, ⟨resp, hr, hp⟩ | hp⟩⟩ | ⟨e, b, p, l, hb, m, hp⟩ :=
    execute_cases cmd payload s
  · exact .inr ⟨_, _, hp, h.absorb _ _ _ _ ho (h.mismatch _ cmd payload hP hm)⟩
  · exact .inr ⟨_, _, hp, h.absorb _ _ _ _ ho (h.absorb _ _ _ _ (h.reset _ false l r) (h.absent _))⟩
  · exact .inr ⟨_, _, hp, h.absorb _ _ _ _ ho (h.absorb _ _ _ _ (h.reset _ false l r) (h.transfer _))⟩
  · exact .inl ⟨_, _, hp, h.trans _ _ _ ho (h.trans _ _ _ (h.reset _ true l r)
      (h.trans _ _ _ (h.slots (s.openResponse.afterReset true l) l' a) (h.commit _ cmd resp hr)))⟩
  · exact .inr ⟨_, _, hp, h.absorb _ _ _ _ ho (h.absorb _ _ _ _ (h.reset _ true l r)
      (h.absorb _ _ _ _ (h.slots (s.openResponse.afterReset true l) l' a) (h.transfer _)))⟩
  · exact .inr ⟨_, _, hp, h.absorb _ _ _ _ ho (h.broken e _ b p l hb m)⟩

theorem writeBit_onlySlots (b : Bool) : OnlySlots Stop.onBus (writeBit b) := by
  unfold writeBit
  exact .get fun _ => .bind (slot_onlySlots _) fun _ => .pure _

theorem onlySlots_of_run {p : Proc α} {bs : Cfg → List Byte} {f : Cfg → List Byte → α}
    (h : ∀ s, p s = slotsThen (bs s.params) (f s.params) s) : OnlySlots Stop.onBus p := by
  intro s
  have := slotsThen_onlySlots (bs s.params) (f s.params) s
  rwa [← h] at this

theorem writeByte_onlySlots (v : Byte) : OnlySlots Stop.onBus (writeByte v) :=
  onlySlots_of_run (bs := fun c => wireBytes c v) (f := fun _ _ => ()) (writeByte_run v)

theorem readByte_onlySlots : OnlySlots Stop.onBus readByte :=
  onlySlots_of_run (bs := fun c => List.replicate 8 c.readTxByte) (f := echoByte) readByte_run

/-! ### Operations -/

/-- The meaning of a request performs the procedure that a host's read inside it is defined by. -/
theorem exec_eq_perform (i : Instr) (s : State) : exec i s = perform (procOf i) s := by
  cases i <;> rfl

/-- The requests that write `RDATA` (R28). -/
def writesRdata : Instr → Prop
  | .tReset | .tRbit | .tRbyte => True
  | _ => False

/-- The requests that write `SN` (R23). -/
def writesSn : Instr → Prop
  | .sInitialize | .sReadrom => True
  | _ => False

/-- The requests that decode (R24, R25, R26). -/
def decodes : Instr → Prop
  | .kDecode | .sReadscratch => True
  | _ => False

/-- The requests that write `TXBUF` (R30). -/
def writesTxbuf : Instr → Prop
  | .kEncode _ _ _ | .sWritescratch _ _ _ => True
  | _ => False

/-- The requests that poll (R182). -/
def polls : Instr → Prop
  | .wWaitData | .sConvertData => True
  | _ => False

/-- The requests that sleep (R183). -/
def sleeps : Instr → Prop
  | .wWaitDelay | .sConvertDelay => True
  | _ => False

/-- The round trips of a request. -/
def trips : Instr → Command → List Byte → Prop
  | .cInit p, c, q => c = .init ∧ q = p
  | .cReadrom p, c, q => c = .readRom ∧ q = p
  | .cSkiprom p, c, q => c = .skipRom ∧ q = p
  | .cConvertt p, c, q => c = .convertT ∧ q = p
  | .cRscratch p, c, q => c = .readScratch ∧ q = p
  | .cWscratch p, c, q => c = .writeScratch ∧ q = p
  | .sInitialize, c, q => c = .readRom ∧ q = []
  | .sConvertNone, c, q => (c = .skipRom ∨ c = .convertT) ∧ q = []
  | .sConvertData, c, q => (c = .skipRom ∨ c = .convertT) ∧ q = []
  | .sConvertDelay, c, q => (c = .skipRom ∨ c = .convertT) ∧ q = []
  | .sReadscratch, c, q => (c = .skipRom ∨ c = .readScratch) ∧ q = []
  | .sWritescratch th tl cfg, c, q => (c = .skipRom ∧ q = []) ∨ (c = .writeScratch ∧ q = [th, tl, cfg])
  | .sReadrom, c, q => c = .readRom ∧ q = []
  | .sSkiprom, c, q => c = .skipRom ∧ q = []
  | _, _, _ => False

/-- The updates of a request keep the relations: beside those of the bus procedures, each register only where the
request writes it. -/
structure Keeps (i : Instr) (R : State → State → Prop) (E : Stop → State → State → Prop) : Prop
    extends BusKeeps (trips i) R E where
  rdata : writesRdata i → ∀ s v, R s (s.setRdata v)
  sn : writesSn i → ∀ s resp, resp.length = s.params.romRxLen → R s (s.setSn (serialOf s.params resp))
  sensor : decodes i → ∀ s lsb msb th tl cfg rest r, s.rxbuf = lsb :: msb :: th :: tl :: cfg :: rest →
    s.params.resLookup cfg = some r →
    R s (s.setSensor (decodeTemp s.params r (rawTemp lsb msb)) th tl cfg)
  decodeFails : decodes i → ∀ s, E (.fail .decode) s s
  txbuf : writesTxbuf i → ∀ s a b c, R s (s.setTxbuf [a, b, c])
  initialized : i = .sInitialize → ∀ s, R s ((s.setInitialized true).setConnected true)
  cleanUp : i = .sInitialize → ∀ s t c, E (.fail c) s t → E (.fail c) s (t.setInitialized false)
  timeout : polls i → ∀ s, s.params.pollLimit = some 1 → E (.fail .timeout) s s
  polling : polls i → ∀ s, s.params.pollLimit ≠ some 1 → E (.polling 1) s s
  resolution : sleeps i → ∀ s, E (.fail .resolution) s s
  sleep : sleeps i → ∀ s l r, l.trace = s.link.trace ++ [.sleep (s.params.row r).delayMs] →
    s.link.Moves l → R s (s.setLink l)
  sleepReset : sleeps i → ∀ s l, s.link.IsCut (fun _ => True) l → E .reset s (s.setLink l)

variable {i : Instr}

theorem Runs.decodeScratch (h : Keeps i R E) (hi : decodes i) : Runs R E decodeScratch := by
  intro s
  obtain ⟨lsb, msb, th, tl, cfg, rest, r, hb, hr, hd⟩ | hd := decodeScratch_cases s
  · exact .inl ⟨_, _, hd, h.sensor hi s lsb msb th tl cfg rest r hb hr⟩
  · exact .inr ⟨_, _, hd, h.decodeFails hi s⟩

theorem Runs.waitData (h : Keeps i R E) (hi : polls i) : Runs R E waitData := by
  intro s
  obtain ⟨l, ⟨a, hp | ⟨hl, hp⟩ | ⟨hl, hp⟩⟩ | ⟨e, hb, m, hp⟩⟩ := pollOnce_cases 0 s
  · exact .inl ⟨_, _, hp, h.slots s l a⟩
  · exact .inr ⟨_, _, hp, h.absorb _ _ _ _ (h.slots s l a) (h.timeout hi _ hl)⟩
  · exact .inr ⟨_, _, hp, h.absorb _ _ _ _ (h.slots s l a) (h.polling hi _ hl)⟩
  · exact .inr ⟨_, _, hp, h.slotsEnd e s l hb m⟩

theorem Runs.waitDelay (h : Keeps i R E) (hi : sleeps i) : Runs R E waitDelay := by
  intro s
  obtain hp | ⟨l, r, t, ⟨m, hp⟩ | ⟨c, hp⟩⟩ := waitDelay_cases s
  · exact .inr ⟨_, _, hp, h.resolution hi s⟩
  · exact .inl ⟨_, _, hp, h.sleep hi s l r t m⟩
  · exact .inr ⟨_, _, hp, h.sleepReset hi s l c⟩

/-- The Read-ROM round trip answers with a response of `ROM_RX_LEN` bytes, or ends as a round trip ends. -/
theorem Runs.readSerial (h : Keeps i R E) (hi : writesSn i) (ht : trips i .readRom []) :
    Runs R E readSerial := by
  intro s
  have hx := Runs.execute h.toBusKeeps .readRom [] ht s
  cases hr : Machine.execute .readRom [] s with
  | error e u =>
    rw [hr] at hx
    obtain ⟨_, _, h1, _⟩ | ⟨_, _, h1, h2⟩ := hx
    · cases h1
    · injection h1 with h1 h3
      subst h1 h3
      exact .inr ⟨_, _, by rw [Machine.readSerial, bind_error hr], h2⟩
  | ok resp u =>
    rw [hr] at hx
    obtain ⟨_, _, h1, h2⟩ | ⟨_, _, h1, _⟩ := hx
    · injection h1 with h1 h3
      subst h1 h3
      refine .inl ⟨⟨⟩, _, by rw [Machine.readSerial, bind_ok hr]; rfl, ?_⟩
      refine h.trans _ _ _ h2 (h.sn hi u resp ?_)
      obtain ⟨-, hp⟩ | ⟨l, -, hp | hp | ⟨l', -, ⟨resp', hl, hp⟩ | hp⟩⟩ | ⟨e, b, p, l, -, -, hp⟩ :=
        execute_cases .readRom [] s
      all_goals rw [hr] at hp
      all_goals cases hp
      exact hl
    · cases h1

theorem Runs.startConversion (h : Keeps i R E) (h1 : trips i .skipRom []) (h2 : trips i .convertT []) :
    Runs R E startConversion :=
  .bind h.toChains (.execute h.toBusKeeps _ _ h1) fun _ =>
    .bind h.toChains (.execute h.toBusKeeps _ _ h2) fun _ => .pure h.toChains _

/-- A request whose updates keep the relations keeps them. -/
theorem runs_procOf (h : Keeps i R E) : Runs R E (procOf i) := by
  cases i
  case tReset =>
    exact .bind h.toChains (.busReset h.toBusKeeps) fun _ => .modify fun s => h.rdata trivial s _
  case tWbit b => exact .onlySlots h.toBusKeeps (writeBit_onlySlots b)
  case tRbit =>
    exact .bind h.toChains (.onlySlots h.toBusKeeps readBit_onlySlots) fun _ =>
      .modify fun s => h.rdata trivial s _
  case tWbyte v => exact .onlySlots h.toBusKeeps (writeByte_onlySlots v)
  case tRbyte =>
    exact .bind h.toChains (.onlySlots h.toBusKeeps readByte_onlySlots) fun _ =>
      .modify fun s => h.rdata trivial s _
  case cInit | cReadrom | cSkiprom | cConvertt | cRscratch | cWscratch =>
    exact .bind h.toChains (.execute h.toBusKeeps _ _ ⟨rfl, rfl⟩) fun _ => .pure h.toChains _
  case kDecode => exact .decodeScratch h trivial
  case kEncode a b c =>
    exact .bind h.toChains (.bind h.toChains (.modify fun s => h.txbuf trivial s a b c) fun _ =>
      .pure h.toChains _) fun _ => .pure h.toChains _
  case wWaitNone => exact .pure h.toChains _
  case wWaitData => exact .waitData h trivial
  case wWaitDelay => exact .waitDelay h trivial
  case sInitialize =>
    have inner : Runs R E (do
        let p ← Machine.busReset
        Machine.failIf (p = false) .connectivity
        Machine.readSerial
        modify fun s => (s.setInitialized true).setConnected true) :=
      .bind h.toChains (.busReset h.toBusKeeps) fun p =>
        .bind h.toChains (.failIf h.toChains h.absent) fun _ =>
        .bind h.toChains (.readSerial h trivial ⟨rfl, rfl⟩) fun _ => .modify (h.initialized rfl)
    intro s
    obtain ⟨a, s', h1, h2⟩ | ⟨e, s', h1, h2⟩ := inner s
    · exact .inl ⟨a, s', clearInitialized_ok h1, h2⟩
    · cases e with
      | fail c => exact .inr ⟨_, _, clearInitialized_fail h1, h.cleanUp rfl s s' c h2⟩
      | _ => exact .inr ⟨_, s', by simp [procOf, procSInitialize, clearInitializedOnFail, h1], h2⟩
  case sConvertNone =>
    exact .bind h.toChains (.startConversion h ⟨.inl rfl, rfl⟩ ⟨.inr rfl, rfl⟩) fun _ =>
      .pure h.toChains _
  case sConvertData =>
    exact .bind h.toChains (.startConversion h ⟨.inl rfl, rfl⟩ ⟨.inr rfl, rfl⟩) fun _ =>
      .waitData h trivial
  case sConvertDelay =>
    exact .bind h.toChains (.startConversion h ⟨.inl rfl, rfl⟩ ⟨.inr rfl, rfl⟩) fun _ =>
      .waitDelay h trivial
  case sReadscratch =>
    exact .bind h.toChains (.execute h.toBusKeeps _ _ ⟨.inl rfl, rfl⟩) fun _ =>
      .bind h.toChains (.execute h.toBusKeeps _ _ ⟨.inr rfl, rfl⟩) fun _ => .decodeScratch h trivial
  case sWritescratch a b c =>
    intro s
    obtain ⟨x, s', h1, h2⟩ | ⟨e, s', h1, h2⟩ := Runs.bind h.toChains
      (Runs.execute h.toBusKeeps .skipRom [] (.inl ⟨rfl, rfl⟩))
      (fun _ => Runs.bind h.toChains
        (Runs.execute h.toBusKeeps .writeScratch [a, b, c] (.inr ⟨rfl, rfl⟩))
        fun _ => .pure h.toChains ()) (s.setTxbuf [a, b, c])
    · exact .inl ⟨x, s', h1, h.trans _ _ _ (h.txbuf trivial s a b c) h2⟩
    · exact .inr ⟨e, s', h1, h.absorb _ _ _ _ (h.txbuf trivial s a b c) h2⟩
  case sReadrom => exact .readSerial h trivial ⟨rfl, rfl⟩
  case sSkiprom =>
    exact .bind h.toChains (.execute h.toBusKeeps _ _ ⟨rfl, rfl⟩) fun _ => .pure h.toChains _

/-- An operation that keeps the relations ends, from a state with a well-formed record, in the state that settles a
result related by `R` or an early end related by `E`. -/
theorem exec_keeps (h : Keeps i R E) {s t : State} (hx : exec i s = .next t) :
    (∃ u, R s u ∧ t = u.complete statusSuccess) ∨
    (∃ c u, E (.fail c) s u ∧ t = u.complete (statusFailure c)) ∨
    (∃ n u, E (.polling n) s u ∧ t = u.suspend (.polling n)) ∨
    (∃ u, E .noReturn s u ∧ t = u.suspend .calling) ∨
    (∃ u, E .reset s u ∧ t = u.hardReset) := by
  rw [exec_eq_perform] at hx
  have ht := perform_next hx
  obtain ⟨a, u, h1, h2⟩ | ⟨e, u, h1, h2⟩ := runs_procOf h s
  · rw [h1] at ht
    exact .inl ⟨u, h2, ht⟩
  · rw [h1] at ht
    cases e with
    | fail c => exact .inr (.inl ⟨c, u, h2, ht⟩)
    | polling n => exact .inr (.inr (.inl ⟨n, u, h2, ht⟩))
    | noReturn => exact .inr (.inr (.inr (.inl ⟨u, h2, ht⟩)))
    | reset => exact .inr (.inr (.inr (.inr ⟨u, h2, ht⟩)))

end Sys2Proof.Machine
end

