-- ==== Sys2Proof/Laws/Alike.lean ====
section
/-! SUPPORT. Two runs side by side: from states related by a relation that shows a procedure all it looks at, the
procedure ends the same way in related states. Said once for every such relation. -/

namespace Sys2Proof.Machine

variable {α β : Type} {S : State → State → Prop}

/-- Two results that agree: the same value or the same early end, in related states. -/
def SameResult (S : State → State → Prop) :
    EStateM.Result Stop State α → EStateM.Result Stop State α → Prop
  | .ok a s, .ok b t => a = b ∧ S s t
  | .error e s, .error f t => e = f ∧ S s t
  | .ok _ _, .error _ _ => False
  | .error _ _, .ok _ _ => False

/-- A procedure that cannot tell related states apart. -/
def Alike (S : State → State → Prop) (p : Proc α) : Prop := ∀ s t, S s t → SameResult S (p s) (p t)

/-- Related states look the same to the procedures, and every update keeps them related. -/
structure Blind (S : State → State → Prop) : Prop where
  params : ∀ s t, S s t → s.params = t.params
  link : ∀ s t, S s t → s.link = t.link
  rxlen : ∀ s t, S s t → s.rxlen = t.rxlen
  rxbuf : ∀ s t, S s t → s.rxbuf = t.rxbuf
  cfg : ∀ s t, S s t → s.cfg = t.cfg
  setLink : ∀ s t l, S s t → S (s.setLink l) (t.setLink l)
  setBaudsel : ∀ s t b, S s t → S (s.setBaudsel b) (t.setBaudsel b)
  setConnected : ∀ s t b, S s t → S (s.setConnected b) (t.setConnected b)
  setInitialized : ∀ s t b, S s t → S (s.setInitialized b) (t.setInitialized b)
  setRdata : ∀ s t v, S s t → S (s.setRdata v) (t.setRdata v)
  setSn : ∀ s t v, S s t → S (s.setSn v) (t.setSn v)
  setTxbuf : ∀ s t v, S s t → S (s.setTxbuf v) (t.setTxbuf v)
  setSensor : ∀ s t x a b c, S s t → S (s.setSensor x a b c) (t.setSensor x a b c)
  openResponse : ∀ s t, S s t → S s.openResponse t.openResponse
  commit : ∀ s t r, S s t → S (s.commitResponse r) (t.commitResponse r)

theorem Alike.pure (a : α) : Alike S (pure a : Proc α) := fun _ _ h => ⟨rfl, h⟩

theorem Alike.throw (e : Stop) : Alike S (throw e : Proc α) := fun _ _ h => ⟨rfl, h⟩

theorem Alike.bind {p : Proc α} {f : α → Proc β} (hp : Alike S p) (hf : ∀ a, Alike S (f a)) :
    Alike S (p >>= f) := by
  intro s t h
  have h1 := hp s t h
  cases hs : p s with
  | ok a s' =>
    cases ht : p t with
    | ok b t' =>
      rw [hs, ht] at h1
      obtain ⟨rfl, h2⟩ := h1
      rw [bind_ok hs, bind_ok ht]
      exact hf a s' t' h2
    | error e t' =>
      rw [hs, ht] at h1
      exact h1.elim
  | error e s' =>
    cases ht : p t with
    | ok b t' =>
      rw [hs, ht] at h1
      exact h1.elim
    | error f t' =>
      rw [hs, ht] at h1
      rw [bind_error hs, bind_error ht]
      exact h1

theorem Alike.modify {f : State → State} (h : ∀ s t, S s t → S (f s) (f t)) :
    Alike S (modify f) := fun s t hst => ⟨rfl, h s t hst⟩

/-- A procedure that first looks at the state, and uses of it only what related states share. -/
theorem Alike.get {f : State → Proc β} (hf : ∀ s, Alike S (f s)) (hs : ∀ s t, S s t → f s = f t) :
    Alike S (get >>= f) := by
  intro s t h
  show SameResult S (f s s) (f t t)
  rw [← hs s t h]
  exact hf s s t h

theorem Alike.failIf (p : Prop) [Decidable p] (c : Cause) : Alike S (failIf p c) := by
  unfold Machine.failIf
  split
  · exact .throw _
  · exact .pure _

variable (hS : Blind S)

include hS

theorem event_alike (e : Event) : Alike S (event e) := by
  intro s t h
  unfold event
  rw [← hS.link s t h]
  split <;> exact ⟨rfl, hS.setLink s t _ h⟩

theorem tx_alike (b : Byte) : Alike S (tx b) := by
  unfold tx
  refine .get (fun s => .bind (.modify fun s t h => ?_) fun _ => .bind (event_alike hS _) fun _ => ?_)
    fun s t h => by rw [hS.link s t h]
  · rw [← hS.link s t h]
    exact hS.setLink s t _ h
  · split
    · exact .pure _
    · exact .pure _
    · exact .throw _

theorem rx_alike : Alike S rx := by
  unfold rx
  refine .get (fun s => .bind (.modify fun s t h => ?_) fun _ => .bind (event_alike hS _) fun _ => ?_)
    fun s t h => by rw [hS.link s t h]
  · rw [← hS.link s t h]
    exact hS.setLink s t _ h
  · split
    · exact .pure _
    · exact .throw _

theorem slot_alike (b : Byte) : Alike S (slot b) :=
  .bind (tx_alike hS b) fun _ => .bind (.failIf _ _) fun _ => .bind (rx_alike hS) fun _ =>
    .bind (.failIf _ _) fun _ => .pure _

theorem resetEcho_alike (s : XferStatus) : Alike S (resetEcho s) := by
  cases s
  · exact .bind (rx_alike hS) fun _ => .pure _
  · exact .pure _

theorem inspectEcho_alike (e : Option Byte) : Alike S (inspectEcho e) := by
  cases e with
  | none => exact .bind (.modify fun s t h => hS.setConnected s t _ h) fun _ => .throw _
  | some e =>
    exact .get (fun _ => .bind (.modify fun s t h => hS.setConnected s t _ h) fun _ => .pure _)
      fun s t h => by rw [hS.params s t h]

theorem busReset_alike : Alike S busReset :=
  .get (fun _ => .bind (event_alike hS _) fun _ =>
    .bind (.modify fun s t h => hS.setBaudsel s t _ h) fun _ =>
    .bind (tx_alike hS _) fun _ => .bind (resetEcho_alike hS _) fun _ =>
    .bind (event_alike hS _) fun _ => .bind (.modify fun s t h => hS.setBaudsel s t _ h) fun _ =>
    inspectEcho_alike hS _) fun s t h => by rw [hS.params s t h]

theorem writeBit_alike (b : Bool) : Alike S (writeBit b) :=
  .get (fun _ => .bind (slot_alike hS _) fun _ => .pure _) fun s t h => by rw [hS.params s t h]

theorem readBit_alike : Alike S readBit :=
  .get (fun _ => .bind (slot_alike hS _) fun _ => .pure _) fun s t h => by rw [hS.params s t h]

theorem writeBits_alike : ∀ bs, Alike S (writeBits bs)
  | [] => .pure _
  | b :: bs => .bind (writeBit_alike hS b) fun _ => writeBits_alike bs

theorem readBits_alike : ∀ n, Alike S (readBits n)
  | 0 => .pure _
  | n + 1 => .bind (readBit_alike hS) fun _ => .bind (readBits_alike n) fun _ => .pure _

theorem writeByte_alike (v : Byte) : Alike S (writeByte v) := writeBits_alike hS _

theorem readByte_alike : Alike S readByte := .bind (readBits_alike hS 8) fun _ => .pure _

theorem writeBytes_alike : ∀ vs, Alike S (writeBytes vs)
  | [] => .pure _
  | v :: vs => .bind (writeByte_alike hS v) fun _ => writeBytes_alike vs

theorem readBytes_alike : ∀ n, Alike S (readBytes n)
  | 0 => .pure _
  | n + 1 => .bind (readByte_alike hS) fun _ => .bind (readBytes_alike n) fun _ => .pure _

theorem shuttle_alike (d : Descriptor) (payload : List Byte) : Alike S (shuttle d payload) :=
  .bind (writeBytes_alike hS _) fun _ => .bind (writeBytes_alike hS _) fun _ => readBytes_alike hS _

theorem execute_alike (cmd : Command) (payload : List Byte) : Alike S (execute cmd payload) :=
  .get (fun _ => .bind (.modify fun s t h => hS.openResponse s t h) fun _ => .bind (.failIf _ _) fun _ =>
    .bind (busReset_alike hS) fun _ => .bind (.failIf _ _) fun _ =>
    .bind (shuttle_alike hS _ _) fun resp =>
    .bind (.modify fun s t h => hS.commit s t resp h) fun _ => .pure _)
    fun s t h => by rw [hS.params s t h]

theorem decodeScratch_alike : Alike S decodeScratch := by
  intro s t h
  have hp := hS.params s t h
  unfold decodeScratch
  rw [get_bind, get_bind]
  by_cases hl : s.rxlen < s.params.scratchMinLen
  · rw [failIf_true hl, failIf_true (by rw [← hp, ← hS.rxlen s t h]; exact hl)]
    exact ⟨rfl, h⟩
  · rw [failIf_false hl, failIf_false (by rw [← hp, ← hS.rxlen s t h]; exact hl), ← hS.rxbuf s t h, ← hp]
    rcases s.rxbuf with _ | ⟨lsb, _ | ⟨msb, _ | ⟨th, _ | ⟨tl, _ | ⟨cfg, rest⟩⟩⟩⟩⟩
    case cons.cons.cons.cons.cons =>
      simp only
      cases s.params.resLookup cfg with
      | none => exact ⟨rfl, h⟩
      | some r => exact ⟨rfl, hS.setSensor s t _ _ _ _ h⟩
    all_goals exact ⟨rfl, h⟩

theorem encodeScratch_alike (th tl cfg : Byte) : Alike S (encodeScratch th tl cfg) :=
  .bind (.modify fun s t h => hS.setTxbuf s t _ h) fun _ => .pure _

theorem pollOnce_alike (n : Nat) : Alike S (pollOnce n) := by
  refine .get (fun s => .bind (readBit_alike hS) fun b => ?_) fun s t h => by rw [hS.params s t h]
  split
  · exact .pure _
  · split
    · exact .throw _
    · exact .throw _

theorem waitDelay_alike : Alike S waitDelay := by
  refine .get (fun s => ?_) fun s t h => by rw [hS.params s t h, hS.cfg s t h]
  split
  · exact .throw _
  · exact event_alike hS _

theorem clearInitializedOnFail_alike {p : Proc Unit} (hp : Alike S p) :
    Alike S (clearInitializedOnFail p) := by
  intro s t h
  have h1 := hp s t h
  unfold clearInitializedOnFail
  cases hs : p s with
  | ok a s' =>
    cases ht : p t with
    | ok b t' => rwa [hs, ht] at h1
    | error f t' =>
      rw [hs, ht] at h1
      exact h1.elim
  | error e s' =>
    cases ht : p t with
    | ok b t' =>
      rw [hs, ht] at h1
      exact h1.elim
    | error f t' =>
      rw [hs, ht] at h1
      obtain ⟨rfl, h2⟩ := h1
      cases e with
      | fail c => exact ⟨rfl, hS.setInitialized _ _ _ h2⟩
      | _ => exact ⟨rfl, h2⟩

theorem readSerial_alike : Alike S readSerial :=
  .bind (execute_alike hS _ _) fun _ => .modify fun s t h => by
    rw [hS.params s t h]
    exact hS.setSn s t _ h

theorem startConversion_alike : Alike S startConversion :=
  .bind (execute_alike hS _ _) fun _ => .bind (execute_alike hS _ _) fun _ => .pure _

/-- No request can tell related states apart. -/
theorem procOf_alike (i : Instr) : Alike S (procOf i) := by
  have rdata : ∀ v, Alike S (modify (·.setRdata v)) := fun v => .modify fun s t h => hS.setRdata s t v h
  cases i
  case tReset => exact .bind (busReset_alike hS) fun _ => rdata _
  case tWbit b => exact writeBit_alike hS b
  case tRbit => exact .bind (readBit_alike hS) fun _ => rdata _
  case tWbyte b => exact writeByte_alike hS b
  case tRbyte => exact .bind (readByte_alike hS) fun _ => rdata _
  case kDecode => exact decodeScratch_alike hS
  case kEncode => exact .bind (encodeScratch_alike hS _ _ _) fun _ => .pure _
  case wWaitNone => exact .pure _
  case wWaitData => exact pollOnce_alike hS 0
  case wWaitDelay => exact waitDelay_alike hS
  case sInitialize =>
    exact clearInitializedOnFail_alike hS (.bind (busReset_alike hS) fun _ => .bind (.failIf _ _) fun _ =>
      .bind (readSerial_alike hS) fun _ => .modify fun s t h =>
        hS.setConnected _ _ _ (hS.setInitialized s t _ h))
  case sConvertNone => exact .bind (startConversion_alike hS) fun _ => .pure _
  case sConvertData => exact .bind (startConversion_alike hS) fun _ => pollOnce_alike hS 0
  case sConvertDelay => exact .bind (startConversion_alike hS) fun _ => waitDelay_alike hS
  case sReadscratch =>
    exact .bind (execute_alike hS _ _) fun _ => .bind (execute_alike hS _ _) fun _ =>
      decodeScratch_alike hS
  case sWritescratch =>
    exact .bind (encodeScratch_alike hS _ _ _) fun _ => .bind (execute_alike hS _ _) fun _ =>
      .bind (execute_alike hS _ _) fun _ => .pure _
  case sReadrom => exact readSerial_alike hS
  all_goals exact .bind (execute_alike hS _ _) fun _ => .pure _

omit hS

/-! ### Two such relations -/

/-- The inputs of R197: the record, the boundary, the response and `CFG`, and the model's draws. -/
theorem sameInputs_blind : Blind State.SameInputs where
  params _ _ h := h.1
  link _ _ h := h.2.1
  rxlen _ _ h := h.2.2.2.1
  rxbuf _ _ h := h.2.2.2.2.1
  cfg _ _ h := h.2.2.2.2.2
  setLink _ _ _ h := ⟨h.1, rfl, h.2.2⟩
  setBaudsel _ _ _ h := h
  setConnected _ _ _ h := h
  setInitialized _ _ _ h := h
  setRdata _ _ _ h := h
  setSn _ _ _ h := h
  setTxbuf _ _ _ h := h
  setSensor _ _ _ _ _ _ h := ⟨h.1, h.2.1, h.2.2.1, h.2.2.2.1, h.2.2.2.2.1, rfl⟩
  openResponse _ _ h := by
    obtain ⟨h1, h2, h3, h4, h5, h6⟩ := h
    exact ⟨h1, h2, by simp [h1, h3], rfl, by simp [h1, h3], h6⟩
  commit _ _ _ h := by
    obtain ⟨h1, h2, h3, h4, h5, h6⟩ := h
    exact ⟨h1, h2, h3, rfl, by simp [h5], h6⟩

/-- Two states that differ at most in `STATUS`, `BUSY` and `SEQ`. -/
def SameButControl (s t : State) : Prop :=
  t = { s with status := t.status, busy := t.busy, seq := t.seq }

theorem sameButControl_blind : Blind SameButControl where
  params _ _ h := by rw [h]
  link _ _ h := by rw [h]
  rxlen _ _ h := by rw [h]
  rxbuf _ _ h := by rw [h]
  cfg _ _ h := by rw [h]
  setLink _ _ _ h := by rw [h]; rfl
  setBaudsel _ _ _ h := by rw [h]; rfl
  setConnected _ _ _ h := by rw [h]; rfl
  setInitialized _ _ _ h := by rw [h]; rfl
  setRdata _ _ _ h := by rw [h]; rfl
  setSn _ _ _ h := by rw [h]; rfl
  setTxbuf _ _ _ h := by rw [h]; rfl
  setSensor _ _ _ _ _ _ h := by rw [h]; rfl
  openResponse _ _ h := by rw [h]; rfl
  commit _ _ _ h := by rw [h]; rfl

end Sys2Proof.Machine
end

