-- ==== Sys2Proof/Laws/Encoding.lean ====
section
/-! SUPPORT. The request words: the fields of a word put together, what the decoder reads from given fields, and the
fields that agreeing words share (30_encoding.md R81 to R88). -/

namespace Sys2Proof

/-! ### Fields and words -/

theorem toWord_getLsbD (f : Fields) (i : Nat) : f.toWord.getLsbD i =
    if i < 6 then f.opsel.getLsbD i else if i < 8 then f.plen.getLsbD (i - 6)
    else if i < 16 then f.arg0.getLsbD (i - 8) else if i < 24 then f.arg1.getLsbD (i - 16)
    else f.arg2.getLsbD (i - 24) := by
  have : f.toWord.getLsbD i = BitVec.getLsbD (w := 8 + 8 + 8 + 2 + 6)
     (f.arg2 ++ f.arg1 ++ f.arg0 ++ f.plen ++ f.opsel) i := rfl
  rw [this]
  simp only [BitVec.getLsbD_append]
  (repeat' split) <;> first | rfl | omega

/-- Cutting the word that fields make gives the fields back (R81). -/
@[simp] theorem ofWord_toWord (f : Fields) : Fields.ofWord f.toWord = f := by
  obtain ⟨o, p, a, b, c⟩ := f
  simp only [Fields.ofWord, Fields.mk.injEq]
  refine ⟨?_, ?_, ?_, ?_, ?_⟩ <;>
  · apply BitVec.eq_of_getLsbD_eq
    intro i hi
    rw [BitVec.getLsbD_extractLsb', toWord_getLsbD]
    simp only [hi, decide_true, Bool.true_and]
    (repeat' split) <;> first | omega | (congr 1; omega)

theorem payloadFields_payload {p : List Byte} (hp : payloadFits p = true) (o : BitVec 6) :
    (payloadFields o p).payload = p := by
  rcases p with _ | ⟨a, _ | ⟨b, _ | ⟨c, _ | ⟨d, p⟩⟩⟩⟩
  · rfl
  · rfl
  · rfl
  · rfl
  · simp [payloadFits] at hp
    omega

theorem payload_length (f : Fields) : f.payload.length = f.plen.toNat := by
  have : f.plen.toNat < 4 := f.plen.isLt
  simp [Fields.payload]
  omega

/-! ### What the decoder reads -/

/-- The fields of a word that decodes to the request (R82, R83, R84). -/
def Instr.Matches : Instr → Fields → Prop
  | .tReset, f => f.opsel = 0x01
  | .tWbit b, f => f.opsel = 0x02 ∧ f.bit = b
  | .tRbit, f => f.opsel = 0x03
  | .tWbyte v, f => f.opsel = 0x04 ∧ f.arg0 = v
  | .tRbyte, f => f.opsel = 0x05
  | .cInit p, f => f.opsel = 0x10 ∧ f.payload = p
  | .cReadrom p, f => f.opsel = 0x11 ∧ f.payload = p
  | .cSkiprom p, f => f.opsel = 0x12 ∧ f.payload = p
  | .cConvertt p, f => f.opsel = 0x13 ∧ f.payload = p
  | .cRscratch p, f => f.opsel = 0x14 ∧ f.payload = p
  | .cWscratch p, f => f.opsel = 0x15 ∧ f.payload = p
  | .kDecode, f => f.opsel = 0x20
  | .kEncode th tl cfg, f => f.opsel = 0x21 ∧ f.arg0 = th ∧ f.arg1 = tl ∧ f.arg2 = cfg
  | .wWaitNone, f => f.opsel = 0x30 ∧ f.strat = 0
  | .wWaitData, f => f.opsel = 0x30 ∧ f.strat = 1
  | .wWaitDelay, f => f.opsel = 0x30 ∧ f.strat = 2
  | .sInitialize, f => f.opsel = 0x38
  | .sConvertNone, f => f.opsel = 0x39 ∧ f.strat = 0
  | .sConvertData, f => f.opsel = 0x39 ∧ f.strat = 1
  | .sConvertDelay, f => f.opsel = 0x39 ∧ f.strat = 2
  | .sReadscratch, f => f.opsel = 0x3A
  | .sWritescratch th tl cfg, f => f.opsel = 0x3B ∧ f.arg0 = th ∧ f.arg1 = tl ∧ f.arg2 = cfg
  | .sReadrom, f => f.opsel = 0x3C
  | .sSkiprom, f => f.opsel = 0x3D

theorem byStrategy_ok {n : Nat} {a b c i : Instr} (h : byStrategy n a b c = .ok i) :
    (n = 0 ∧ a = i) ∨ (n = 1 ∧ b = i) ∨ (n = 2 ∧ c = i) := by
  unfold byStrategy at h
  split at h <;> simp_all

/-- The decoder reads exactly the request whose fields match (R83). -/
theorem decodeFields_ok_iff (f : Fields) (i : Instr) : decodeFields f = .ok i ↔ i.Matches f := by
  have ho : ∀ n : Nat, n < 64 → f.opsel.toNat = n → f.opsel = BitVec.ofNat 6 n := by
    intro n hn h
    apply BitVec.eq_of_toNat_eq
    simp [h]
    omega
  constructor
  · intro h
    unfold decodeFields at h
    split at h
    all_goals rename_i heq
    case h_14 =>
      rcases byStrategy_ok h with ⟨hs, rfl⟩ | ⟨hs, rfl⟩ | ⟨hs, rfl⟩ <;>
        exact ⟨ho _ (by decide) heq, hs⟩
    case h_16 =>
      rcases byStrategy_ok h with ⟨hs, rfl⟩ | ⟨hs, rfl⟩ | ⟨hs, rfl⟩ <;>
        exact ⟨ho _ (by decide) heq, hs⟩
    all_goals cases h
    all_goals first
      | exact ho _ (by decide) heq
      | exact ⟨ho _ (by decide) heq, rfl⟩
      | exact ⟨ho _ (by decide) heq, rfl, rfl, rfl⟩
  · intro h
    cases i
    all_goals simp only [Instr.Matches] at h
    all_goals simp [decodeFields, byStrategy, h]

theorem decode_ok_iff (w : Word) (i : Instr) : decode w = .ok i ↔ i.Matches (Fields.ofWord w) :=
  decodeFields_ok_iff _ _

/-! ### Words that agree where a mask says -/

/-- Words that agree under a mask that covers a field have the same field. -/
theorem agree_field {w w' m : Word} {st len : Nat} (h : w &&& m = w' &&& m)
    (hm : ∀ i, i < len → m.getLsbD (st + i) = true) : w.extractLsb' st len = w'.extractLsb' st len := by
  apply BitVec.eq_of_getLsbD_eq
  intro i hi
  have := congrArg (·.getLsbD (st + i)) h
  simpa [BitVec.getLsbD_extractLsb', hi, hm i hi] using this

/-- Words that agree under the bits a payload uses have the same selector and the same payload (R82 (e)). -/
theorem agree_payload {w w' : Word}
    (h : w &&& Machine.usedBits.payloadBits (Fields.ofWord w).payload =
      w' &&& Machine.usedBits.payloadBits (Fields.ofWord w).payload) :
    (Fields.ofWord w').opsel = (Fields.ofWord w).opsel ∧
      (Fields.ofWord w').payload = (Fields.ofWord w).payload := by
  have hl := payload_length (Fields.ofWord w)
  have hb : (Fields.ofWord w).plen.toNat < 4 := (Fields.ofWord w).plen.isLt
  obtain ⟨m, hm, hall⟩ : ∃ m, Machine.usedBits.payloadBits (Fields.ofWord w).payload = m ∧
      ∀ i, i < 8 + 8 * (Fields.ofWord w).plen.toNat → m.getLsbD i = true := by
    refine ⟨_, rfl, ?_⟩
    simp only [Machine.usedBits.payloadBits, hl]
    generalize (Fields.ofWord w).plen.toNat = n at *
    obtain rfl | rfl | rfl | rfl : n = 0 ∨ n = 1 ∨ n = 2 ∨ n = 3 := by omega
    all_goals simp only; decide
  rw [hm] at h
  have ho : (Fields.ofWord w).opsel = (Fields.ofWord w').opsel :=
    agree_field h fun i hi => hall _ (by omega)
  have hp : (Fields.ofWord w).plen = (Fields.ofWord w').plen :=
    agree_field h fun i hi => hall _ (by omega)
  have ha0 : 1 ≤ (Fields.ofWord w).plen.toNat → (Fields.ofWord w).arg0 = (Fields.ofWord w').arg0 :=
    fun hn => agree_field h fun i hi => hall _ (by omega)
  have ha1 : 2 ≤ (Fields.ofWord w).plen.toNat → (Fields.ofWord w).arg1 = (Fields.ofWord w').arg1 :=
    fun hn => agree_field h fun i hi => hall _ (by omega)
  have ha2 : 3 ≤ (Fields.ofWord w).plen.toNat → (Fields.ofWord w).arg2 = (Fields.ofWord w').arg2 :=
    fun hn => agree_field h fun i hi => hall _ (by omega)
  refine ⟨ho.symm, ?_⟩
  simp only [Fields.payload, ← hp]
  generalize (Fields.ofWord w).plen.toNat = n at *
  obtain rfl | rfl | rfl | rfl : n = 0 ∨ n = 1 ∨ n = 2 ∨ n = 3 := by omega
  · rfl
  · simp [ha0]
  · simp [ha0, ha1]
  · simp [ha0, ha1, ha2]

/-- `STRAT` is `ARG0[1:0]` of the word (R82 (c)). -/
theorem strat_ofWord (w : Word) : (Fields.ofWord w).strat = (w.extractLsb' 8 2).toNat := by
  simp only [Fields.strat, Fields.ofWord]
  congr 1
  apply BitVec.eq_of_getLsbD_eq
  intro i hi
  simp [BitVec.getLsbD_extractLsb', hi]
  omega

theorem opselMask_bit (i : Nat) : (0x3F#32).getLsbD i = decide (i < 6) := by
  by_cases h : i < 32
  · revert h
    revert i
    decide
  · have : ¬ i < 6 := by omega
    simp only [this, decide_false]
    exact BitVec.getLsbD_of_ge _ _ (by omega)

/-- A word under the mask of a row without strategy is its selector (R105). -/
theorem opselMask_eq (w v : Word) (h : w.extractLsb' 0 6 = v.extractLsb' 0 6) (hv : v &&& 0x3F = v) :
    w &&& 0x3F = v := by
  rw [← hv]
  apply BitVec.eq_of_getLsbD_eq
  intro i hi
  rw [BitVec.getLsbD_and, BitVec.getLsbD_and]
  have hm := opselMask_bit i
  by_cases h6 : i < 6
  · have := congrArg (·.getLsbD i) h
    simp [h6] at this
    simp [this]
  · have : BitVec.getLsbD (63 : Word) i = false := by simpa [h6] using hm
    rw [this]
    simp

end Sys2Proof
end

