-- ==== Sys2Proof/Laws/Inside.lean ====
section
/-! SUPPORT. Broken off at any event, an operation has written only what the bus procedures write: the results reach
their registers after the last event (70_reset_and_hazards.md R250). -/

namespace Sys2Proof.Machine

variable {α β : Type}

/-- Two states that agree on every register but `RXLEN`, `RXBUF`, `TXLEN`, `TXBUF`, `CONNECTED` and `BAUDSEL`. -/
structure Quiet (s t : State) : Prop where
  req : t.req = s.req
  status : t.status = s.status
  busy : t.busy = s.busy
  seq : t.seq = s.seq
  rdata : t.rdata = s.rdata
  initialized : t.initialized = s.initialized
  sn : t.sn = s.sn
  th : t.th = s.th
  tl : t.tl = s.tl
  cfg : t.cfg = s.cfg
  temp : t.temp = s.temp

theorem Quiet.refl (s : State) : Quiet s s := ⟨rfl, rfl, rfl, rfl, rfl, rfl, rfl, rfl, rfl, rfl, rfl⟩

theorem Quiet.trans {s t u : State} (h : Quiet s t) (h' : Quiet t u) : Quiet s u :=
  ⟨h'.1.trans h.1, h'.2.trans h.2, h'.3.trans h.3, h'.4.trans h.4, h'.5.trans h.5, h'.6.trans h.6,
    h'.7.trans h.7, h'.8.trans h.8, h'.9.trans h.9, h'.10.trans h.10, h'.11.trans h.11⟩

/-- The early ends by a reset only. -/
abbrev QuietCut (e : Stop) (s t : State) : Prop := e = .reset → Quiet s t

theorem quietBus : BusKeeps (fun _ _ => True) Quiet QuietCut where
  refl := .refl
  trans _ _ _ h h' := h.trans h'
  absorb _ _ _ _ h h' he := h.trans (h' he)
  slots _ _ _ := by constructor <;> rfl
  slotsEnd _ _ _ _ _ _ := by constructor <;> rfl
  reset _ _ _ _ := by constructor <;> rfl
  transfer s _ := .refl s
  broken _ _ _ _ _ _ _ _ := by constructor <;> rfl
  absent s _ := .refl s
  openResponse _ := by constructor <;> rfl
  commit _ _ _ _ := by constructor <;> rfl
  mismatch s _ _ _ _ _ := .refl s

/-- A procedure that is quiet wherever a reset breaks it off. -/
def CutsQuiet (p : Proc α) : Prop := ∀ s u, p s = .error .reset u → Quiet s u

theorem Runs.cutsQuiet {p : Proc α} (h : Runs Quiet QuietCut p) : CutsQuiet p := by
  intro s u hp
  obtain ⟨_, _, h1, -⟩ | ⟨_, _, h1, h2⟩ := h s
  · rw [hp] at h1; cases h1
  · rw [hp] at h1; cases h1; exact h2 rfl

/-- A quiet procedure, then one that is quiet wherever it is broken off. -/
theorem CutsQuiet.bind {p : Proc α} {f : α → Proc β} (hp : Runs Quiet QuietCut p)
    (hf : ∀ a, CutsQuiet (f a)) : CutsQuiet (p >>= f) := by
  intro s u h
  obtain ⟨a, t, h1, h2⟩ | ⟨e, t, h1, h2⟩ := hp s
  · rw [bind_ok h1] at h; exact h2.trans (hf a t u h)
  · rw [bind_error h1] at h; cases h; exact h2 rfl

/-- A procedure that is quiet wherever it is broken off, then one without an event. -/
theorem CutsQuiet.bind_last {p : Proc α} {f : α → Proc β} (hp : CutsQuiet p)
    (hf : ∀ a s u, f a s ≠ .error .reset u) : CutsQuiet (p >>= f) := by
  intro s u h
  cases h1 : p s with
  | ok a t => rw [bind_ok h1] at h; exact absurd h (hf a t u)
  | error e t => rw [bind_error h1] at h; cases h; exact hp s _ h1

theorem modify_not_cut (f : State → State) (s u : State) :
    (modify f : Proc PUnit) s ≠ .error .reset u := by simp

theorem decodeScratch_not_cut (s u : State) : decodeScratch s ≠ .error .reset u := by
  obtain ⟨_, _, _, _, _, _, _, -, -, h⟩ | h := decodeScratch_cases s <;> simp [h]

theorem execute_quiet (cmd : Command) (payload : List Byte) : Runs Quiet QuietCut (execute cmd payload) :=
  .execute quietBus cmd payload trivial

theorem readSerial_cutsQuiet : CutsQuiet readSerial :=
  (execute_quiet _ _).cutsQuiet.bind_last fun _ => modify_not_cut _

theorem startConversion_quiet : Runs Quiet QuietCut startConversion :=
  .bind quietBus.toChains (execute_quiet _ _) fun _ =>
    .bind quietBus.toChains (execute_quiet _ _) fun _ => .pure quietBus.toChains _

theorem pollOnce_cutsQuiet (n : Nat) : CutsQuiet (pollOnce n) := by
  intro s u h
  obtain ⟨l, ⟨-, h' | ⟨-, h'⟩ | ⟨-, h'⟩⟩ | ⟨e, -, -, h'⟩⟩ := pollOnce_cases n s <;>
    (rw [h'] at h; cases h; try (constructor <;> rfl))

theorem waitDelay_cutsQuiet : CutsQuiet waitDelay := by
  intro s u h
  obtain h' | ⟨l, r, -, ⟨-, h'⟩ | ⟨-, h'⟩⟩ := waitDelay_cases s <;>
    (rw [h'] at h; cases h; try (constructor <;> rfl))

theorem clearInitialized_cut {p : Proc Unit} {s u : State}
    (h : clearInitializedOnFail p s = .error .reset u) : p s = .error .reset u := by
  unfold clearInitializedOnFail at h
  split at h
  · cases h
  · exact h

/-- Every operation is quiet wherever a reset breaks it off. -/
theorem procOf_cutsQuiet (i : Instr) : CutsQuiet (procOf i) := by
  have hc := quietBus.toChains
  have command : ∀ cmd p, CutsQuiet (do let _ ← execute cmd p : Proc Unit) := fun cmd p =>
    (Runs.bind hc (execute_quiet cmd p) fun _ => .pure hc _).cutsQuiet
  have slotted : ∀ {γ} {p : Proc γ}, OnlySlots Stop.onBus p → CutsQuiet p := fun h =>
    (Runs.onlySlots quietBus h).cutsQuiet
  cases i
  case tReset => exact (Runs.busReset quietBus).cutsQuiet.bind_last fun _ => modify_not_cut _
  case tWbit b => exact slotted (writeBit_onlySlots b)
  case tRbit => exact (slotted readBit_onlySlots).bind_last fun _ => modify_not_cut _
  case tWbyte v => exact slotted (writeByte_onlySlots v)
  case tRbyte => exact (slotted readByte_onlySlots).bind_last fun _ => modify_not_cut _
  case cInit | cReadrom | cSkiprom | cConvertt | cRscratch | cWscratch => exact command _ _
  case kDecode => exact fun s u h => absurd h (decodeScratch_not_cut s u)
  case kEncode => intro s u h; cases h
  case wWaitNone => intro s u h; cases h
  case wWaitData => exact pollOnce_cutsQuiet 0
  case wWaitDelay => exact waitDelay_cutsQuiet
  case sInitialize =>
    intro s u h
    refine CutsQuiet.bind (Runs.busReset quietBus) (fun p => ?_) s u (clearInitialized_cut h)
    exact .bind (.failIf hc fun s _ => .refl s) fun _ =>
      readSerial_cutsQuiet.bind_last fun _ => modify_not_cut _
  case sConvertNone => exact (Runs.bind hc startConversion_quiet fun _ => .pure hc _).cutsQuiet
  case sConvertData => exact .bind startConversion_quiet fun _ => pollOnce_cutsQuiet 0
  case sConvertDelay => exact .bind startConversion_quiet fun _ => waitDelay_cutsQuiet
  case sReadscratch =>
    exact .bind (execute_quiet _ _) fun _ =>
      (execute_quiet _ _).cutsQuiet.bind_last fun _ => decodeScratch_not_cut
  case sWritescratch a b c =>
    exact .bind (f := fun payload => do
        let _ ← execute .skipRom []
        let _ ← execute .writeScratch payload)
      (.bind hc (.modify fun s => by constructor <;> rfl) fun _ =>
        .pure hc _)
      fun _ => .bind (execute_quiet _ _) fun _ => command _ _
  case sReadrom => exact readSerial_cutsQuiet
  case sSkiprom => exact command _ _

/-- Where the next step performs `p`, which breaks off at a reset due after its `k`-th event, the block is there at the
end of that event. -/
theorem inside_of_cut {s t : State} {k : Nat} {p : Proc Unit} (hp : s.running = some p)
    (hd : s.link.resetAfter = none)
    (h : p (s.setLink { s.link with resetAfter := some k }) = .error .reset t) :
    s.inside k = some (t.setLink { t.link with resetAfter := none }) := by
  simp only [State.inside, hp, hd, h]
  rfl

/-- Inside a step every register but those a bus procedure writes reads as before, and `BUSY = 1` (R250). -/
theorem inside_quiet {s u : State} {k : Nat} (h : s.inside k = some u) : s.busy = true ∧ Quiet s u := by
  unfold State.inside at h
  split at h
  case h_1 => cases h
  case h_2 p hp =>
    have hb : s.busy = true ∧ CutsQuiet p := by
      unfold State.running at hp
      split at hp
      · cases hp
      · rename_i hn
        refine ⟨by simpa using fun h => hn (.inr h), ?_⟩
        split at hp
        · split at hp
          · cases hp; exact procOf_cutsQuiet _
          · cases hp
        · cases hp; exact pollOnce_cutsQuiet _
        · cases hp
    split at h
    · split at h
      · rename_i t ht
        cases h
        obtain ⟨h1, h2, h3, h4, h5, h6, h7, h8, h9, h10, h11⟩ := hb.2 _ _ ht
        exact ⟨hb.1, h1, h2, h3, h4, h5, h6, h7, h8, h9, h10, h11⟩
      · cases h
      · cases h
    · cases h

end Sys2Proof.Machine
end

