-- ==== Sys2Proof/Laws/PerInstr.lean ====
section
/-! SUPPORT. Statements about every request as syntax, one lemma per constructor. Family RowMatch: the word the
assembler writes matches the request's own row of spec/opcode_table.json (30_encoding.md R103, R105). -/

namespace Sys2Proof.Laws.RowMatch

/-- The encoded word, under the row's mask, is the row's match value. -/
def Statement (i : Instr) : Prop := encode i &&& tableMask i = tableMatch i

/-- The selector of the encoded word decides, for a row whose mask is the selector alone. -/
theorem of_opsel (f : Fields) (v : Word) (h : f.opsel = v.extractLsb' 0 6) (hv : v &&& 0x3F = v) :
    f.toWord &&& 0x3F = v := by
  refine opselMask_eq _ _ ?_ hv
  have : f.toWord.extractLsb' 0 6 = (Fields.ofWord f.toWord).opsel := rfl
  rw [this, ofWord_toWord, h]

theorem tReset : Statement .tReset := by
  unfold Statement
  decide

theorem tWbit (bit : Bool) : Statement (.tWbit bit) :=
  of_opsel _ _ rfl (by simp only [tableMatch]; decide)

theorem tRbit : Statement .tRbit := by
  unfold Statement
  decide

theorem tWbyte (v : Byte) : Statement (.tWbyte v) :=
  of_opsel _ _ rfl (by simp only [tableMatch]; decide)

theorem tRbyte : Statement .tRbyte := by
  unfold Statement
  decide

theorem cInit (payload : List Byte) : Statement (.cInit payload) :=
  of_opsel _ _ rfl (by simp only [tableMatch]; decide)

theorem cReadrom (payload : List Byte) : Statement (.cReadrom payload) :=
  of_opsel _ _ rfl (by simp only [tableMatch]; decide)

theorem cSkiprom (payload : List Byte) : Statement (.cSkiprom payload) :=
  of_opsel _ _ rfl (by simp only [tableMatch]; decide)

theorem cConvertt (payload : List Byte) : Statement (.cConvertt payload) :=
  of_opsel _ _ rfl (by simp only [tableMatch]; decide)

theorem cRscratch (payload : List Byte) : Statement (.cRscratch payload) :=
  of_opsel _ _ rfl (by simp only [tableMatch]; decide)

theorem cWscratch (payload : List Byte) : Statement (.cWscratch payload) :=
  of_opsel _ _ rfl (by simp only [tableMatch]; decide)

theorem kDecode : Statement .kDecode := by
  unfold Statement
  decide

theorem kEncode (th tl cfg : Byte) : Statement (.kEncode th tl cfg) :=
  of_opsel _ _ rfl (by simp only [tableMatch]; decide)

theorem wWaitNone : Statement .wWaitNone := by
  unfold Statement
  decide

theorem wWaitData : Statement .wWaitData := by
  unfold Statement
  decide

theorem wWaitDelay : Statement .wWaitDelay := by
  unfold Statement
  decide

theorem sInitialize : Statement .sInitialize := by
  unfold Statement
  decide

theorem sConvertNone : Statement .sConvertNone := by
  unfold Statement
  decide

theorem sConvertData : Statement .sConvertData := by
  unfold Statement
  decide

theorem sConvertDelay : Statement .sConvertDelay := by
  unfold Statement
  decide

theorem sReadscratch : Statement .sReadscratch := by
  unfold Statement
  decide

theorem sWritescratch (th tl cfg : Byte) : Statement (.sWritescratch th tl cfg) :=
  of_opsel _ _ rfl (by simp only [tableMatch]; decide)

theorem sReadrom : Statement .sReadrom := by
  unfold Statement
  decide

theorem sSkiprom : Statement .sSkiprom := by
  unfold Statement
  decide

end Sys2Proof.Laws.RowMatch
end

