-- ==== Sys2Proof/Laws/StepCases.lean ====
section
/-! SUPPORT. Everything one step can do (10_state.md R32, R35; 70_reset_and_hazards.md R240, R242). -/

namespace Sys2Proof.Machine

/-- `s0` is `s` with the host's action of this step taken: the host's list, `REQ` with the sequencer at the beginning
of its operation, or a reset that becomes due. -/
structure Prepared (s s0 : State) : Prop where
  same : s0 = { s with
    host := s0.host, req := s0.req, busy := s0.busy, seq := s0.seq
    link := { s.link with resetAfter := s0.link.resetAfter } }
  sequencer : (s0.busy = s.busy ∧ s0.seq = s.seq) ∨
    (s.busy = false ∧ s0.busy = true ∧ s0.seq = .idle)
  noReset : s.NoReset → s0.NoReset

theorem Prepared.refl (s : State) : Prepared s s := ⟨rfl, .inl ⟨rfl, rfl⟩, id⟩

theorem Prepared.params {s s0 : State} (h : Prepared s s0) : s0.params = s.params := by rw [h.same]

theorem prepared_setHost {s : State} {h : HostEvent} {rest : List HostEvent} (hh : s.host = h :: rest) :
    Prepared s (s.setHost rest) :=
  ⟨rfl, .inl ⟨rfl, rfl⟩, fun hn => ⟨hn.1, fun e he => hn.2 e (by rw [hh]; simp_all)⟩⟩

theorem prepared_accept {s : State} {h : HostEvent} {rest : List HostEvent} (w : Word)
    (hh : s.host = h :: rest) (hb : ¬ s.busy = true) : Prepared s ((s.setHost rest).accept w) :=
  ⟨rfl, .inr ⟨by simpa using hb, rfl, rfl⟩, (prepared_setHost hh).noReset⟩

/-- Everything the block's own part of a step can do. -/
theorem advance_cases {s t : State} (h : advance s = .next t) :
    t = s ∨ (∃ i, s.busy = true ∧ s.seq = .idle ∧ decode s.req = .ok i ∧ exec i s = .next t) ∨
    (s.busy = true ∧ s.seq = .idle ∧ t = s.complete (statusFailure .illegal)) ∨
    (∃ n, s.busy = true ∧ s.seq = .polling n ∧ t = settle (pollOnce n s)) := by
  unfold advance at h
  split at h
  case isTrue =>
    injection h with h
    exact .inl h.symm
  case isFalse hb =>
    have hb : s.busy = true := by simpa using hb
    split at h
    case h_1 hq =>
      unfold runRequest at h
      split at h
      case h_1 i hd => exact .inr (.inl ⟨i, hb, hq, hd, h⟩)
      case h_2 => exact .inr (.inr (.inl ⟨hb, hq, perform_next h⟩))
    case h_2 n hq => exact .inr (.inr (.inr ⟨n, hb, hq, perform_next h⟩))
    case h_3 =>
      injection h with h
      exact .inl h.symm

theorem startRequest_eq (w : Word) (s : State) : startRequest w s = advance (s.accept w) := by
  simp [startRequest, advance]

/-- Everything one step can do: the host's action is taken, then the block does its own part, or is reset. -/
theorem step_cases {s t : State} (h : step s = .next t) :
    s.params.wf = true ∧ ∃ s0, Prepared s s0 ∧
      (advance s0 = .next t ∨ (¬ s.NoReset ∧ t = s0.hardReset)) := by
  unfold step at h
  split at h
  case isFalse => cases h
  case isTrue hwf =>
    refine ⟨hwf, ?_⟩
    unfold hostStep at h
    split at h
    case h_1 => exact ⟨s, .refl s, .inl h⟩
    case h_2 w rest hh =>
      split at h
      · exact ⟨s, .refl s, .inl h⟩
      · rename_i hb
        exact ⟨_, prepared_accept w hh hb, .inl (by rw [← startRequest_eq]; exact h)⟩
    case h_3 w rest hh =>
      split at h
      · exact ⟨_, prepared_setHost hh, .inl h⟩
      · rename_i hb
        exact ⟨_, prepared_accept w hh hb, .inl (by rw [← startRequest_eq]; exact h)⟩
    case h_4 rest hh => exact ⟨_, prepared_setHost hh, .inl h⟩
    case h_5 rest hh =>
      injection h with h
      exact ⟨_, prepared_setHost hh, .inr ⟨fun hn => by simpa using hn.2 .reset (by simp [hh]), h.symm⟩⟩
    case h_6 k rest hh =>
      refine ⟨(s.setHost rest).setLink { s.link with resetAfter := some k },
        ⟨rfl, .inl ⟨rfl, rfl⟩, fun hn => absurd rfl ((hn.2 (.resetAfter k) (by simp [hh])).2 k)⟩, .inl h⟩

end Sys2Proof.Machine
end

