-- ==== Sys2Proof/Tests/Slice0.lean ====
section
/-! SUPPORT. Tests with results taken from the spec's own vectors (95_test_vectors.md) and rules, and, for every
statement with hypotheses, states and operands that meet them. -/

open Sys2Proof Sys2Proof.Machine

namespace Sys2Proof.Tests

-- One theorem after the other: the evaluations by the kernel wait for one another, each on a thread of its own.
set_option Elab.async false

/-! ## Helper states -/

/-- The start state of the vectors of 95_test_vectors.md sections 2 to 6: the default record, `RDATA = 0x55`, nine
response bytes, a known sensor reading. -/
def blank : State where
  params := .standard
  req := 0
  status := 0
  busy := false
  seq := .idle
  rdata := 0x55
  rxlen := 9
  rxbuf := [0x91, 0x01, 0x4B, 0x46, 0x7F, 0xFF, 0x0F, 0x10, 0x00]
  txlen := 0
  txbuf := [0, 0, 0]
  baudsel := .unknown
  initialized := true
  connected := false
  sn := [9, 9, 9, 9, 9, 9]
  th := 0x4B
  tl := 0x46
  cfg := 0x7F
  temp := 0x0191
  link := { txQ := [], rxQ := [], txN := 0, rxN := 0, trace := [], resetAfter := none }
  draws := 0
  host := []

/-- The peripheral answers the exchanges `es`, then as the two lists say. -/
def scripted (es : List Byte) (txs : List TxAnswer) (rxs : List RxAnswer) : State :=
  { blank with link := { blank.link with
      txQ := List.replicate es.length .ok ++ txs
      rxQ := es.map (.got · .ok) ++ rxs } }

/-- The peripheral answers the exchanges `es`. -/
def echoing (es : List Byte) : State := scripted es [] []

/-- After the exchanges `es` a transmit fails. -/
def txFailing (es : List Byte) : State := scripted es [.fail] []

/-- After the exchanges `es` a receive fails, with the byte `e`. -/
def rxFailing (es : List Byte) (e : Byte) : State := scripted es [.ok] [.got e .fail]

/-- A decode input: `n` valid bytes in the buffer. -/
def received (n : Nat) (buf : List Byte) : State := { blank with rxlen := n, rxbuf := buf }

/-- The default record with a poll limit. -/
def limited (n : Nat) (s : State) : State := { s with params := { Cfg.standard with pollLimit := some n } }

/-- The host's next actions. -/
def hosted (h : List HostEvent) (s : State) : State := { s with host := h }

/-- The eight echoes that read as a byte, `FF` for 1 and `FE` for 0 (95_test_vectors.md, conventions). -/
def echoesOf (v : Byte) : List Byte := (List.range 8).map fun i => if v.getLsbD i then 0xFF else 0xFE

/-- Write echoes of `n` bytes. -/
def writes (n : Nat) : List Byte := List.replicate (8 * n) 0x00

/-- The bytes transmitted, in order. -/
def sent (t : State) : List Byte :=
  t.link.trace.filterMap fun | .tx b _ => some b | _ => none

/-- The request ends in a next state of which `p` holds. -/
def ends (i : Instr) (s : State) (p : State → Bool) : Bool :=
  match exec i s with
  | .next t => p t
  | _ => false

/-- The same of a step. -/
def stepEnds (s : State) (p : State → Bool) : Bool :=
  match step s with
  | .next t => p t
  | _ => false

theorem scripted_echoes (es : List Byte) (txs : List TxAnswer) (rxs : List RxAnswer) :
    (scripted es txs rxs).link.Echoes es := by
  intro k e hk
  have hlt : k < es.length := by
    rcases Nat.lt_or_ge k es.length with h | h
    · exact h
    · simp [List.getElem?_eq_none h] at hk
  have he : es[k] = e := by simpa [List.getElem?_eq_getElem hlt] using hk
  simp [Link.txAt, Link.rxAt, scripted, List.getElem?_append_left, hlt, he]

theorem echoing_echoes (es : List Byte) : (echoing es).link.Echoes es := scripted_echoes es [] []

theorem txFailing_fails (es : List Byte) (evs : List Event) (b : Byte) :
    ∃ l, ((txFailing es).link.after es.length evs).ExchangeFails b l :=
  ⟨_, .inl ⟨by rw [after_txAt]; simp [txFailing, scripted, Link.txAt], rfl⟩⟩

/-- After the exchanges `es` a transmit never returns. -/
def txHanging (es : List Byte) : State := scripted es [.never] []

/-- After the exchanges `es` a receive never returns. -/
def rxHanging (es : List Byte) : State := scripted es [.ok] [.never]

theorem txHanging_hangs (es : List Byte) (evs : List Event) (b : Byte) :
    ∃ l, ((txHanging es).link.after es.length evs).ExchangeHangs b l :=
  ⟨_, .inl ⟨by rw [after_txAt]; simp [txHanging, scripted, Link.txAt], rfl⟩⟩

theorem rxHanging_hangs (es : List Byte) (evs : List Event) (b : Byte) :
    ∃ l, ((rxHanging es).link.after es.length evs).ExchangeHangs b l :=
  ⟨_, .inr ⟨by rw [after_txAt]; simp [rxHanging, scripted, Link.txAt],
    by rw [after_rxAt]; simp [rxHanging, scripted, Link.rxAt], rfl⟩⟩

/-- A block that polls, after `n` polls that read 0. -/
def pollingAfter (n : Nat) (s : State) : State := { s with busy := true, seq := .polling n }

/-- The same state with a reset due after `k` more events. -/
def dueAfter (k : Nat) (s : State) : State := { s with link := { s.link with resetAfter := some k } }

theorem rxFailing_fails (es : List Byte) (e : Byte) (evs : List Event) (b : Byte) :
    ∃ l, ((rxFailing es e).link.after es.length evs).ExchangeFails b l :=
  ⟨_, .inr ⟨e, by rw [after_txAt]; simp [rxFailing, scripted, Link.txAt],
    by rw [after_rxAt]; simp [rxFailing, scripted, Link.rxAt], rfl⟩⟩

theorem standard_wf : Cfg.standard.wf = true := by decide

theorem scripted_ready (es : List Byte) (txs : List TxAnswer) (rxs : List RxAnswer) :
    (scripted es txs rxs).Ready := ⟨standard_wf, rfl⟩

theorem echoing_ready (es : List Byte) : (echoing es).Ready := scripted_ready es [] []

theorem ends_exists {i : Instr} {s : State} {p : State → Bool} (h : ends i s p = true) :
    ∃ t, exec i s = .next t ∧ p t = true := by
  unfold ends at h
  split at h
  · exact ⟨_, by assumption, h⟩
  · cases h

theorem stepEnds_exists {s : State} {p : State → Bool} (h : stepEnds s p = true) :
    ∃ t, step s = .next t ∧ p t = true := by
  unfold stepEnds at h
  split at h
  · exact ⟨_, by assumption, h⟩
  · cases h

/-! ## Well-formedness: a payload of four bytes is no request (R81, R82 (e)) -/

theorem test_wf_refuses_four_bytes :
    (Instr.cInit [1, 2, 3, 4]).wf = false ∧ (Instr.cReadrom [1, 2, 3, 4]).wf = false ∧
    (Instr.cSkiprom [1, 2, 3, 4]).wf = false ∧ (Instr.cConvertt [1, 2, 3, 4]).wf = false ∧
    (Instr.cRscratch [1, 2, 3, 4]).wf = false ∧ (Instr.cWscratch [1, 2, 3, 4]).wf = false := by decide

/-- Ill-formed records (R9), one per clause, are not well formed. -/
theorem test_record_refuses :
    Cfg.wf { Cfg.standard with baudReset := 115200 } = false ∧
    Cfg.wf { Cfg.standard with baudReset := 0 } = false ∧
    Cfg.wf { Cfg.standard with w0Byte := 0xFF } = false ∧
    Cfg.wf { Cfg.standard with row10 := { Cfg.standard.row10 with cfgPat := 0x1F } } = false ∧
    Cfg.wf { Cfg.standard with scratchMinLen := 4 } = false ∧
    Cfg.wf { Cfg.standard with snLen := 5 } = false ∧
    Cfg.wf { Cfg.standard with snOffset := 3 } = false ∧
    Cfg.wf { Cfg.standard with rxbufLen := 8 } = false ∧
    Cfg.wf { Cfg.standard with maxTx := 2 } = false ∧
    Cfg.wf { Cfg.standard with signMask := 0xF000 } = false ∧
    Cfg.wf { Cfg.standard with row12 := { Cfg.standard.row12 with dataMask := 0x0FFF } } = false ∧
    Cfg.wf { Cfg.standard with pollLimit := some 0 } = false := by decide

/-! ## Decoding: words from 95_test_vectors.md and 30_encoding.md R103 -/

theorem test_decode_transceiver :
    decode 0x00000001#32 = .ok .tReset ∧ decode 0x000000C1#32 = .ok .tReset ∧
    decode 0x00000102#32 = .ok (.tWbit true) ∧ decode 0x0000FE02#32 = .ok (.tWbit false) ∧
    decode 0xFFFFFFC2#32 = .ok (.tWbit true) ∧ decode 0x00000003#32 = .ok .tRbit ∧
    decode 0x0000CC04#32 = .ok (.tWbyte 0xCC) ∧ decode 0x00000005#32 = .ok .tRbyte := by decide

theorem test_decode_commands :
    decode 0x00000010#32 = .ok (.cInit []) ∧ decode 0x00000050#32 = .ok (.cInit [0x00]) ∧
    decode 0x00000011#32 = .ok (.cReadrom []) ∧ decode 0x00000012#32 = .ok (.cSkiprom []) ∧
    decode 0x0000AA52#32 = .ok (.cSkiprom [0xAA]) ∧ decode 0x00000013#32 = .ok (.cConvertt []) ∧
    decode 0x00000014#32 = .ok (.cRscratch []) ∧
    decode 0x1FC97DD5#32 = .ok (.cWscratch [0x7D, 0xC9, 0x1F]) ∧
    decode 0x00C97D95#32 = .ok (.cWscratch [0x7D, 0xC9]) := by decide

theorem test_decode_codec_and_waiter :
    decode 0x00000020#32 = .ok .kDecode ∧ decode 0x1FC97D21#32 = .ok (.kEncode 0x7D 0xC9 0x1F) ∧
    decode 0xFFFFFFE1#32 = .ok (.kEncode 0xFF 0xFF 0xFF) ∧
    decode 0x00000030#32 = .ok .wWaitNone ∧ decode 0x00000430#32 = .ok .wWaitNone ∧
    decode 0x00000130#32 = .ok .wWaitData ∧ decode 0x00000230#32 = .ok .wWaitDelay := by decide

theorem test_decode_session :
    decode 0x00000038#32 = .ok .sInitialize ∧ decode 0x00000039#32 = .ok .sConvertNone ∧
    decode 0x00000139#32 = .ok .sConvertData ∧ decode 0xFFFFFD39#32 = .ok .sConvertData ∧
    decode 0x00000239#32 = .ok .sConvertDelay ∧ decode 0x0000003A#32 = .ok .sReadscratch ∧
    decode 0x1FC97D3B#32 = .ok (.sWritescratch 0x7D 0xC9 0x1F) ∧
    decode 0x0000003C#32 = .ok .sReadrom ∧ decode 0x0000003D#32 = .ok .sSkiprom := by decide

/-- The illegal words of 95_test_vectors.md section 7. -/
theorem test_decode_refuses :
    decode 0x00000000#32 = .error .reservedOpsel ∧ decode 0x00000006#32 = .error .reservedOpsel ∧
    decode 0x0000000F#32 = .error .reservedOpsel ∧ decode 0x00000016#32 = .error .reservedOpsel ∧
    decode 0x0000001F#32 = .error .reservedOpsel ∧ decode 0x00000022#32 = .error .reservedOpsel ∧
    decode 0x0000002F#32 = .error .reservedOpsel ∧ decode 0x00000031#32 = .error .reservedOpsel ∧
    decode 0x00000037#32 = .error .reservedOpsel ∧ decode 0x0000003E#32 = .error .reservedOpsel ∧
    decode 0x0000003F#32 = .error .reservedOpsel ∧ decode 0xFFFFFFFF#32 = .error .reservedOpsel := by decide

theorem test_decode_refuses_strategy_3 :
    decode 0x00000330#32 = .error .reservedStrat ∧ decode 0x0000FF30#32 = .error .reservedStrat ∧
    decode 0x00000339#32 = .error .reservedStrat ∧ decode 0x00000739#32 = .error .reservedStrat := by decide

theorem test_encode_words :
    encode (.tWbyte 0xCC) = 0x0000CC04#32 ∧ encode (.tWbit true) = 0x00000102#32 ∧
    encode (.cWscratch [0x7D, 0xC9]) = 0x00C97D95#32 ∧
    encode (.kEncode 0x46 0x4B 0x5F) = 0x5F4B4621#32 ∧ encode .wWaitDelay = 0x00000230#32 ∧
    encode (.sWritescratch 0x7D 0xC9 0x1F) = 0x1FC97D3B#32 := by decide

theorem test_table_word :
    decodeTableWord 32 0x00000239 = some .sConvertDelay ∧ decodeTableWord 32 0x339 = none ∧
    decodeTableWord 8 0x01 = some .tReset := by decide

/-! ## The Bus Transceiver (95_test_vectors.md section 2) -/

theorem test_tReset_presence : ends .tReset (echoing [0xE0]) (fun t =>
    t.link.trace = [.setBaud 9600, .tx 0xF0 .ok, .rx (.got 0xE0 .ok), .setBaud 115200] ∧
    t.connected = true ∧ t.rdata = 0x01 ∧ t.baudsel = .data ∧ t.status = 0b0000#4) = true := by decide

theorem test_tReset_receive_fails : ends .tReset (rxFailing [] 0xE0) (fun t =>
    t.link.trace = [.setBaud 9600, .tx 0xF0 .ok, .rx (.got 0xE0 .fail), .setBaud 115200] ∧
    t.connected = false ∧ t.rdata = 0x55 ∧ t.status = 0b1010#4) = true := by decide

theorem test_tWbit_echo_not_examined : ends (.tWbit true) (echoing [0x12]) (fun t =>
    t.link.trace = [.tx 0xFF .ok, .rx (.got 0x12 .ok)] ∧ t.rdata = 0x55 ∧
    t.status = 0b0000#4) = true := by decide

theorem test_tWbit_transmit_fails : ends (.tWbit true) (txFailing []) (fun t =>
    t.link.trace = [.tx 0xFF .fail] ∧ t.status = 0b1010#4) = true := by decide

theorem test_tRbit_reads_zero : ends .tRbit (echoing [0x7F]) (fun t =>
    t.rdata = 0x00 ∧ sent t = [0xFF] ∧ t.status = 0b0000#4) = true := by decide

theorem test_tRbit_reads_one : ends .tRbit (echoing [0xFF]) (fun t =>
    t.rdata = 0x01 ∧ t.status = 0b0000#4) = true := by decide

theorem test_tWbyte_bit_order : ends (.tWbyte 0xC9) (echoing (writes 1)) (fun t =>
    sent t = [0xFF, 0x00, 0x00, 0xFF, 0x00, 0x00, 0xFF, 0xFF] ∧ t.link.trace.length = 16 ∧
    t.status = 0b0000#4) = true := by decide +kernel

theorem test_tWbyte_slot_5_fails : ends (.tWbyte 0x00) (txFailing [0, 0, 0, 0, 0]) (fun t =>
    t.link.trace.length = 11 ∧ t.status = 0b1010#4) = true := by decide +kernel

theorem test_tRbyte_bit_order :
    ends .tRbyte (echoing [0xFF, 0xFE, 0xFF, 0xFF, 0xFE, 0xFE, 0xFE, 0xFF]) (fun t =>
      t.rdata = 0x8D ∧ t.link.trace.length = 16 ∧ t.status = 0b0000#4) = true := by decide +kernel

theorem test_tRbyte_slot_2_fails : ends .tRbyte (rxFailing [0xFF, 0xFF] 0xFF) (fun t =>
    t.rdata = 0x55 ∧ t.link.trace.length = 6 ∧ t.status = 0b1010#4) = true := by decide +kernel

/-! ## The Command Dispatcher (section 3) -/

theorem test_cInit_presence : ends (.cInit []) (echoing [0xE0]) (fun t =>
    t.link.trace.length = 4 ∧ t.connected = true ∧ t.rxlen = 0 ∧ t.status = 0b0000#4) = true := by
  decide +kernel

theorem test_cInit_payload : ends (.cInit [0x00]) blank (fun t =>
    t.link.trace = [] ∧ t.connected = false ∧ t.baudsel = .unknown ∧ t.rxlen = 0 ∧
    t.status = 0b1101#4) = true := by decide +kernel

theorem test_cReadrom_response : ends (.cReadrom [])
    (echoing (0xE0 :: writes 1 ++
      [0x28, 0xAA, 0xBB, 0xCC, 0xDD, 0xEE, 0xFF, 0x5C].flatMap echoesOf)) (fun t =>
    t.rxbuf.take 8 = [0x28, 0xAA, 0xBB, 0xCC, 0xDD, 0xEE, 0xFF, 0x5C] ∧ t.rxlen = 8 ∧
    t.link.trace.length = 148 ∧ t.sn = [9, 9, 9, 9, 9, 9] ∧ t.status = 0b0000#4) = true := by
  decide +kernel

theorem test_cSkiprom_line_stuck_low : ends (.cSkiprom []) (echoing (0x00 :: writes 1)) (fun t =>
    sent t = [0xF0, 0x00, 0x00, 0xFF, 0xFF, 0x00, 0x00, 0xFF, 0xFF] ∧ t.connected = true ∧
    t.link.trace.length = 20 ∧ t.status = 0b0000#4) = true := by decide +kernel

theorem test_cConvertt_opcode : ends (.cConvertt []) (echoing (0xE0 :: writes 1)) (fun t =>
    sent t = [0xF0, 0x00, 0x00, 0xFF, 0x00, 0x00, 0x00, 0xFF, 0x00] ∧ t.rxlen = 0 ∧
    t.status = 0b0000#4) = true := by decide +kernel

theorem test_cConvertt_no_presence : ends (.cConvertt []) (echoing [0xF0]) (fun t =>
    t.link.trace.length = 4 ∧ t.connected = false ∧ t.status = 0b1001#4) = true := by decide +kernel

theorem test_cRscratch_response : ends (.cRscratch [])
    (echoing (0xE0 :: writes 1 ++
      [0x50, 0x05, 0x4B, 0x46, 0x7F, 0xFF, 0x0C, 0x10, 0x1C].flatMap echoesOf)) (fun t =>
    t.rxbuf = [0x50, 0x05, 0x4B, 0x46, 0x7F, 0xFF, 0x0C, 0x10, 0x1C] ∧ t.rxlen = 9 ∧
    t.link.trace.length = 164 ∧ t.temp = 0x0191 ∧ t.status = 0b0000#4) = true := by decide +kernel

theorem test_cRscratch_third_read_slot_fails : ends (.cRscratch [])
    (rxFailing (0xE0 :: writes 1 ++ [0xFE, 0xFE]) 0xFF) (fun t =>
    t.rxlen = 0 ∧ t.connected = true ∧ t.link.trace.length = 26 ∧ t.status = 0b1010#4) = true := by
  decide +kernel

theorem test_cWscratch_bytes : ends (.cWscratch [0x7D, 0xC9, 0x1F]) (echoing (0xE0 :: writes 4)) (fun t =>
    sent t = [0xF0,
      0x00, 0xFF, 0xFF, 0xFF, 0x00, 0x00, 0xFF, 0x00,
      0xFF, 0x00, 0xFF, 0xFF, 0xFF, 0xFF, 0xFF, 0x00,
      0xFF, 0x00, 0x00, 0xFF, 0x00, 0x00, 0xFF, 0xFF,
      0xFF, 0xFF, 0xFF, 0xFF, 0xFF, 0x00, 0x00, 0x00] ∧
    t.link.trace.length = 68 ∧ t.txlen = 0 ∧ t.cfg = 0x7F ∧ t.status = 0b0000#4) = true := by
  decide +kernel

theorem test_cWscratch_two_bytes : ends (.cWscratch [0x7D, 0xC9]) blank (fun t =>
    t.link.trace = [] ∧ t.rxlen = 0 ∧ t.status = 0b1101#4) = true := by decide +kernel

/-! ## The Scratchpad Codec (section 4) -/

/-- A `K.DECODE` of the two raw bytes with the config byte `c` gives `temp` and keeps the other bytes verbatim. -/
def decodesTo (lsb msb c : Byte) (temp : Half) : Bool :=
  ends .kDecode (received 5 [lsb, msb, 0x12, 0x34, c, 0, 0, 0, 0]) fun t =>
    t.temp = temp ∧ t.th = 0x12 ∧ t.tl = 0x34 ∧ t.cfg = c ∧ t.status = 0b0000#4

/-- Low byte, high byte, config byte and the expected `TEMP`: cells of the table of section 4.1, the document's two
examples and the mixed top bits among them. -/
theorem test_kDecode_temperatures :
    decodesTo 0x91 0x01 0x7F 0x0191 && decodesTo 0x5E 0xFF 0x7F 0xFF5E &&
    decodesTo 0x5E 0xFF 0x1F 0xFF58 && decodesTo 0x6F 0xFE 0x3F 0xFE6C &&
    decodesTo 0x07 0x00 0x5F 0x0006 && decodesTo 0x00 0x80 0x1F 0xF800 &&
    decodesTo 0x00 0x08 0x7F 0x0000 && decodesTo 0xFF 0x7F 0x3F 0x07FC = true := by decide +kernel

/-- Length and config byte of failing lines of section 4.2. -/
theorem test_kDecode_failures :
    ∀ v ∈ [(4, 0x7F#8), (0, 0x7F), (9, 0x00), (9, 0x1E), (9, 0xFF), (9, 0x9F)],
      ends .kDecode (received v.1 [0xA2, 0x00, 0x11, 0x22, v.2, 0xFF, 0x0C, 0x10, 0x00]) (fun t =>
        t.temp = 0x0191 ∧ t.th = 0x4B ∧ t.tl = 0x46 ∧ t.cfg = 0x7F ∧ t.rxlen = v.1 ∧
        t.status = 0b1011#4) = true := by decide +kernel

theorem test_celsius :
    State.celsius { blank with temp := 0x0191 } = 25.0625 ∧
    State.celsius { blank with temp := 0xFF5E } = -10.125 := by decide +kernel

theorem test_kEncode_bytes : ends (.kEncode 0x7D 0xC9 0x1F) blank (fun t =>
    t.txbuf = [0x7D, 0xC9, 0x1F] ∧ t.txlen = 3 ∧ t.th = 0x4B ∧ t.link.trace = [] ∧
    t.status = 0b0000#4) = true := by decide

theorem test_kEncode_unknown_config : ends (.kEncode 0 0 0) blank (fun t =>
    t.txbuf = [0, 0, 0] ∧ t.cfg = 0x7F ∧ t.status = 0b0000#4) = true := by decide

/-! ## The Conversion Waiter (section 5) -/

theorem test_wWaitNone : ends .wWaitNone blank (fun t =>
    t.link.trace = [] ∧ t.status = 0b0000#4) = true := by decide

theorem test_wWaitDelay : ∀ v ∈ [(0x1F#8, 94), (0x3F, 188), (0x5F, 375), (0x7F, 750)],
    ends .wWaitDelay { blank with cfg := v.1 } (fun t =>
      t.link.trace = [.sleep v.2] ∧ t.status = 0b0000#4) = true := by decide

theorem test_wWaitDelay_unknown : ∀ c ∈ [0x00#8, 0x1E, 0x20, 0xFF],
    ends .wWaitDelay { blank with cfg := c } (fun t =>
      t.link.trace = [] ∧ t.status = 0b1100#4) = true := by decide

theorem test_wWaitData_reads_zero : ends .wWaitData (echoing [0x00]) (fun t =>
    t.busy = true ∧ t.seq = .polling 1 ∧ t.link.trace.length = 2) = true := by decide

theorem test_wWaitData_limit : ends .wWaitData (limited 1 (echoing [0x00])) (fun t =>
    t.busy = false ∧ t.link.trace.length = 2 ∧ t.status = 0b1111#4) = true := by decide

/-! ## The Sensor Session (section 6) -/

theorem test_sInitialize_no_presence : ends .sInitialize (echoing [0xF0]) (fun t =>
    t.link.trace.length = 4 ∧ t.initialized = false ∧ t.connected = false ∧ t.rxlen = 9 ∧
    t.sn = [9, 9, 9, 9, 9, 9] ∧ t.status = 0b1001#4) = true := by decide +kernel

theorem test_sInitialize_serial : ends .sInitialize
    (echoing (0xE0 :: 0xE0 :: writes 1 ++
      [0x28, 0x01, 0x02, 0x03, 0x04, 0x05, 0x06, 0xA7].flatMap echoesOf)) (fun t =>
    t.link.trace.length = 152 ∧ t.initialized = true ∧ t.connected = true ∧
    t.sn = [0x01, 0x02, 0x03, 0x04, 0x05, 0x06] ∧ t.rxlen = 8 ∧ t.status = 0b0000#4) = true := by
  decide +kernel

theorem test_sConvertNone : ends .sConvertNone (echoing (0xE0 :: writes 1 ++ 0xE0 :: writes 1)) (fun t =>
    t.link.trace.length = 40 ∧ t.rxlen = 0 ∧ t.temp = 0x0191 ∧ t.status = 0b0000#4) = true := by
  decide +kernel

theorem test_sConvertData_first_poll :
    ends .sConvertData (echoing (0xE0 :: writes 1 ++ 0xE0 :: writes 1 ++ [0xFF])) (fun t =>
      t.link.trace.length = 42 ∧ t.busy = false ∧ t.status = 0b0000#4) = true := by decide +kernel

theorem test_sConvertDelay_12_bit : ends .sConvertDelay (echoing (0xE0 :: writes 1 ++ 0xE0 :: writes 1)) (fun t =>
    t.link.trace.length = 41 ∧ t.link.trace.getLast? = some (.sleep 750) ∧
    t.status = 0b0000#4) = true := by decide +kernel

theorem test_sConvertDelay_no_second_presence :
    ends .sConvertDelay (echoing (0xE0 :: writes 1 ++ [0xF0])) (fun t =>
      t.link.trace.length = 24 ∧ t.connected = false ∧ t.status = 0b1001#4) = true := by decide +kernel

theorem test_sReadscratch_reading : ends .sReadscratch
    (echoing (0xE0 :: writes 1 ++ 0xE0 :: writes 1 ++
      [0x91, 0x01, 0x7D, 0xC9, 0x1F, 0xFF, 0x0F, 0x10, 0x00].flatMap echoesOf)) (fun t =>
    t.link.trace.length = 184 ∧ t.temp = 0x0190 ∧ t.th = 0x7D ∧ t.tl = 0xC9 ∧ t.cfg = 0x1F ∧
    t.rxlen = 9 ∧ t.status = 0b0000#4) = true := by decide +kernel

theorem test_sReadscratch_unknown_config : ends .sReadscratch
    (echoing (0xE0 :: writes 1 ++ 0xE0 :: writes 1 ++
      [0xA2, 0x00, 0x11, 0x22, 0x00, 0xFF, 0x0C, 0x10, 0x00].flatMap echoesOf)) (fun t =>
    t.rxbuf = [0xA2, 0x00, 0x11, 0x22, 0x00, 0xFF, 0x0C, 0x10, 0x00] ∧ t.rxlen = 9 ∧
    t.temp = 0x0191 ∧ t.th = 0x4B ∧ t.cfg = 0x7F ∧ t.status = 0b1011#4) = true := by decide +kernel

theorem test_sWritescratch_bytes : ends (.sWritescratch 0x7D 0xC9 0x1F)
    (echoing (0xE0 :: writes 1 ++ 0xE0 :: writes 4)) (fun t =>
    t.link.trace.length = 88 ∧ t.txbuf = [0x7D, 0xC9, 0x1F] ∧ t.txlen = 3 ∧ t.rxlen = 0 ∧
    t.th = 0x4B ∧ t.tl = 0x46 ∧ t.cfg = 0x7F ∧ t.status = 0b0000#4) = true := by decide +kernel

theorem test_sWritescratch_no_presence : ends (.sWritescratch 0x7D 0xC9 0x1F) (echoing [0xF0]) (fun t =>
    t.link.trace.length = 4 ∧ t.txbuf = [0x7D, 0xC9, 0x1F] ∧ t.txlen = 3 ∧
    t.status = 0b1001#4) = true := by decide +kernel

theorem test_sReadrom_serial : ends .sReadrom
    (echoing (0xE0 :: writes 1 ++
      [0x28, 0x01, 0x02, 0x03, 0x04, 0x05, 0x06, 0xA7].flatMap echoesOf)) (fun t =>
    t.link.trace.length = 148 ∧ t.sn = [0x01, 0x02, 0x03, 0x04, 0x05, 0x06] ∧ t.rxlen = 8 ∧
    t.initialized = true ∧ t.status = 0b0000#4) = true := by decide +kernel

theorem test_sSkiprom_presence : ends .sSkiprom (echoing (0xE0 :: writes 1)) (fun t =>
    t.link.trace.length = 20 ∧ t.connected = true ∧ t.rxlen = 0 ∧ t.status = 0b0000#4) = true := by
  decide +kernel

theorem test_sSkiprom_no_presence : ends .sSkiprom (echoing [0xF0]) (fun t =>
    t.link.trace.length = 4 ∧ t.connected = false ∧ t.status = 0b1001#4) = true := by decide +kernel

/-! ## Steps -/

/-- After reset, a loaded request word is what the very next step performs. -/
theorem test_withFetchWord : ∃ t, step (State.reset.withFetchWord 32 0x00000030) = .next t ∧
    t.status = 0b0000#4 ∧ t.req = 0x00000030#32 ∧ t.busy = false := ⟨_, by rfl, rfl, rfl, rfl⟩

/-- An illegal word changes `STATUS` only (95_test_vectors.md section 7). -/
theorem test_illegal_step : stepEnds (hosted [.request 0x00000339#32] blank) (fun t =>
    t = { blank with req := 0x00000339#32, status := 0b1110#4 }) = true := by decide +kernel

/-- A reset due after the second event of a `T.RESET` abandons it there: no later event, no status. -/
theorem test_reset_inside : ends .tReset
    { echoing [0xE0] with link := { (echoing [0xE0]).link with resetAfter := some 1 } } (fun t =>
    t.link.trace = [.setBaud 9600, .tx 0xF0 .ok] ∧ t.baudsel = .unknown ∧ t.status = 0b0000#4 ∧
    t.busy = false ∧ t.link.resetAfter = none) = true := by decide +kernel

/-! ## States and operands that meet the hypotheses of the statements

One theorem for each statement with hypotheses, named after it; its parts are the statement's clauses, at boundary
values where a clause has a range. -/

theorem witness_DecodeOfEncodeIsIdentity :
    (Instr.cWscratch [0x7D, 0xC9, 0x1F]).wf = true ∧ (Instr.cInit []).wf = true ∧
    (Instr.sWritescratch 0xFF 0 0x1F).wf = true := by decide

theorem witness_UnusedFieldsAreIgnored :
    decode 0x00000102#32 = .ok (.tWbit true) ∧
    (0x00000102#32 : Word) &&& usedBits (.tWbit true) = 0xFFFFFFC2#32 &&& usedBits (.tWbit true) ∧
    (Instr.tWbit true).wf = true := by decide

theorem witness_TableRowsSelectWords :
    decode 0x00000139#32 = .ok .sConvertData ∧
    (0xFFFFFD39#32 : Word) &&& tableMask .sConvertData = tableMatch .sConvertData := by decide

/-- Both causes: a reserved selector and a reserved strategy. -/
theorem witness_IllegalWordsFailWithIllegal :
    (∃ e, decode 0x0000003F#32 = .error e) ∧ (∃ e, decode 0x00000330#32 = .error e) ∧
    ({ blank with req := 0x00000330#32, busy := true } : State).params.wf = true ∧
    ({ blank with req := 0x00000330#32, busy := true } : State).req = 0x00000330#32 :=
  ⟨⟨_, rfl⟩, ⟨_, rfl⟩, standard_wf, rfl⟩

theorem witness_StepPerformsTheDecodedRequest :
    (hosted [.request 0x00000001#32] blank).params.wf = true ∧
    (hosted [.request 0x00000001#32] blank).busy = false ∧
    (hosted [.request 0x00000001#32] blank).host = .request 0x00000001#32 :: [] ∧
    (hosted [.write 0x00000001#32] blank).host = .write 0x00000001#32 :: [] ∧
    decode 0x00000001#32 = .ok .tReset ∧ (∃ e, decode 0x00000000#32 = .error e) :=
  ⟨standard_wf, rfl, rfl, rfl, rfl, ⟨_, rfl⟩⟩

theorem witness_IdleBlockDoesNothing :
    blank.params.wf = true ∧ blank.busy = false ∧ blank.host = [] := ⟨standard_wf, rfl, rfl⟩

theorem witness_WriteWhileBusyHasNoEffect :
    ({ echoing [0xFF] with busy := true, seq := .polling 1 } : State).busy = true := rfl

theorem witness_ResetInputSetsTheRegisters :
    (hosted [.reset, .pause] blank).params.wf = true ∧
    (hosted [.reset, .pause] blank).host = .reset :: [.pause] := ⟨standard_wf, rfl⟩

/-- A reset due at the first event lands; one due after more events than the operation performs stays due. -/
theorem witness_ResetLandsInsideAnyOperation :
    (∃ t, exec .tReset
        { echoing [0xE0] with link := { (echoing [0xE0]).link with resetAfter := some 0 } } = .next t ∧
      decide (t.link.resetAfter = none ∧ t.link.trace.length = 1) = true) ∧
    (∃ t, exec .tReset
        { echoing [0xE0] with link := { (echoing [0xE0]).link with resetAfter := some 4 } } = .next t ∧
      decide (t.link.resetAfter = some 0 ∧ t.link.trace.length = 4) = true) :=
  ⟨ends_exists (by decide +kernel), ends_exists (by decide +kernel)⟩

theorem witness_TResetOutcome :
    (0xFFFFFFC1#32 : Word).extractLsb' 0 6 = 0x01#6 ∧
    (echoing [0xF0]).Ready ∧ (echoing [0xF0]).link.Echoes [0xF0] ∧
    (echoing [0xE0]).link.Echoes [0xE0] ∧ (txFailing []).Ready ∧ (rxFailing [] 0xE0).Ready ∧
    (∃ l, ((txFailing []).link.afterEvent (.setBaud 9600)).ExchangeFails 0xF0 l) ∧
    (∃ l, ((rxFailing [] 0xE0).link.afterEvent (.setBaud 9600)).ExchangeFails 0xF0 l) :=
  ⟨by decide, echoing_ready _, echoing_echoes _, echoing_echoes _, scripted_ready _ _ _,
    scripted_ready _ _ _, ⟨_, .inl ⟨rfl, rfl⟩⟩, ⟨_, .inr ⟨0xE0, rfl, rfl, rfl⟩⟩⟩

theorem witness_TWbitOutcome :
    (0x0000FE02#32 : Word).extractLsb' 0 6 = 0x02#6 ∧
    (echoing [0x12]).Ready ∧ (echoing [0x12]).link.Echoes [0x12] ∧ (txFailing []).Ready ∧
    (∃ l, (txFailing []).link.ExchangeFails 0xFF l) ∧
    (∃ l, (rxFailing [] 0x00).link.ExchangeFails 0x00 l) :=
  ⟨by decide, echoing_ready _, echoing_echoes _, scripted_ready _ _ _, ⟨_, .inl ⟨rfl, rfl⟩⟩,
    ⟨_, .inr ⟨0x00, rfl, rfl, rfl⟩⟩⟩

theorem witness_TRbitOutcome :
    (0x000000C3#32 : Word).extractLsb' 0 6 = 0x03#6 ∧
    (echoing [0xFF]).Ready ∧ (echoing [0xFF]).link.Echoes [0xFF] ∧ (echoing [0xFE]).link.Echoes [0xFE] ∧
    (txFailing []).Ready ∧ (∃ l, (txFailing []).link.ExchangeFails 0xFF l) ∧
    (∃ l, (rxFailing [] 0xFF).link.ExchangeFails 0xFF l) :=
  ⟨by decide, echoing_ready _, echoing_echoes _, echoing_echoes _, scripted_ready _ _ _,
    ⟨_, .inl ⟨rfl, rfl⟩⟩, ⟨_, .inr ⟨0xFF, rfl, rfl, rfl⟩⟩⟩

/-- All eight slots; a failure in the first slot and one in the last. -/
theorem witness_TWbyteOutcome :
    (0x0000CC04#32 : Word).extractLsb' 0 6 = 0x04#6 ∧
    (echoing (writes 1)).Ready ∧ (writes 1).length = 8 ∧ (echoing (writes 1)).link.Echoes (writes 1) ∧
    (txFailing []).Ready ∧ (txFailing []).link.Echoes [] ∧
    (∃ l, ((txFailing []).link.after 0 (slotEvents [] [])).ExchangeFails 0xFF l) ∧
    (rxFailing [0, 0, 0, 0, 0, 0, 0] 5).Ready ∧
    (rxFailing [0, 0, 0, 0, 0, 0, 0] 5).link.Echoes [0, 0, 0, 0, 0, 0, 0] ∧
    (∃ l, ((rxFailing [0, 0, 0, 0, 0, 0, 0] 5).link.after 7
      (slotEvents ((wireBytes .standard 0xFF).take 7) [0, 0, 0, 0, 0, 0, 0])).ExchangeFails 0xFF l) :=
  ⟨by decide, echoing_ready _, rfl, echoing_echoes _, scripted_ready _ _ _, scripted_echoes _ _ _,
    ⟨_, .inl ⟨rfl, rfl⟩⟩, scripted_ready _ _ _, scripted_echoes _ _ _,
    ⟨_, .inr ⟨5, rfl, rfl, rfl⟩⟩⟩

theorem witness_TRbyteOutcome :
    (0x00000005#32 : Word).extractLsb' 0 6 = 0x05#6 ∧
    (echoing (echoesOf 0x8D)).Ready ∧ (echoesOf 0x8D).length = 8 ∧
    (echoing (echoesOf 0x8D)).link.Echoes (echoesOf 0x8D) ∧
    (txFailing []).Ready ∧ (txFailing []).link.Echoes [] ∧
    (∃ l, ((txFailing []).link.after 0 (slotEvents [] [])).ExchangeFails 0xFF l) ∧
    (rxFailing [0, 0, 0, 0, 0, 0, 0] 5).Ready ∧
    (∃ l, ((rxFailing [0, 0, 0, 0, 0, 0, 0] 5).link.after 7
      (slotEvents (List.replicate 7 0xFF) [0, 0, 0, 0, 0, 0, 0])).ExchangeFails 0xFF l) :=
  ⟨by decide, echoing_ready _, rfl, echoing_echoes _, scripted_ready _ _ _, scripted_echoes _ _ _,
    ⟨_, .inl ⟨rfl, rfl⟩⟩, scripted_ready _ _ _, ⟨_, .inr ⟨5, rfl, rfl, rfl⟩⟩⟩

theorem witness_EchoedByteReadsBack :
    (echoing (wireBytes .standard 0xC9)).Ready ∧ Cfg.standard.w1Byte = Cfg.standard.readTxByte ∧
    (echoing (wireBytes .standard 0xC9)).link.Echoes (wireBytes .standard 0xC9) :=
  ⟨echoing_ready _, rfl, echoing_echoes _⟩

/-- Both ends of each clause's range: hung transmits and receives, in a first and in a last slot, and in the reset of
every request that starts with one; and a block held so, under a host that writes and pauses. -/
theorem witness_CallThatNeverReturnsHoldsTheBlock :
    (∃ t, exec .tReset (txHanging []) = .next t ∧ decide (t.seq = .calling) = true) ∧
    (let s := hosted [.write 0x00000001#32, .pause] { blank with busy := true, seq := .calling }
     s.params.wf = true ∧ s.busy = true ∧ s.seq = .calling ∧ s.NoReset) ∧
    (txHanging []).Ready ∧ (rxHanging []).Ready ∧
    (∃ l, (txHanging []).link.ExchangeHangs 0x00 l) ∧ (∃ l, (rxHanging []).link.ExchangeHangs 0xFF l) ∧
    ((rxHanging (List.replicate 7 0x00)).link.Echoes (List.replicate 7 0x00) ∧
      (∃ l, ((rxHanging (List.replicate 7 0x00)).link.after 7
        (slotEvents ((wireBytes .standard 0xFF).take 7) (List.replicate 7 0x00))).ExchangeHangs 0xFF l) ∧
      ∃ l, ((rxHanging (List.replicate 7 0x00)).link.after 7
        (slotEvents (List.replicate 7 0xFF) (List.replicate 7 0x00))).ExchangeHangs 0xFF l) ∧
    (∃ l, ((txHanging []).link.afterEvent (.setBaud 9600)).ExchangeHangs 0xF0 l) ∧
    (∃ l, ((rxHanging []).link.afterEvent (.setBaud 9600)).ExchangeHangs 0xF0 l) ∧
    ([0x7D, 0xC9, (0x1F : Byte)].length = (Cfg.standard.desc .writeScratch).tx ∧
      (0xE0 : Byte) ≠ Cfg.standard.resetTxByte ∧
      (txHanging (0xE0 :: writes 3)).link.Echoes (0xE0 :: writes 3) ∧
      (commandBytes .standard (Cfg.standard.desc .writeScratch) [0x7D, 0xC9, 0x1F])[24]? = some 0xFF ∧
      ∃ l, ((txHanging (0xE0 :: writes 3)).link.after 25 (resetEvents .standard 0xE0 ++
        slotEvents ((commandBytes .standard (Cfg.standard.desc .writeScratch) [0x7D, 0xC9, 0x1F]).take 24)
          (writes 3))).ExchangeHangs 0xFF l) :=
  ⟨ends_exists (by decide +kernel), ⟨standard_wf, rfl, rfl, rfl, by simp [hosted]⟩,
    scripted_ready _ _ _, scripted_ready _ _ _, ⟨_, .inl ⟨rfl, rfl⟩⟩, ⟨_, .inr ⟨rfl, rfl, rfl⟩⟩,
    ⟨scripted_echoes _ _ _, rxHanging_hangs (List.replicate 7 0x00) _ _,
      rxHanging_hangs (List.replicate 7 0x00) _ _⟩,
    ⟨_, .inl ⟨rfl, rfl⟩⟩, ⟨_, .inr ⟨rfl, rfl, rfl⟩⟩,
    ⟨rfl, by decide, scripted_echoes _ _ _, by decide +kernel, txHanging_hangs (0xE0 :: writes 3) _ _⟩⟩

/-- The longest round trip, the one with a payload and the one with neither opcode nor response. -/
theorem witness_CommandRoundTripSucceeds :
    (echoing (0xE0 :: writes 10)).Ready ∧ ([] : List Byte).length = (Cfg.standard.desc .readScratch).tx ∧
    (0xE0 : Byte) ≠ Cfg.standard.resetTxByte ∧ (writes 10).length = 8 * (1 + 0 + 9) ∧
    (echoing (0xE0 :: writes 10)).link.Echoes (0xE0 :: writes 10) ∧
    [0x7D, 0xC9, (0x1F : Byte)].length = (Cfg.standard.desc .writeScratch).tx ∧
    (writes 4).length = 8 * (1 + 3 + 0) ∧ (writes 0).length = 8 * (0 + 0 + 0) :=
  ⟨echoing_ready _, rfl, by decide, rfl, echoing_echoes _, rfl, rfl, rfl⟩

theorem witness_CommandPayloadMismatchFailsFast :
    blank.params.wf = true ∧ [(0 : Byte)].length ≠ (blank.params.desc .init).tx ∧
    [0x7D, (0xC9 : Byte)].length ≠ (blank.params.desc .writeScratch).tx :=
  ⟨standard_wf, by decide, by decide⟩

theorem witness_CommandWithoutPresenceFails :
    (echoing [0xF0]).Ready ∧ ([] : List Byte).length = (Cfg.standard.desc .skipRom).tx ∧
    (echoing [0xF0]).link.Echoes [Cfg.standard.resetTxByte] :=
  ⟨echoing_ready _, rfl, echoing_echoes _⟩

theorem witness_CommandResetTransferFailure :
    (txFailing []).Ready ∧ ([] : List Byte).length = (Cfg.standard.desc .readRom).tx ∧
    (∃ l, ((txFailing []).link.afterEvent (.setBaud 9600)).ExchangeFails 0xF0 l) :=
  ⟨scripted_ready _ _ _, rfl, ⟨_, .inl ⟨rfl, rfl⟩⟩⟩

/-- A failure in the first opcode slot, and one in the last read slot. -/
theorem witness_CommandSlotTransferFailure :
    (txFailing [0xE0]).Ready ∧ (0xE0 : Byte) ≠ Cfg.standard.resetTxByte ∧
    (txFailing [0xE0]).link.Echoes [0xE0] ∧
    (commandBytes .standard (Cfg.standard.desc .convertT) [])[0]? = some 0x00 ∧
    (∃ l, ((txFailing [0xE0]).link.after 1 (resetEvents .standard 0xE0 ++
      slotEvents [] [])).ExchangeFails 0x00 l) ∧
    (rxFailing (0xE0 :: List.replicate 79 0x00) 0xFF).link.Echoes (0xE0 :: List.replicate 79 0x00) ∧
    (commandBytes .standard (Cfg.standard.desc .readScratch) [])[79]? = some 0xFF ∧
    (∃ l, ((rxFailing (0xE0 :: List.replicate 79 0x00) 0xFF).link.after 80 (resetEvents .standard 0xE0 ++
      slotEvents ((commandBytes .standard (Cfg.standard.desc .readScratch) []).take 79)
        (List.replicate 79 0x00))).ExchangeFails 0xFF l) :=
  ⟨scripted_ready _ _ _, by decide, scripted_echoes _ _ _, by decide +kernel, ⟨_, .inl ⟨rfl, rfl⟩⟩,
    scripted_echoes _ _ _, by decide +kernel,
    rxFailing_fails (0xE0 :: List.replicate 79 0x00) 0xFF _ _⟩

/-- Exactly five bytes suffice; both signs. -/
theorem witness_KDecodeResult :
    (received 5 [0x5E, 0xFF, 0x7D, 0xC9, 0x1F]).params.wf = true ∧
    5 ≤ (received 5 [0x5E, 0xFF, 0x7D, 0xC9, 0x1F]).rxlen ∧
    (received 5 [0x5E, 0xFF, 0x7D, 0xC9, 0x1F]).rxbuf = 0x5E :: 0xFF :: 0x7D :: 0xC9 :: 0x1F :: [] ∧
    (0x1F : Byte) = (Cfg.standard.row .r9).cfgPat ∧ (0xFF : Byte).getLsbD 7 = true ∧
    (0x7F : Byte) = (Cfg.standard.row .r12).cfgPat ∧ (0x01 : Byte).getLsbD 7 = false :=
  ⟨standard_wf, by decide, rfl, rfl, by decide, rfl, by decide⟩

/-- Four bytes, and a config byte one bit off. -/
theorem witness_DecodeFailureChangesNothing :
    blank.params.wf = true ∧ (received 4 [0x91, 0x01, 0x4B, 0x46]).rxlen < 5 ∧
    (∃ c, (received 9 [0xA2, 0, 0x11, 0x22, 0x1E, 0, 0, 0, 0]).rxbuf[4]? = some c ∧
      ∀ r, c ≠ (Cfg.standard.row r).cfgPat) :=
  ⟨standard_wf, by decide, ⟨0x1E, rfl, by intro r; cases r <;> decide⟩⟩

theorem witness_KEncodeResult :
    (0xFFFFFFE1#32 : Word).extractLsb' 0 6 = 0x21#6 ∧ blank.params.wf = true := ⟨by decide, standard_wf⟩

/-- A known and an unknown config byte. -/
theorem witness_EncodeDecodeRoundTrip :
    blank.params.wf = true ∧ (received 9 [0x50, 0x05, 0x10, 0x20, 0x1F, 0, 0, 0, 0]).params = blank.params ∧
    (∃ t, exec (.kEncode 0x10 0x20 0x1F) blank = .next t ∧
      decide (5 ≤ (received 9 [0x50, 0x05, 0x10, 0x20, 0x1F, 0, 0, 0, 0]).rxlen ∧
        (received 9 [0x50, 0x05, 0x10, 0x20, 0x1F, 0, 0, 0, 0]).rxbuf =
          0x50 :: 0x05 :: (t.txbuf ++ [0, 0, 0, 0])) = true) ∧
    (∃ r, (0x1F : Byte) = (blank.params.row r).cfgPat) ∧
    (∀ r, (0x00 : Byte) ≠ (blank.params.row r).cfgPat) :=
  ⟨standard_wf, rfl, ends_exists (by decide +kernel), ⟨.r9, rfl⟩, by intro r; cases r <;> decide⟩

/-- The lowest value, `0x8000` at 9 bits. -/
theorem witness_DecodedTemperatureIsInRange :
    (received 5 [0x00, 0x80, 0, 0, 0x1F]).Ready ∧ Cfg.standard.signMask = 0xF800#16 ∧
    Cfg.standard.step = 1 / 16 ∧
    (∃ t, exec .kDecode (received 5 [0x00, 0x80, 0, 0, 0x1F]) = .next t ∧
      decide (t.temp ≠ blank.temp ∧ t.temp.toInt = -2048) = true) ∧
    (received 5 [0x00, 0x80, 0, 0, 0x1F]).rxbuf =
      0x00 :: 0x80 :: 0 :: 0 :: (Cfg.standard.row .r9).cfgPat :: [] :=
  ⟨⟨standard_wf, rfl⟩, rfl, by decide +kernel, ends_exists (by decide +kernel), rfl⟩

/-- Every resolution of the default record, and both values of the five top bits. -/
theorem witness_DecodeRoundsTowardMinusInfinity :
    Cfg.standard.wf = true ∧ Cfg.standard.signMask = 0xF800#16 ∧
    (∀ p ∈ [(Resolution.r9, 3), (Resolution.r10, 2), (Resolution.r11, 1), (Resolution.r12, 0)],
      (Cfg.standard.row p.1).dataMask = 0x07FF#16 &&& ~~~(BitVec.ofNat 16 (2 ^ p.2 - 1))) ∧
    (received 5 [0x6F, 0xFE, 0, 0, 0x1F]).rxbuf = 0x6F :: 0xFE :: 0 :: 0 :: 0x1F :: [] ∧
    (0x1F : Byte) = (Cfg.standard.row .r9).cfgPat ∧
    (0xFE : Byte).extractLsb' 3 5 = 31#5 ∧ (0x07 : Byte).extractLsb' 3 5 = 0#5 :=
  ⟨standard_wf, rfl, by decide, rfl, rfl, by decide, by decide⟩

theorem witness_WaitNoneResult :
    (0x00000430#32 : Word).extractLsb' 0 6 = 0x30#6 ∧ (0x00000430#32 : Word).extractLsb' 8 2 = 0#2 ∧
    blank.params.wf = true := ⟨by decide, by decide, standard_wf⟩

theorem witness_WaitDelayOutcome :
    (0x00000230#32 : Word).extractLsb' 0 6 = 0x30#6 ∧ (0x00000230#32 : Word).extractLsb' 8 2 = 2#2 ∧
    blank.Ready ∧ blank.cfg = (blank.params.row .r12).cfgPat ∧
    (∀ r, ({ blank with cfg := 0x1E } : State).cfg ≠ (blank.params.row r).cfgPat) :=
  ⟨by decide, by decide, ⟨standard_wf, rfl⟩, rfl, by intro r; cases r <;> decide⟩

theorem witness_WaitDataFirstPoll :
    (echoing [0xFF]).Ready ∧ (echoing [0xFF]).link.Echoes [Cfg.standard.readTxByte] ∧
    (∃ l, (txFailing []).link.ExchangeFails Cfg.standard.readTxByte l) :=
  ⟨echoing_ready _, echoing_echoes _, ⟨_, .inl ⟨rfl, rfl⟩⟩⟩

/-- A host that writes and pauses, short of a reset. -/
def busyHost : List HostEvent := [.write 0x00000001#32, .pause, .request 0x0000003C#32]

theorem hosted_noReset (s : State) (h : s.link.resetAfter = none) : (hosted busyHost s).NoReset :=
  ⟨h, by simp [hosted, busyHost]⟩

/-- The last poll the limit allows. -/
theorem witness_WaitDataEndsAtTheFirstOne :
    (let s := hosted busyHost (limited 3 (echoing [0x00, 0xFE, 0xFF]))
     s.Ready ∧ s.NoReset ∧ (∀ z ∈ [0x00, (0xFE : Byte)], z ≠ s.params.readTxByte) ∧
      (∀ limit, s.params.pollLimit = some limit → [0x00, (0xFE : Byte)].length < limit) ∧
      s.link.Echoes ([0x00, 0xFE] ++ [s.params.readTxByte])) :=
  ⟨⟨by decide, rfl⟩, hosted_noReset _ rfl, by decide, by intro l h; cases h; decide,
    echoing_echoes [0x00, 0xFE, 0xFF]⟩

theorem witness_WaitDataHangsWhileEveryPollReadsZero :
    (hosted [.write 0x00000001#32] (echoing [0x00, 0x00])).Ready ∧ Cfg.standard.pollLimit = none ∧
    (∀ y ∈ [0x00, (0x00 : Byte)], y ≠ Cfg.standard.readTxByte) ∧
    (hosted [.write 0x00000001#32] (echoing [0x00, 0x00])).link.Echoes [0x00, 0x00] ∧
    (hosted [.write 0x00000001#32] (echoing [0x00, 0x00])).NoReset ∧
    (hosted [.reset] (echoing [0x00, 0x00])).host = .reset :: [] :=
  ⟨⟨standard_wf, rfl⟩, rfl, by decide, echoing_echoes _, ⟨rfl, by simp [hosted]⟩, rfl⟩

theorem witness_WaitDataFailsAtAFailingPoll :
    (let s := hosted busyHost (limited 2 (rxFailing [0x00] 0x00))
     s.Ready ∧ s.NoReset ∧ (∀ z ∈ [(0x00 : Byte)], z ≠ s.params.readTxByte) ∧
      (∀ limit, s.params.pollLimit = some limit → [(0x00 : Byte)].length < limit) ∧
      s.link.Echoes [0x00] ∧
      ∃ l, (s.link.after 1 (slotEvents (List.replicate 1 0xFF) [0x00])).ExchangeFails 0xFF l) :=
  ⟨⟨by decide, rfl⟩, hosted_noReset _ rfl, by decide, by intro l h; cases h; decide,
    scripted_echoes [0x00] [.ok] [.got 0x00 .fail], ⟨_, .inr ⟨0x00, rfl, rfl, rfl⟩⟩⟩

/-- The limits 1 and 3. -/
theorem witness_WaitDataTimesOutAtTheLimit :
    (let s := limited 1 (echoing [0x00])
     s.Ready ∧ s.NoReset ∧ s.params.pollLimit = some (([] : List Byte).length + 1) ∧ s.link.Echoes [0x00]) ∧
    (let s := hosted busyHost (limited 3 (echoing [0x00, 0xFE, 0x7F]))
     s.Ready ∧ s.NoReset ∧ s.params.pollLimit = some ([0xFE, (0x7F : Byte)].length + 1) ∧
      (∀ y ∈ [0x00, 0xFE, (0x7F : Byte)], y ≠ s.params.readTxByte) ∧
      s.link.Echoes [0x00, 0xFE, 0x7F]) :=
  ⟨⟨⟨by decide, rfl⟩, ⟨rfl, by simp [limited, echoing, scripted, blank]⟩, rfl, echoing_echoes _⟩,
    ⟨by decide, rfl⟩, hosted_noReset _ rfl, rfl, by decide, echoing_echoes _⟩

/-- Every end of a poll after two that read 0, below and at the limit 3, under a host that writes; a reset due at the
transmit, at the receive, at the receive that a failed transmit suppresses, and after the poll. -/
theorem witness_StepOfAPollingBlock :
    (∀ es ∈ [[0xFF], [(0x00 : Byte)]],
      let s := hosted [.write 0x00000001#32] (pollingAfter 2 (echoing es))
      s.params.wf = true ∧ s.busy = true ∧ s.seq = .polling 2 ∧ (∀ rest, s.host ≠ .reset :: rest) ∧
        s.whileBusy.link.resetAfter = none ∧ s.whileBusy.link.Echoes es ∧
        s.params.pollLimit ≠ some (2 + 1)) ∧
    (let s := pollingAfter 2 (limited 3 (echoing [0x00]))
     s.params.wf = true ∧ s.params.pollLimit = some (2 + 1) ∧ s.whileBusy.link.Echoes [0x00]) ∧
    (∃ l, (pollingAfter 2 (txFailing [])).whileBusy.link.ExchangeFails 0xFF l) ∧
    (∃ l, (pollingAfter 2 (rxHanging [])).whileBusy.link.ExchangeHangs 0xFF l) ∧
    (hosted [.resetAfter 0] (pollingAfter 2 blank)).whileBusy.link.resetAfter = some 0 ∧
    (let s := hosted [.resetAfter 1] (pollingAfter 2 (echoing [0xFF]))
     s.whileBusy.link.resetAfter = some 1 ∧ s.whileBusy.link.txAt 0 = .ok) ∧
    (let s := pollingAfter 2 (dueAfter 1 (txFailing []))
     s.whileBusy.link.resetAfter = some 1 ∧ s.whileBusy.link.txAt 0 ≠ .ok) ∧
    (pollingAfter 2 (dueAfter 2 (echoing [0xFF]))).whileBusy.link.resetAfter = some 2 := by
  refine ⟨?_, ⟨by decide, rfl, echoing_echoes _⟩, ⟨_, .inl ⟨rfl, rfl⟩⟩, ⟨_, .inr ⟨rfl, rfl, rfl⟩⟩, rfl,
    ⟨rfl, rfl⟩, ⟨rfl, by decide⟩, rfl⟩
  intro es _
  exact ⟨standard_wf, rfl, rfl, by simp [hosted], rfl, echoing_echoes es, nofun⟩

theorem witness_SReadromSucceeds :
    (echoing (0xE0 :: writes 9)).Ready ∧ (0xE0 : Byte) ≠ Cfg.standard.resetTxByte ∧
    (writes 9).length = 8 * (1 + Cfg.standard.romRxLen) ∧
    (echoing (0xE0 :: writes 9)).link.Echoes (0xE0 :: writes 9) :=
  ⟨echoing_ready _, by decide, rfl, echoing_echoes _⟩

/-- The round trip can succeed, and it can fail. -/
theorem witness_SReadromIsTheRoundTripThenTheCopy :
    (0x000000FC#32 : Word).extractLsb' 0 6 = 0x3C#6 ∧ (echoing (0xE0 :: writes 9)).Ready ∧
    (∃ t, exec (.cReadrom []) (echoing (0xE0 :: writes 9)) = .next t ∧
      decide (t.busy = false ∧ t.failFlag = false) = true) ∧
    (∃ t, exec (.cReadrom []) (echoing [0xF0]) = .next t ∧
      decide (t.busy = false ∧ t.failFlag = true) = true) :=
  ⟨by decide, echoing_ready _, ends_exists (by decide +kernel), ends_exists (by decide +kernel)⟩

theorem witness_SSkipromSucceeds :
    (echoing (0xE0 :: writes 1)).Ready ∧ (0xE0 : Byte) ≠ Cfg.standard.resetTxByte ∧
    (writes 1).length = 8 ∧ (echoing (0xE0 :: writes 1)).link.Echoes (0xE0 :: writes 1) :=
  ⟨echoing_ready _, by decide, rfl, echoing_echoes _⟩

theorem witness_SInitializeSucceeds :
    (echoing (0xE0 :: 0x00 :: writes 9)).Ready ∧ (0xE0 : Byte) ≠ Cfg.standard.resetTxByte ∧
    (0x00 : Byte) ≠ Cfg.standard.resetTxByte ∧ (writes 9).length = 8 * (1 + Cfg.standard.romRxLen) ∧
    (echoing (0xE0 :: 0x00 :: writes 9)).link.Echoes (0xE0 :: 0x00 :: writes 9) :=
  ⟨echoing_ready _, by decide, by decide, rfl, echoing_echoes _⟩

/-- The five failing rows of R191's table; the last at its first and its last slot. -/
theorem witness_SInitializeFailures :
    (∃ l, ((txFailing []).link.afterEvent (.setBaud 9600)).ExchangeFails 0xF0 l) ∧
    (echoing [0xF0]).link.Echoes [Cfg.standard.resetTxByte] ∧
    ((txFailing [0xE0]).link.Echoes [0xE0] ∧
      ∃ l, (((txFailing [0xE0]).link.after 1 (resetEvents .standard 0xE0)).afterEvent
        (.setBaud 9600)).ExchangeFails 0xF0 l) ∧
    (echoing [0xE0, 0xF0]).link.Echoes [0xE0, Cfg.standard.resetTxByte] ∧
    ((txFailing [0xE0, 0xE0]).link.Echoes (0xE0 :: 0xE0 :: []) ∧
      (commandBytes .standard (Cfg.standard.desc .readRom) [])[0]? = some 0xFF ∧
      ∃ l, ((txFailing [0xE0, 0xE0]).link.after 2 (resetEvents .standard 0xE0 ++
        (resetEvents .standard 0xE0 ++ slotEvents [] []))).ExchangeFails 0xFF l) ∧
    ((rxFailing (0xE0 :: 0xE0 :: List.replicate 71 0x00) 0x00).link.Echoes
        (0xE0 :: 0xE0 :: List.replicate 71 0x00) ∧
      (commandBytes .standard (Cfg.standard.desc .readRom) [])[71]? = some 0xFF ∧
      ∃ l, ((rxFailing (0xE0 :: 0xE0 :: List.replicate 71 0x00) 0x00).link.after 73
        (resetEvents .standard 0xE0 ++ (resetEvents .standard 0xE0 ++
          slotEvents ((commandBytes .standard (Cfg.standard.desc .readRom) []).take 71)
            (List.replicate 71 0x00)))).ExchangeFails 0xFF l) :=
  ⟨⟨_, .inl ⟨rfl, rfl⟩⟩, echoing_echoes _, ⟨scripted_echoes _ _ _, ⟨_, .inl ⟨rfl, rfl⟩⟩⟩,
    echoing_echoes _, ⟨scripted_echoes _ _ _, by decide +kernel, ⟨_, .inl ⟨rfl, rfl⟩⟩⟩,
    ⟨scripted_echoes _ _ _, by decide +kernel,
      rxFailing_fails (0xE0 :: 0xE0 :: List.replicate 71 0x00) 0x00 _ _⟩⟩

/-- Each end of the expansion: a hung, a failed and an absent reset; then a Read-ROM hung, failed and complete. -/
theorem witness_SInitializeIsItsExpansion :
    (txHanging []).Ready ∧
    (∃ t, exec .tReset (txHanging []) = .next t ∧ decide (t.busy = true) = true) ∧
    (∃ t, exec .tReset (txFailing []) = .next t ∧
      decide (t.busy = false ∧ t.failFlag = true) = true) ∧
    (∃ t, exec .tReset (echoing [0xF0]) = .next t ∧
      decide (t.busy = false ∧ t.failFlag = false ∧ t.rdata = 0) = true) ∧
    (∀ s ∈ [txHanging [0xE0], txFailing [0xE0], echoing (0xE0 :: 0xE0 :: writes 9)],
      ends .tReset s (fun t => t.busy = false ∧ t.failFlag = false ∧ t.rdata ≠ 0) = true) ∧
    (ends .sInitialize (txHanging [0xE0]) (fun t => t.busy = true ∧ t.status = 0b0000#4) = true) ∧
    (ends .sInitialize (txFailing [0xE0]) (fun t => t.busy = false ∧ t.failFlag = true) = true) ∧
    (ends .sInitialize (echoing (0xE0 :: 0xE0 :: writes 9))
      (fun t => t.busy = false ∧ t.failFlag = false) = true) :=
  ⟨scripted_ready _ _ _, ends_exists (by decide +kernel), ends_exists (by decide +kernel),
    ends_exists (by decide +kernel), by decide +kernel, by decide +kernel, by decide +kernel,
    by decide +kernel⟩

/-- The echoes of two commands without a response. -/
def twoCommands : List Byte := 0xE0 :: writes 1 ++ 0xE0 :: writes 1

theorem witness_SConvertOutcome :
    (echoing (twoCommands ++ [0xFF])).Ready ∧ (0xE0 : Byte) ≠ Cfg.standard.resetTxByte ∧
    (writes 1).length = 8 ∧ (echoing (twoCommands ++ [0xFF])).link.Echoes twoCommands ∧
    (echoing (twoCommands ++ [0xFF])).link.Echoes (twoCommands ++ [Cfg.standard.readTxByte]) ∧
    (echoing (twoCommands ++ [0xFF])).cfg = (Cfg.standard.row .r12).cfgPat ∧
    (∀ r, ({ echoing twoCommands with cfg := 0x00 } : State).cfg ≠ (Cfg.standard.row r).cfgPat) :=
  ⟨echoing_ready _, by decide, rfl, (echoing_echoes _).left, echoing_echoes _, rfl,
    by intro r; cases r <;> decide⟩

/-- One poll that reads 0 and then a 1, at the smallest limit that allows it. -/
theorem witness_SConvertDataGoesOnPolling :
    (let s := hosted busyHost (limited 2 (echoing (twoCommands ++ [0x00, 0xFF])))
     s.Ready ∧ s.NoReset ∧ (0xE0 : Byte) ≠ s.params.resetTxByte ∧ (writes 1).length = 8 ∧
      (∀ y ∈ [(0x00 : Byte)], y ≠ s.params.readTxByte) ∧
      (∀ limit, s.params.pollLimit = some limit → ([] : List Byte).length + 1 < limit) ∧
      s.link.Echoes (twoCommands ++ 0x00 :: [] ++ [s.params.readTxByte])) :=
  ⟨⟨by decide, rfl⟩, hosted_noReset _ rfl, by decide, rfl, by decide, by intro l h; cases h; decide,
    echoing_echoes (twoCommands ++ [0x00, 0xFF])⟩

/-- A response with a known config byte, one with an unknown one, and a record with a response of four bytes. -/
theorem witness_SReadscratchOutcome :
    (echoing (twoCommands ++ writes 9)).Ready ∧ (0xE0 : Byte) ≠ Cfg.standard.resetTxByte ∧
    (writes 1).length = 8 ∧ (writes 1 ++ writes 9).length = 8 * (1 + Cfg.standard.scratchRxLen) ∧
    (echoing (twoCommands ++ writes 9)).link.Echoes
      (0xE0 :: writes 1 ++ 0xE0 :: (writes 1 ++ writes 9)) ∧
    (∃ t, exec .sReadscratch (echoing (twoCommands ++
        [0x91, 0x01, 0x4B, 0x46, 0x7F, 0xFF, 0x0F, 0x10, 0x00].flatMap echoesOf)) = .next t ∧
      decide (t.rxbuf = 0x91 :: 0x01 :: 0x4B :: 0x46 :: 0x7F :: [0xFF, 0x0F, 0x10, 0x00] ∧
        0x7F = (t.params.row .r12).cfgPat) = true) ∧
    (∃ t, exec .sReadscratch (echoing (twoCommands ++ writes 9)) = .next t ∧
      decide (t.rxbuf[4]? = some 0x00) = true) ∧
    (∀ r, (0x00 : Byte) ≠ (Cfg.standard.row r).cfgPat) ∧
    (Cfg.wf { Cfg.standard with scratchRxLen := 4 } = true ∧
      Cfg.scratchRxLen { Cfg.standard with scratchRxLen := 4 } < 5) :=
  ⟨echoing_ready _, by decide, rfl, rfl, echoing_echoes (twoCommands ++ writes 9),
    ends_exists (by decide +kernel), ends_exists (by decide +kernel), by intro r; cases r <;> decide,
    by decide, by decide⟩

theorem witness_SWritescratchSucceeds :
    (echoing (0xE0 :: writes 1 ++ 0xE0 :: writes 4)).Ready ∧ (0xE0 : Byte) ≠ Cfg.standard.resetTxByte ∧
    (writes 1).length = 8 ∧ (writes 4).length = 32 ∧
    (echoing (0xE0 :: writes 1 ++ 0xE0 :: writes 4)).link.Echoes
      (0xE0 :: writes 1 ++ 0xE0 :: writes 4) :=
  ⟨echoing_ready _, by decide, rfl, rfl, echoing_echoes _⟩

theorem witness_SixCompositesAreTheirExpansions : (echoing twoCommands).Ready := echoing_ready _

theorem blank_inv : blank.Inv := by
  refine ⟨?_, rfl, rfl, ?_, rfl, .inl rfl, fun _ => rfl, fun _ h => ?_, fun n limit h _ => ?_⟩
  · unfold State.StatusConsistent; decide
  · decide
  · cases h
  · cases h

/-- An idle block, and one in its last allowed poll. -/
theorem witness_StepKeepsTheInvariant :
    blank.Inv ∧ step blank = .next blank ∧
    (let s := { limited 3 (echoing [0x00]) with busy := true, seq := .polling 2 }
     s.Inv ∧ ∃ t, step s = .next t ∧ decide (t.busy = false ∧ t.status = 0b1111#4) = true) := by
  refine ⟨blank_inv, by rfl, ?_, stepEnds_exists (by decide +kernel)⟩
  refine ⟨?_, rfl, rfl, by decide, rfl, .inl rfl, fun h => ?_, fun _ h => ?_, fun n limit h hl => ?_⟩
  · unfold State.StatusConsistent; decide
  · cases h
  · cases h
  · cases h; cases hl; decide

theorem witness_StepKeepsADecodedReading :
    blank.Decoded ∧ blank.NoReset ∧ step blank = .next blank :=
  ⟨⟨.r12, by decide, by decide⟩, ⟨rfl, by simp [blank]⟩, by rfl⟩

theorem witness_DelayCannotFailAfterADecode :
    blank.Ready ∧
    (∃ t, exec .kDecode blank = .next t ∧ decide (t.busy = false ∧ t.failFlag = false) = true) ∧
    (∃ t, exec .sReadscratch (echoing (twoCommands ++
        [0x91, 0x01, 0x4B, 0x46, 0x7F, 0xFF, 0x0F, 0x10, 0x00].flatMap echoesOf)) = .next t ∧
      decide (t.busy = false ∧ t.failFlag = false) = true) :=
  ⟨⟨standard_wf, rfl⟩, ends_exists (by decide +kernel), ends_exists (by decide +kernel)⟩

theorem witness_FailureKeepsTheSensorRegisters :
    (echoing [0xF0]).Ready ∧
    (∃ t, exec .sInitialize (echoing [0xF0]) = .next t ∧
      decide (t.busy = false ∧ t.failFlag = true) = true) ∧
    (∃ t, exec .kDecode (received 4 []) = .next t ∧
      decide (t.busy = false ∧ t.failFlag = true) = true) :=
  ⟨echoing_ready _, ends_exists (by decide +kernel), ends_exists (by decide +kernel)⟩

theorem witness_CausesAreThoseOfTheTable :
    (limited 1 (echoing [0x00])).Ready ∧
    (∃ t, exec .wWaitData (limited 1 (echoing [0x00])) = .next t ∧
      decide (t.busy = false ∧ t.causeField = Cause.timeout.code) = true) ∧
    (∃ t, exec .wWaitDelay blank = .next t ∧ decide (t.busy = false ∧ t.status = 0b0000#4) = true) :=
  ⟨⟨by decide, rfl⟩, ends_exists (by decide +kernel), ends_exists (by decide +kernel)⟩

/-- For each register that a clause names, an operation that changes it. -/
theorem witness_OnlyTheNamedOperationsWrite :
    (∃ t, exec .tRbit (echoing [0xFF]) = .next t ∧ decide (t.rdata ≠ blank.rdata) = true) ∧
    (∃ t, exec .sReadrom (echoing (0xE0 :: writes 9)) = .next t ∧ decide (t.sn ≠ blank.sn) = true) ∧
    (∃ t, exec .sInitialize (echoing [0xF0]) = .next t ∧
      decide (t.initialized ≠ blank.initialized) = true) ∧
    (∃ t, exec (.kEncode 1 2 3) blank = .next t ∧
      decide (t.txbuf ≠ blank.txbuf ∧ t.txlen ≠ blank.txlen) = true) ∧
    (∃ t, exec .kDecode (received 5 [0x00, 0x80, 0, 0, 0x1F]) = .next t ∧
      decide (t.temp ≠ blank.temp ∧ t.th ≠ blank.th ∧ t.tl ≠ blank.tl ∧ t.cfg ≠ blank.cfg) = true) :=
  ⟨ends_exists (by decide +kernel), ends_exists (by decide +kernel), ends_exists (by decide +kernel),
    ends_exists (by decide +kernel), ends_exists (by decide +kernel)⟩

theorem witness_DataRateIsRestored :
    (txFailing []).Ready ∧
    (∃ t, exec .tReset (txFailing []) = .next t ∧ decide (t.busy = false ∧ t.baudsel = .data) = true) ∧
    (∃ t, exec .wWaitNone blank = .next t ∧
      decide (t.busy = false ∧ t.baudsel = blank.baudsel) = true) :=
  ⟨scripted_ready _ _ _, ends_exists (by decide +kernel), ends_exists (by decide +kernel)⟩

theorem witness_TraceOnlyGrows :
    ∃ t, step (hosted [.request 0x00000001#32] (echoing [0xE0])) = .next t ∧
      decide (t.link.trace.length = 4) = true := stepEnds_exists (by decide +kernel)

theorem witness_UnreadRegistersDoNotMatter :
    blank.SameInputs { blank with temp := 0, rdata := 0, baudsel := .data, sn := [], th := 0, tl := 0 } ∧
    (∃ t, exec .wWaitDelay blank = .next t ∧ decide (t.busy = false) = true) :=
  ⟨⟨rfl, rfl, rfl, rfl, rfl, rfl⟩, ends_exists (by decide +kernel)⟩

/-- A block that has accepted a request. -/
def accepted (w : Word) (s : State) : State := { s with req := w, busy := true }

/-- The last event inside a `T.RESET`, the first two of a `C.SKIPROM`, and a first poll that reads 0 with no limit. -/
theorem witness_HostReadsEveryRegister :
    (((accepted 0x00000001#32 (echoing [0xE0])).inside 3).isSome = true) ∧
    (let s := accepted 0x00000012#32 (echoing (0xE0 :: writes 1))
     s.Ready ∧ s.busy = true ∧ s.seq = .idle ∧ decode s.req = .ok (requestOf .skipRom []) ∧
      ([] : List Byte).length = (s.params.desc .skipRom).tx) ∧
    (echoing (twoCommands ++ [0x00])).Ready ∧ (0xE0 : Byte) ≠ Cfg.standard.resetTxByte ∧
    (writes 1).length = 8 ∧ (0x00 : Byte) ≠ Cfg.standard.readTxByte ∧ Cfg.standard.pollLimit ≠ some 1 ∧
    (echoing (twoCommands ++ [0x00])).link.Echoes (twoCommands ++ [0x00]) :=
  ⟨by decide +kernel, ⟨echoing_ready _, rfl, rfl, rfl, rfl⟩, echoing_ready _, by decide, rfl, by decide,
    by decide, echoing_echoes _⟩

/-- A hung reset between two steps: `BUSY`, the code of `BAUDSEL` (R31), and places in and beyond arrays. -/
theorem test_host_reads_a_hung_reset : ends .tReset (txHanging []) (fun t =>
    t.hostRead .busy = some 1 ∧ t.hostRead .baudsel = some 1 ∧ t.hostRead .req = some 0 ∧
    t.hostRead (.rxbuf 4) = some 0x7F ∧ t.hostRead (.sn 6) = none) = true := by decide +kernel

/-- `BAUDSEL` and `CONNECTED` change inside `Reset()`, and the operation has no fifth event (R123, R250). -/
theorem test_host_reads_inside_a_reset :
    (let s := accepted 0x00000001#32 (echoing [0xE0])
     s.hostReadInside 0 .baudsel = some 0 ∧ s.hostReadInside 1 .baudsel = some 1 ∧
      s.hostReadInside 2 .connected = some 0 ∧ s.hostReadInside 3 .busy = some 1 ∧
      s.hostReadInside 4 .busy = none) := by decide +kernel

theorem witness_IllFormedRecordIsRefused :
    ({ blank with params := { Cfg.standard with w0Byte := 0xFF } } : State).params.wf = false := by decide

end Sys2Proof.Tests
end

section
/-! The encoding family: what the decoder ignores (30_encoding.md R87) and what it rejects (R88). -/

namespace Sys2Proof

open Machine

/-! ### Words that agree on the bits a row uses -/

/-- Every row uses the selector (R83). -/
theorem usedBits_opsel (i : Instr) : ∀ k, k < 6 → (usedBits i).getLsbD k = true := by
  have payload (p : List Byte) : ∀ k, k < 6 → (usedBits.payloadBits p).getLsbD k = true := by
    unfold usedBits.payloadBits
    split <;> decide
  cases i
  case cInit p | cReadrom p | cSkiprom p | cConvertt p | cRscratch p | cWscratch p => exact payload p
  all_goals simp only [usedBits]; decide

theorem agree_opsel {w w' : Word} {i : Instr} (h : w &&& usedBits i = w' &&& usedBits i) :
    (Fields.ofWord w).opsel = (Fields.ofWord w').opsel :=
  agree_field h fun k hk => usedBits_opsel i _ (by omega)

/-- Words that agree under a mask that covers `ARG0[0]` have the same `BIT` (R82 (a)). -/
theorem agree_bit {w w' m : Word} (h : w &&& m = w' &&& m) (hm : m.getLsbD 8 = true) :
    (Fields.ofWord w).bit = (Fields.ofWord w').bit := by
  have hb := congrArg (·.getLsbD 8) h
  simp only [BitVec.getLsbD_and, hm, Bool.and_true] at hb
  simpa [Fields.bit, Fields.ofWord] using hb

/-- Words that agree under a mask that covers `ARG0[1:0]` have the same `STRAT` (R82 (c)). -/
theorem agree_strat {w w' m : Word} (h : w &&& m = w' &&& m)
    (hm : ∀ k, k < 2 → m.getLsbD (8 + k) = true) :
    (Fields.ofWord w).strat = (Fields.ofWord w').strat := by
  rw [strat_ofWord, strat_ofWord, agree_field h hm]

/-- Words that agree on the three argument bytes have the same ones (R82 (d)). -/
theorem agree_args {w w' : Word} (h : w &&& 0xFFFFFF3F = w' &&& 0xFFFFFF3F) :
    (Fields.ofWord w).arg0 = (Fields.ofWord w').arg0 ∧
      (Fields.ofWord w).arg1 = (Fields.ofWord w').arg1 ∧
      (Fields.ofWord w).arg2 = (Fields.ofWord w').arg2 :=
  ⟨agree_field h (by decide), agree_field h (by decide), agree_field h (by decide)⟩

/-- Whether a word's fields match a request depends on the bits that the request's row uses alone (R87). -/
theorem matches_of_agree {w w' : Word} {i : Instr} (h : w &&& usedBits i = w' &&& usedBits i)
    (hi : i.Matches (Fields.ofWord w)) : i.Matches (Fields.ofWord w') := by
  have ho := (agree_opsel h).symm
  cases i
  case tWbit =>
    obtain ⟨hop, hbit⟩ := hi
    exact ⟨ho.trans hop, (agree_bit (m := 0x0000013F) h (by decide)).symm.trans hbit⟩
  case tWbyte =>
    obtain ⟨hop, harg⟩ := hi
    exact ⟨ho.trans hop, (agree_field (m := 0x0000FF3F) h (by decide)).symm.trans harg⟩
  case cInit | cReadrom | cSkiprom | cConvertt | cRscratch | cWscratch =>
    obtain ⟨hop, rfl⟩ := hi
    exact ⟨ho.trans hop, (agree_payload h).2⟩
  case kEncode | sWritescratch =>
    obtain ⟨h0, h1, h2⟩ := agree_args h
    obtain ⟨hop, hth, htl, hcfg⟩ := hi
    exact ⟨ho.trans hop, h0.symm.trans hth, h1.symm.trans htl, h2.symm.trans hcfg⟩
  case wWaitNone | wWaitData | wWaitDelay | sConvertNone | sConvertData | sConvertDelay =>
    obtain ⟨hop, hstrat⟩ := hi
    exact ⟨ho.trans hop, (agree_strat h (by decide)).symm.trans hstrat⟩
  case tReset | tRbit | tRbyte | kDecode | sInitialize | sReadscratch | sReadrom | sSkiprom =>
    exact ho.trans hi

/-! ### The bits the assembler leaves at 0 -/

/-- A field that shares no bit with the mask's same field: no bit of the word in that place is set in both. -/
theorem field_bit_eq_false {len st : Nat} {x : BitVec len} {m : Word} (h : x &&& m.extractLsb' st len = 0)
    (k : Nat) (hk : st ≤ k ∧ k < st + len) : (x.getLsbD (k - st) && m.getLsbD k) = false := by
  have hb := congrArg (·.getLsbD (k - st)) h
  have hlt : k - st < len := by omega
  simpa [hlt, Nat.add_sub_cancel' hk.1] using hb

/-- The word of some fields shares no bit with a mask when no field does with the mask's same field. -/
theorem toWord_and_eq_zero {f : Fields} {m : Word} (hop : f.opsel &&& m.extractLsb' 0 6 = 0)
    (hplen : f.plen &&& m.extractLsb' 6 2 = 0) (h0 : f.arg0 &&& m.extractLsb' 8 8 = 0)
    (h1 : f.arg1 &&& m.extractLsb' 16 8 = 0) (h2 : f.arg2 &&& m.extractLsb' 24 8 = 0) :
    f.toWord &&& m = 0 := by
  apply BitVec.eq_of_getLsbD_eq
  intro k hk
  rw [BitVec.getLsbD_and, toWord_getLsbD, BitVec.ofNat_eq_ofNat, BitVec.getLsbD_zero]
  split
  · exact field_bit_eq_false hop k (by omega)
  split
  · exact field_bit_eq_false hplen k (by omega)
  split
  · exact field_bit_eq_false h0 k (by omega)
  split
  · exact field_bit_eq_false h1 k (by omega)
  · exact field_bit_eq_false h2 k (by omega)

/-- A request without operands has its selector alone (R103). -/
theorem plainFields_unused (o : BitVec 6) : (plainFields o).toWord &&& ~~~(0x3F : Word) = 0 := by
  apply toWord_and_eq_zero <;> simp [plainFields]

/-- `ARGk` with `k ≥ PLEN` is 0 in the word of a payload (R82 (e), R103). -/
theorem payloadFields_unused {p : List Byte} (hp : payloadFits p = true) (o : BitVec 6) :
    (payloadFields o p).toWord &&& ~~~(usedBits.payloadBits p) = 0 := by
  have hlen : p.length ≤ 3 := by simpa [payloadFits] using hp
  match p, hlen with
  | [], _ | [_], _ | [_, _], _ | [_, _, _], _ =>
    apply toWord_and_eq_zero <;> simp [payloadFields, usedBits.payloadBits]

/-- `PLEN` is 0 in the word of three argument bytes (R103). -/
theorem argFields_unused (o : BitVec 6) (a b c : Byte) :
    (argFields o a b c).toWord &&& ~~~(0xFFFFFF3F : Word) = 0 := by
  apply toWord_and_eq_zero <;> simp [argFields]

/-- The assembler writes every bit that the row does not use as 0 (R87, R103). -/
theorem encode_unused {i : Instr} (hi : i.wf = true) : encode i &&& ~~~(usedBits i) = 0 := by
  cases i <;> simp only [encode, encodeFields, usedBits]
  case tWbit b => cases b <;> apply toWord_and_eq_zero <;> simp [argFields]
  case tWbyte | wWaitNone | wWaitData | wWaitDelay | sConvertNone | sConvertData | sConvertDelay =>
    apply toWord_and_eq_zero <;> simp [argFields]
  case cInit | cReadrom | cSkiprom | cConvertt | cRscratch | cWscratch => exact payloadFields_unused hi _
  case kEncode | sWritescratch => exact argFields_unused _ _ _ _
  case tReset | tRbit | tRbyte | kDecode | sInitialize | sReadscratch | sReadrom | sSkiprom =>
    exact plainFields_unused _

/-- Settles O3: the decoder's match reads used bits only, and the encoder's fields are 0 outside them. -/
theorem unusedFieldsAreIgnored : Obligations.UnusedFieldsAreIgnored := by
  unfold Obligations.UnusedFieldsAreIgnored
  refine ⟨fun w w' i hd h => ?_, fun i hi => encode_unused hi⟩
  rw [decode_ok_iff] at hd ⊢
  exact matches_of_agree h hd

/-! ### Illegal words -/

/-- Of the four values of `STRAT`, 3 alone picks no request (R84). -/
theorem byStrategy_error_iff {n : Nat} (hn : n < 4) (a b c : Instr) :
    (∃ e, byStrategy n a b c = .error e) ↔ n = 3 := by
  obtain rfl | rfl | rfl | rfl : n = 0 ∨ n = 1 ∨ n = 2 ∨ n = 3 := by omega
  all_goals simp [byStrategy]

theorem strat_lt (f : Fields) : f.strat < 4 := (f.arg0.extractLsb' 0 2).isLt

/-- The decoder rejects exactly the fields with a reserved selector or a reserved strategy (R88). -/
theorem decodeFields_error_iff (f : Fields) : (∃ e, decodeFields f = .error e) ↔
    (f.opsel.toNat ∉
        [0x01, 0x02, 0x03, 0x04, 0x05, 0x10, 0x11, 0x12, 0x13, 0x14, 0x15, 0x20, 0x21, 0x30,
         0x38, 0x39, 0x3A, 0x3B, 0x3C, 0x3D] ∨
      (f.opsel.toNat ∈ [0x30, 0x39] ∧ f.strat = 3)) := by
  unfold decodeFields
  split
  case h_14 hop | h_16 hop => simp [hop, byStrategy_error_iff (strat_lt f)]
  case h_21 => simp_all
  all_goals simp [*]

namespace Machine

/-- A request that does not decode completes with `ILLEGAL` and does nothing else (R88, R216). -/
theorem runRequest_illegal {s : State} {e : Illegal} (hwf : s.params.wf = true)
    (hd : decode s.req = .error e) : runRequest s = .next (s.complete (statusFailure .illegal)) := by
  unfold runRequest
  rw [hd]
  exact perform_fail hwf (throw_run _ _)

end Machine

/-- Settles O5: the decoder's rejections by selector and strategy, and the end of an illegal request. -/
theorem illegalWordsFailWithIllegal : Obligations.IllegalWordsFailWithIllegal := by
  unfold Obligations.IllegalWordsFailWithIllegal
  refine fun w => ⟨?_, ?_⟩
  · rw [← strat_ofWord]
    exact decodeFields_error_iff (Fields.ofWord w)
  · rintro ⟨e, he⟩ s hwf rfl
    exact runRequest_illegal hwf he

end Sys2Proof
end

section
/-! The transceiver family: the requests of the Bus Transceiver end as 40_transceiver.md R121 to R132 say. -/

namespace Sys2Proof.Machine

variable {α : Type}

/-! ### Slots that all answer, and slots of which one fails -/

/-- Slots that are all answered give their result on the echoes (R121). -/
theorem slotsThen_echoes {s : State} (h : s.link.resetAfter = none) {bs es : List Byte}
    (hl : bs.length = es.length) (he : s.link.Echoes es) (f : List Byte → α) :
    slotsThen bs f s = .ok (f es) (s.setLink (s.link.after bs.length (slotEvents bs es))) :=
  slotsThen_ok (slots_ok h bs es hl he)

/-- Slots of which the first `es.length` are answered and the next exchange fails end there (R129, R131). -/
theorem slotsThen_fails {s : State} (h : s.link.resetAfter = none) {bs es : List Byte} {b : Byte}
    (hb : bs[es.length]? = some b) (he : s.link.Echoes es) {l : Link}
    (hf : (s.link.after es.length (slotEvents (bs.take es.length) es)).ExchangeFails b l)
    (f : List Byte → α) : slotsThen bs f s = .error (.fail .transfer) (s.setLink l) := by
  obtain ⟨hsplit, hlen⟩ := split_at_getElem? hb
  have hstop := slots_fails h (bs.take es.length) es (bs.drop (es.length + 1)) b hlen he
    (by rwa [hlen])
  exact slotsThen_error (hsplit ▸ hstop)

/-- Slot `k` of a byte transmits the byte of its bit `k` (R92, R129). -/
theorem wireBytes_getElem? (c : Cfg) (v : Byte) {k : Nat} (hk : k < 8) :
    (wireBytes c v)[k]? = some (wireByte c (v.getLsbD k)) := by
  simp [wireBytes, wireByte, hk]

/-- A read slot whose exchange fails reads no bit (R127). -/
theorem readBit_fails {s : State} (h : s.link.resetAfter = none) {l : Link}
    (hf : s.link.ExchangeFails s.params.readTxByte l) :
    readBit s = .error (.fail .transfer) (s.setLink l) := by
  rw [readBit, get_bind]
  exact bind_error (slot_fails h _ hf)

/-- `zext_8` of a test (R122, R128). -/
theorem zext8_decide (p : Prop) [Decidable p] : zext8 (decide p) = if p then 1 else 0 := by
  simp [zext8]

/-! ### `T.RESET` -/

theorem procTReset_ok {s : State} (h : s.link.resetAfter = none) {e : Byte} (he : s.link.Echoes [e]) :
    procTReset s = .ok () ((s.afterReset (present s.params e)
      (s.link.after 1 (resetEvents s.params e))).setRdata (zext8 (present s.params e))) :=
  bind_ok (busReset_ok h he.head.1 he.head.2)

theorem procTReset_fails {s : State} (h : s.link.resetAfter = none) {l : Link}
    (hf : (s.link.afterEvent (.setBaud s.params.baudReset)).ExchangeFails s.params.resetTxByte l) :
    procTReset s = .error (.fail .transfer)
      (s.afterReset false (l.afterEvent (.setBaud s.params.baudData))) :=
  bind_error (busReset_fails h hf)

/-- Settles O12: the bus reset with an echo and with a failing exchange, and the presence kept in `RDATA`. -/
theorem tResetOutcome : Obligations.TResetOutcome := by
  unfold Obligations.TResetOutcome
  refine ⟨fun w hw => (decode_ok_iff w _).mpr hw, fun s ⟨hwf, hnr⟩ => ⟨fun e he => ?_, fun l hl => ?_⟩⟩
  · rw [← zext8_decide]
    exact perform_ok hwf (procTReset_ok hnr he)
  · exact perform_fail hwf (procTReset_fails hnr hl)

/-! ### `T.WBIT` and `T.RBIT`: one slot -/

theorem writeBit_ok {s : State} (h : s.link.resetAfter = none) (b : Bool) {e : Byte}
    (he : s.link.Echoes [e]) :
    writeBit b s = .ok () (s.setLink (s.link.after 1 (exchangeEvents (wireByte s.params b) e))) := by
  rw [writeBit, get_bind]
  exact bind_ok (slot_ok h _ he.head.1 he.head.2)

theorem writeBit_fails {s : State} (h : s.link.resetAfter = none) (b : Bool) {l : Link}
    (hf : s.link.ExchangeFails (wireByte s.params b) l) :
    writeBit b s = .error (.fail .transfer) (s.setLink l) := by
  rw [writeBit, get_bind]
  exact bind_error (slot_fails h _ hf)

/-- `BIT` is bit 8 of the word (R82 (a)). -/
theorem bit_ofWord (w : Word) : (Fields.ofWord w).bit = w.getLsbD 8 := by
  simp [Fields.bit, Fields.ofWord]

/-- Settles O13: one slot of the bit's byte, the echo discarded. -/
theorem tWbitOutcome : Obligations.TWbitOutcome := by
  unfold Obligations.TWbitOutcome
  refine ⟨fun w hw => (decode_ok_iff w _).mpr ⟨hw, bit_ofWord w⟩,
    fun s b ⟨hwf, hnr⟩ => ⟨fun e he => ?_, fun l hl => ?_⟩⟩
  · exact perform_ok hwf (writeBit_ok hnr b he)
  · exact perform_fail hwf (writeBit_fails hnr b hl)

theorem procTRbit_ok {s : State} (h : s.link.resetAfter = none) {e : Byte} (he : s.link.Echoes [e]) :
    procTRbit s = .ok () ((s.setLink (s.link.after 1 (exchangeEvents s.params.readTxByte e))).setRdata
      (zext8 (readBitOf s.params e))) :=
  bind_ok (readBit_ok h he)

/-- Settles O14: one read slot, its bit kept in `RDATA` unless the exchange fails. -/
theorem tRbitOutcome : Obligations.TRbitOutcome := by
  unfold Obligations.TRbitOutcome
  refine ⟨fun w hw => (decode_ok_iff w _).mpr hw, fun s ⟨hwf, hnr⟩ => ⟨fun e he => ?_, fun l hl => ?_⟩⟩
  · rw [← zext8_decide]
    exact perform_ok hwf (procTRbit_ok hnr he)
  · exact perform_fail hwf (bind_error (readBit_fails hnr hl))

/-! ### `T.WBYTE` and `T.RBYTE`: eight slots -/

/-- Settles O15: the eight slots of the byte's bits, and the slots up to a failing one. -/
theorem tWbyteOutcome : Obligations.TWbyteOutcome := by
  unfold Obligations.TWbyteOutcome
  refine ⟨fun w hw => (decode_ok_iff w _).mpr ⟨hw, rfl⟩,
    fun s v ⟨hwf, hnr⟩ => ⟨fun es hlen he => ?_, fun es l hlt he hl => ?_⟩⟩
  · have hslots := slotsThen_echoes hnr ((wireBytes_length s.params v).trans hlen.symm) he fun _ => ()
    exact perform_ok hwf ((writeByte_run v s).trans hslots)
  · have hslots := slotsThen_fails hnr (wireBytes_getElem? s.params v hlt) he hl fun _ => ()
    exact perform_fail hwf ((writeByte_run v s).trans hslots)

theorem readByte_ok {s : State} (h : s.link.resetAfter = none) {es : List Byte} (hlen : es.length = 8)
    (he : s.link.Echoes es) :
    readByte s = .ok (echoByte s.params es)
      (s.setLink (s.link.after 8 (slotEvents (List.replicate 8 s.params.readTxByte) es))) :=
  (readByte_run s).trans (slotsThen_echoes h (by simp [hlen]) he _)

theorem readByte_fails {s : State} (h : s.link.resetAfter = none) {es : List Byte} (hlt : es.length < 8)
    (he : s.link.Echoes es) {l : Link}
    (hf : (s.link.after es.length
      (slotEvents (List.replicate es.length s.params.readTxByte) es)).ExchangeFails
      s.params.readTxByte l) :
    readByte s = .error (.fail .transfer) (s.setLink l) := by
  have htake : (List.replicate 8 s.params.readTxByte).take es.length =
      List.replicate es.length s.params.readTxByte := by
    rw [List.take_replicate, Nat.min_eq_left hlt.le]
  have hslot : (List.replicate 8 s.params.readTxByte)[es.length]? = some s.params.readTxByte :=
    List.getElem?_replicate_of_lt hlt
  exact (readByte_run s).trans (slotsThen_fails h hslot he (by rwa [htake]) _)

theorem procTRbyte_ok {s : State} (h : s.link.resetAfter = none) {es : List Byte} (hlen : es.length = 8)
    (he : s.link.Echoes es) :
    procTRbyte s = .ok () ((s.setLink (s.link.after 8
      (slotEvents (List.replicate 8 s.params.readTxByte) es))).setRdata (echoByte s.params es)) :=
  bind_ok (readByte_ok h hlen he)

/-- Settles O16: eight read slots, whose echoes read as the byte kept in `RDATA`, and the slots up to a failing one. -/
theorem tRbyteOutcome : Obligations.TRbyteOutcome := by
  unfold Obligations.TRbyteOutcome
  refine ⟨fun w hw => (decode_ok_iff w _).mpr hw,
    fun s ⟨hwf, hnr⟩ => ⟨fun es hlen he => ?_, fun es l hlt he hl => ?_⟩⟩
  · exact ⟨echoByte s.params es, readsAs_echoByte _ _, perform_ok hwf (procTRbyte_ok hnr hlen he)⟩
  · exact perform_fail hwf (bind_error (readByte_fails hnr hlt he hl))

end Sys2Proof.Machine
end

section
/-! The codec family: what `K.DECODE` and `K.ENCODE` do to the state, and the range of `TEMP` over every request
(42_codec.md R161 to R169). -/

namespace Sys2Proof.Machine

/-! ### How the two requests of the codec end -/

/-- A response that has a byte 4 has the five bytes that a decode unpacks (R161). -/
theorem eq_five_cons_of_getElem? {buf : List Byte} {c : Byte} (h : buf[4]? = some c) :
    ∃ lsb msb th tl rest, buf = lsb :: msb :: th :: tl :: c :: rest := by
  match buf, h with
  | lsb :: msb :: th :: tl :: _ :: rest, rfl => exact ⟨lsb, msb, th, tl, rest, rfl⟩

/-- The codec's length test is on five bytes (R9 (f), R161). -/
theorem minLen_le_rxlen {s : State} (hwf : s.params.wf = true) (hl : 5 ≤ s.rxlen) :
    s.params.scratchMinLen ≤ s.rxlen := by
  rwa [wf_minLen hwf]

/-- A known config byte in a response of five bytes or more: the four sensor registers together (R161, R162). -/
theorem exec_kDecode_known {s : State} (hwf : s.params.wf = true) (hl : 5 ≤ s.rxlen)
    {lsb msb th tl cfg : Byte} {rest : List Byte} (hb : s.rxbuf = lsb :: msb :: th :: tl :: cfg :: rest)
    {r : Resolution} (hr : cfg = (s.params.row r).cfgPat) :
    exec .kDecode s = .next
      ((s.setSensor (decodeTemp s.params r (rawTemp lsb msb)) th tl cfg).complete statusSuccess) :=
  perform_ok hwf (decodeScratch_ok (minLen_le_rxlen hwf hl) hb ((resLookup_eq_some hwf cfg r).mpr hr))

/-- Fewer than five response bytes: `DECODE` and nothing written (R168). -/
theorem exec_kDecode_short {s : State} (hwf : s.params.wf = true) (hl : s.rxlen < 5) :
    exec .kDecode s = .next (s.complete (statusFailure .decode)) :=
  perform_fail hwf (decodeScratch_short (by rwa [wf_minLen hwf]))

/-- An unknown config byte: `DECODE` and nothing written (R168). -/
theorem exec_kDecode_unknown {s : State} (hwf : s.params.wf = true) (hl : 5 ≤ s.rxlen)
    {lsb msb th tl cfg : Byte} {rest : List Byte} (hb : s.rxbuf = lsb :: msb :: th :: tl :: cfg :: rest)
    (hr : ∀ r, cfg ≠ (s.params.row r).cfgPat) :
    exec .kDecode s = .next (s.complete (statusFailure .decode)) :=
  perform_fail hwf (decodeScratch_unknown (minLen_le_rxlen hwf hl) hb ((resLookup_eq_none _ cfg).mpr hr))

/-- Every operand is accepted (R163). -/
theorem exec_kEncode {s : State} (hwf : s.params.wf = true) (th tl cfg : Byte) :
    exec (.kEncode th tl cfg) s = .next ((s.setTxbuf [th, tl, cfg]).complete statusSuccess) :=
  perform_ok hwf rfl

/-- Settles O25: the length test fails before the unpack, and the lookup fails before anything is written. -/
theorem decodeFailureChangesNothing : Obligations.DecodeFailureChangesNothing := by
  unfold Obligations.DecodeFailureChangesNothing
  intro s hwf h
  by_cases hl : s.rxlen < 5
  · exact exec_kDecode_short hwf hl
  · obtain ⟨c, hc, hunknown⟩ := h.resolve_left hl
    obtain ⟨lsb, msb, th, tl, rest, hb⟩ := eq_five_cons_of_getElem? hc
    exact exec_kDecode_unknown hwf (by omega) hb hunknown

/-- Settles O26: the decoder's match for selector `0x21`, and the one update of `K.ENCODE`. -/
theorem kEncodeResult : Obligations.KEncodeResult := by
  unfold Obligations.KEncodeResult
  exact ⟨fun w hw => (decode_ok_iff w _).mpr ⟨hw, rfl, rfl, rfl⟩,
    fun s th tl cfg hwf => exec_kEncode hwf th tl cfg⟩

/-- Settles O27: the three bytes that the encode leaves in `TXBUF` are the ones the decode unpacks. -/
theorem encodeDecodeRoundTrip : Obligations.EncodeDecodeRoundTrip := by
  unfold Obligations.EncodeDecodeRoundTrip
  intro s u a b c lsb msb rest hwf hp
  rw [← hp] at hwf ⊢
  refine ⟨_, exec_kEncode (hp ▸ hwf) a b c, rfl, fun hl hb => ?_⟩
  have hb : u.rxbuf = lsb :: msb :: a :: b :: c :: rest := hb
  by_cases hc : ∃ r, c = (u.params.row r).cfgPat
  · obtain ⟨r, hr⟩ := hc
    exact ⟨_, exec_kDecode_known hwf hl hb hr, fun _ => ⟨rfl, rfl, rfl, rfl⟩, fun h => absurd hr (h r)⟩
  · exact ⟨_, exec_kDecode_unknown hwf hl hb fun r hr => hc ⟨r, hr⟩, fun h => absurd h hc,
      fun _ => ⟨rfl, rfl, rfl, rfl, rfl⟩⟩

/-! ### The range of `TEMP` -/

/-- A 12-bit signed count of sixteenths of a degree (R167). -/
def InTempRange (x : Half) : Prop := -2048 ≤ x.toInt ∧ x.toInt ≤ 2047

/-- The premises of R167: no reset of the block is due, the sign mask is the one of D22 and the step is R26's. -/
structure State.CodecReady (s : State) : Prop where
  wf : s.params.wf = true
  notDue : s.link.resetAfter = none
  sign : s.params.signMask = 0xF800#16
  step : s.params.step = 1 / 16

/-- From a state that meets R167's premises: they are kept, and `TEMP` is as it was or holds a value in range. -/
def RangedTemp (s t : State) : Prop :=
  s.CodecReady → t.CodecReady ∧ (t.temp = s.temp ∨ InTempRange t.temp)

/-- The same where a procedure ends early with `e`; a reset, which would leave `TEMP` unspecified (R38), is no such
end. -/
def RangedTempEnd (e : Stop) (s t : State) : Prop := s.CodecReady → e ≠ .reset ∧ RangedTemp s t

/-- An update that writes neither the record nor `TEMP` and makes no reset due. -/
theorem RangedTemp.of_frame {s t : State} (hp : t.params = s.params)
    (hl : s.link.resetAfter = none → t.link.resetAfter = none) (ht : t.temp = s.temp) : RangedTemp s t :=
  fun h => ⟨⟨hp ▸ h.wf, hl h.notDue, hp ▸ h.sign, hp ▸ h.step⟩, .inl ht⟩

theorem RangedTemp.refl (s : State) : RangedTemp s s := .of_frame rfl id rfl

theorem RangedTemp.trans {s t u : State} (h1 : RangedTemp s t) (h2 : RangedTemp t u) : RangedTemp s u := by
  intro hs
  obtain ⟨ht, temp1⟩ := h1 hs
  obtain ⟨hu, temp2⟩ := h2 ht
  refine ⟨hu, ?_⟩
  rcases temp2 with same | ranged
  · rwa [same]
  · exact .inr ranged

/-- The one write of `TEMP` (R161 step 7). -/
theorem RangedTemp.setSensor (s : State) (r : Resolution) (raw : Half) (th tl cfg : Byte) :
    RangedTemp s (s.setSensor (decodeTemp s.params r raw) th tl cfg) :=
  fun h => ⟨⟨h.wf, h.notDue, h.sign, h.step⟩, .inr (decodeTemp_range h.wf h.sign r raw)⟩

/-- A failure, or a poll that goes on, at the state reached. -/
theorem RangedTempEnd.here {e : Stop} (he : e ≠ .reset) (s : State) : RangedTempEnd e s s :=
  fun _ => ⟨he, .refl s⟩

/-- A bus procedure that ends early: only a reset that was due can have ended it by reset (R242). -/
theorem RangedTempEnd.of_endsBy {Q : Event → Prop} {e : Stop} {s t : State} (hm : s.link.EndsBy Q e t.link)
    (hp : t.params = s.params) (ht : t.temp = s.temp) : RangedTempEnd e s t :=
  fun h => ⟨hm.notReset h.notDue, .of_frame hp hm.notDue ht⟩

theorem rangedTemp_chains : Chains RangedTemp RangedTempEnd where
  refl := .refl
  trans _ _ _ := .trans
  absorb _ _ _ _ h1 h2 hs := ⟨(h2 (h1 hs).1).1, h1.trans (h2 (h1 hs).1).2⟩

/-- The bus procedures leave `TEMP` alone. -/
theorem rangedTemp_busKeeps (P : Command → List Byte → Prop) : BusKeeps P RangedTemp RangedTempEnd where
  toChains := rangedTemp_chains
  slots _ _ a := .of_frame rfl a.notDue rfl
  slotsEnd _ _ _ _ m := .of_endsBy m rfl rfl
  reset _ _ _ r := .of_frame rfl r.moves.notDue rfl
  transfer := .here (by decide)
  broken _ _ _ _ _ _ m := .of_endsBy m rfl rfl
  absent := .here (by decide)
  openResponse _ := .of_frame rfl id rfl
  commit _ _ _ _ := .of_frame rfl id rfl
  mismatch s _ _ _ _ := .here (by decide) s

/-- Whatever a request writes, `TEMP` is as it was or in range. -/
theorem rangedTemp_keeps (i : Instr) : Keeps i RangedTemp RangedTempEnd where
  toBusKeeps := rangedTemp_busKeeps _
  rdata _ _ _ := .of_frame rfl id rfl
  sn _ _ _ _ := .of_frame rfl id rfl
  sensor _ s _ _ _ _ _ _ r _ _ := .setSensor s r _ _ _ _
  decodeFails _ := .here (by decide)
  txbuf _ _ _ _ _ := .of_frame rfl id rfl
  initialized _ _ := .of_frame rfl id rfl
  cleanUp _ _ _ _ h hs := ⟨(h hs).1, (h hs).2.trans (.of_frame rfl id rfl)⟩
  timeout _ s _ := .here (by decide) s
  polling _ s _ := .here (by decide) s
  resolution _ := .here (by decide)
  sleep _ _ _ _ _ m := .of_frame rfl m.notDue rfl
  sleepReset _ _ _ c := .of_endsBy (.inr ⟨rfl, c⟩) rfl rfl

/-- Every request, however it ends (R167). -/
theorem exec_rangedTemp {i : Instr} {s t : State} (hs : s.CodecReady) (h : exec i s = .next t) :
    RangedTemp s t := by
  obtain ⟨u, hu, rfl⟩ | ⟨_, u, hu, rfl⟩ | ⟨_, u, hu, rfl⟩ | ⟨u, hu, rfl⟩ | ⟨u, hu, rfl⟩ :=
    exec_keeps (rangedTemp_keeps i) h
  · exact hu.trans (.of_frame rfl id rfl)
  · exact (hu hs).2.trans (.of_frame rfl id rfl)
  · exact (hu hs).2.trans (.of_frame rfl id rfl)
  · exact (hu hs).2.trans (.of_frame rfl id rfl)
  · exact absurd rfl (hu hs).1

/-- Counts of a sixteenth: -128.0 to +127.9375 degrees (R167). -/
theorem celsius_range {s : State} (hstep : s.params.step = 1 / 16) (h : InTempRange s.temp) :
    -128 ≤ s.celsius ∧ s.celsius ≤ 2047 / 16 := by
  have hlo : (-2048 : Rat) ≤ s.temp.toInt := by exact_mod_cast h.1
  have hhi : (s.temp.toInt : Rat) ≤ 2047 := by exact_mod_cast h.2
  rw [State.celsius, hstep]
  constructor <;> linarith

/-- Settles O28: a decode alone writes `TEMP`, and what it writes fits 11 data bits and the sign. -/
theorem decodedTemperatureIsInRange : Obligations.DecodedTemperatureIsInRange := by
  unfold Obligations.DecodedTemperatureIsInRange
  intro s ⟨hwf, hnr⟩ hsign hstep
  refine ⟨fun i t hx hne => ?_, fun lsb msb th tl rest r hl hb => ?_⟩
  · have hs : s.CodecReady := ⟨hwf, hnr, hsign, hstep⟩
    obtain ⟨ht, htemp⟩ := exec_rangedTemp hs hx hs
    have hrange : InTempRange t.temp := htemp.resolve_left hne
    exact ⟨hrange.1, hrange.2, celsius_range ht.step hrange⟩
  · exact ⟨_, exec_kDecode_known hwf hl hb rfl, rfl, decodeTemp_range hwf hsign r _⟩

end Sys2Proof.Machine
end

section
/-! The waiter family: how `W.WAIT NONE` and `W.WAIT DELAY` end (43_waiter.md R181, R183). -/

namespace Sys2Proof.Machine

/-- A wait word's selector `0x30`, and its strategy in bits 9:8, are what the decoder matches (R82 (c), R83). -/
theorem opsel_strat_ofWord {w : Word} {n : BitVec 2} (hop : w.extractLsb' 0 6 = 0x30#6)
    (hst : w.extractLsb' 8 2 = n) :
    (Fields.ofWord w).opsel = 0x30#6 ∧ (Fields.ofWord w).strat = n.toNat :=
  ⟨hop, by rw [strat_ofWord, hst]⟩

/-- The wait that does nothing succeeds in any state (R181). -/
theorem exec_wWaitNone {s : State} (hwf : s.params.wf = true) :
    exec .wWaitNone s = .next (s.complete statusSuccess) :=
  perform_ok hwf rfl

/-- A stored `CFG` that is a pattern: the one sleep of that resolution's delay (R183). -/
theorem exec_wWaitDelay_known {s : State} (hwf : s.params.wf = true)
    (hnr : s.link.resetAfter = none) {r : Resolution} (hr : s.cfg = (s.params.row r).cfgPat) :
    exec .wWaitDelay s = .next
      ((s.setLink (s.link.afterEvent (.sleep (s.params.row r).delayMs))).complete statusSuccess) :=
  perform_ok hwf (waitDelay_ok hnr ((resLookup_eq_some hwf s.cfg r).mpr hr))

/-- A stored `CFG` that is no pattern: `RESOLUTION` before any event (R183). -/
theorem exec_wWaitDelay_unknown {s : State} (hwf : s.params.wf = true)
    (hr : ∀ r, s.cfg ≠ (s.params.row r).cfgPat) :
    exec .wWaitDelay s = .next (s.complete (statusFailure .resolution)) :=
  perform_fail hwf (waitDelay_unknown ((resLookup_eq_none s.params s.cfg).mpr hr))

/-- Settles O31: the lookup of the stored `CFG` finds the resolution whose delay is slept, or fails first. -/
theorem waitDelayOutcome : Obligations.WaitDelayOutcome := by
  unfold Obligations.WaitDelayOutcome
  refine ⟨fun w hop hst => (decode_ok_iff w _).mpr (opsel_strat_ofWord hop hst), ⟨rfl, rfl, rfl, rfl⟩,
    fun s ⟨hwf, hnr⟩ => ⟨fun r hr => ?_, fun hr => ?_⟩⟩
  · exact exec_wWaitDelay_known hwf hnr hr
  · exact exec_wWaitDelay_unknown hwf hr

/-- Settles O30: the decoder's match for strategy 0, and a procedure without a step. -/
theorem waitNoneResult : Obligations.WaitNoneResult := by
  unfold Obligations.WaitNoneResult
  exact ⟨fun w hop hst => (decode_ok_iff w _).mpr (opsel_strat_ofWord hop hst), fun s hwf => exec_wWaitNone hwf⟩

end Sys2Proof.Machine
end

section
/-! The encoding family, continued: the decoder undoes the encoder, and a row of the opcode table selects its words
(30_encoding.md R81 to R84, R103, R105). -/

namespace Sys2Proof

/-! ### The decoder undoes the encoder -/

/-- The fields that the assembler writes for a request are ones that the decoder reads as this request (R103). -/
theorem matches_encodeFields {i : Instr} (hi : i.wf = true) : i.Matches (encodeFields i) := by
  cases i
  case tWbit b => cases b <;> exact ⟨rfl, rfl⟩
  case tWbyte | wWaitNone | wWaitData | wWaitDelay | sConvertNone | sConvertData | sConvertDelay =>
    exact ⟨rfl, rfl⟩
  case cInit | cReadrom | cSkiprom | cConvertt | cRscratch | cWscratch =>
    exact ⟨rfl, payloadFields_payload hi _⟩
  case kEncode | sWritescratch => exact ⟨rfl, rfl, rfl, rfl⟩
  case tReset | tRbit | tRbyte | kDecode | sInitialize | sReadscratch | sReadrom | sSkiprom => rfl

/-- Settles O2: cutting the encoded word gives its fields back, and they match the request. -/
theorem decodeOfEncodeIsIdentity : Obligations.DecodeOfEncodeIsIdentity := by
  unfold Obligations.DecodeOfEncodeIsIdentity
  intro i hi
  rw [decode_ok_iff, encode, ofWord_toWord]
  exact matches_encodeFields hi

/-! ### A row of the opcode table and its words -/

/-- Under the mask of the selector alone, a word is its selector (R105). -/
theorem opselMask_eq_iff (w v : Word) (hv : v &&& 0x3F = v) :
    w &&& 0x3F = v ↔ w.extractLsb' 0 6 = v.extractLsb' 0 6 := by
  refine ⟨fun h => agree_field (m := 0x3F) (by rw [h, hv]) (by decide), fun h => opselMask_eq w v h hv⟩

/-- The mask of a strategy row has the bits 0 to 5, 8 and 9 (R105). -/
theorem stratMask_bit (i : Nat) : (0x33F : Word).getLsbD i = decide (i < 6 ∨ i = 8 ∨ i = 9) := by
  by_cases h : i < 32
  · revert h
    revert i
    decide
  · have : ¬ (i < 6 ∨ i = 8 ∨ i = 9) := by omega
    simp only [this, decide_false]
    exact BitVec.getLsbD_of_ge _ _ (by omega)

/-- Words with the same field have the same bits there. -/
theorem getLsbD_of_field_eq {w v : Word} {st len : Nat} (h : w.extractLsb' st len = v.extractLsb' st len)
    {i : Nat} (hi : st ≤ i ∧ i < st + len) : w.getLsbD i = v.getLsbD i := by
  have hb := congrArg (·.getLsbD (i - st)) h
  have hlt : i - st < len := by omega
  simpa [BitVec.getLsbD_extractLsb', hlt, Nat.add_sub_cancel' hi.1] using hb

/-- Under the mask of a strategy row, a word is its selector and its strategy (R105). -/
theorem stratMask_eq_iff (w v : Word) (hv : v &&& 0x33F = v) : w &&& 0x33F = v ↔
    w.extractLsb' 0 6 = v.extractLsb' 0 6 ∧ w.extractLsb' 8 2 = v.extractLsb' 8 2 := by
  constructor
  · intro h
    have hm : w &&& 0x33F = v &&& 0x33F := by rw [h, hv]
    exact ⟨agree_field hm (by decide), agree_field hm (by decide)⟩
  · rintro ⟨hop, hst⟩
    rw [← hv]
    apply BitVec.eq_of_getLsbD_eq
    intro i hi
    rw [BitVec.getLsbD_and, BitVec.getLsbD_and, stratMask_bit i]
    by_cases h6 : i < 6
    · rw [getLsbD_of_field_eq hop (by omega)]
    by_cases h8 : i = 8 ∨ i = 9
    · rw [getLsbD_of_field_eq hst (by omega)]
    · simp [h6, h8]

/-- A selector mask's row: a word matches it exactly when its selector is the row's (R105). -/
theorem matches_row_opsel {w v : Word} {o : BitVec 6} (hv : v &&& 0x3F = v) (ho : v.extractLsb' 0 6 = o) :
    w &&& 0x3F = v ↔ (Fields.ofWord w).opsel = o := by
  rw [opselMask_eq_iff w v hv, ho]
  rfl

/-- A strategy row: a word matches it exactly when its selector and its strategy are the row's (R105). -/
theorem matches_row_strat {w v : Word} {o : BitVec 6} {n : Nat} (hv : v &&& 0x33F = v)
    (ho : v.extractLsb' 0 6 = o) (hn : (v.extractLsb' 8 2).toNat = n) :
    w &&& 0x33F = v ↔ (Fields.ofWord w).opsel = o ∧ (Fields.ofWord w).strat = n := by
  rw [stratMask_eq_iff w v hv, ho, strat_ofWord, ← hn, BitVec.toNat_inj]
  rfl

/-- The request of a row that a word's fields carry: the row's own request with the word's operands (R82). -/
def Instr.withOperandsOf (f : Fields) : Instr → Instr
  | .tWbit _ => .tWbit f.bit
  | .tWbyte _ => .tWbyte f.arg0
  | .cInit _ => .cInit f.payload
  | .cReadrom _ => .cReadrom f.payload
  | .cSkiprom _ => .cSkiprom f.payload
  | .cConvertt _ => .cConvertt f.payload
  | .cRscratch _ => .cRscratch f.payload
  | .cWscratch _ => .cWscratch f.payload
  | .kEncode _ _ _ => .kEncode f.arg0 f.arg1 f.arg2
  | .sWritescratch _ _ _ => .sWritescratch f.arg0 f.arg1 f.arg2
  | i => i

theorem tableMatch_withOperandsOf (f : Fields) (i : Instr) : tableMatch (i.withOperandsOf f) = tableMatch i := by
  cases i <;> rfl

/-- A word matches the row of a request exactly when it decodes to that row's request with its own operands (R105). -/
theorem row_iff (w : Word) (i : Instr) : w &&& tableMask i = tableMatch i ↔
    (i.withOperandsOf (Fields.ofWord w)).Matches (Fields.ofWord w) := by
  cases i
  case tReset | tRbit | tRbyte | kDecode | sInitialize | sReadscratch | sReadrom | sSkiprom =>
    exact matches_row_opsel (by decide) rfl
  case tWbit | tWbyte | cInit | cReadrom | cSkiprom | cConvertt | cRscratch | cWscratch =>
    exact (matches_row_opsel (by simp only [tableMatch]; decide) rfl).trans (and_iff_left rfl).symm
  case kEncode | sWritescratch =>
    exact (matches_row_opsel (by simp only [tableMatch]; decide) rfl).trans
      (and_iff_left ⟨rfl, rfl, rfl⟩).symm
  case wWaitNone | wWaitData | wWaitDelay | sConvertNone | sConvertData | sConvertDelay =>
    exact matches_row_strat (by decide) rfl rfl

/-- A request whose fields match has the word's operands already. -/
theorem withOperandsOf_of_matches {i : Instr} {f : Fields} (h : i.Matches f) : i.withOperandsOf f = i := by
  cases i
  case tWbit | tWbyte | cInit | cReadrom | cSkiprom | cConvertt | cRscratch | cWscratch =>
    obtain ⟨-, rfl⟩ := h
    rfl
  case kEncode | sWritescratch =>
    obtain ⟨-, rfl, rfl, rfl⟩ := h
    rfl
  case tReset | tRbit | tRbyte | kDecode | wWaitNone | wWaitData | wWaitDelay | sInitialize | sConvertNone |
      sConvertData | sConvertDelay | sReadscratch | sReadrom | sSkiprom => rfl

/-- Settles O4: matching a row and decoding to its request with the word's operands are the same. -/
theorem tableRowsSelectWords : Obligations.TableRowsSelectWords := by
  unfold Obligations.TableRowsSelectWords
  refine ⟨fun w i hd => ?_, fun w i hw => ?_⟩
  · rw [decode_ok_iff] at hd
    rwa [row_iff, withOperandsOf_of_matches hd]
  · exact ⟨i.withOperandsOf (Fields.ofWord w), (decode_ok_iff w _).mpr ((row_iff w i).mp hw),
      tableMatch_withOperandsOf _ i⟩

/-- Settles O1: the decoder run on each of the twelve words. -/
theorem wordsOfTheSpecDecode : Obligations.WordsOfTheSpecDecode := by
  unfold Obligations.WordsOfTheSpecDecode
  decide

end Sys2Proof
end

section
/-! What every request keeps, and how an operation ends: the record, `REQ` and the host's list are not written, and
the boundary moves on by events (20_memory.md R63; 70_reset_and_hazards.md R240, R242). -/

namespace Sys2Proof.Machine

variable {α : Type} {R : State → State → Prop} {E : Stop → State → State → Prop}

/-! ### Reading a `Runs` at a known end -/

theorem Runs.of_ok {p : Proc α} (h : Runs R E p) {s t : State} {a : α} (hp : p s = .ok a t) : R s t := by
  obtain ⟨_, _, h1, h2⟩ | ⟨_, _, h1, _⟩ := h s
  · rw [hp] at h1; cases h1; exact h2
  · rw [hp] at h1; cases h1

theorem Runs.of_error {p : Proc α} (h : Runs R E p) {s t : State} {e : Stop} (hp : p s = .error e t) :
    E e s t := by
  obtain ⟨_, _, h1, _⟩ | ⟨_, _, h1, h2⟩ := h s
  · rw [hp] at h1; cases h1
  · rw [hp] at h1; cases h1; exact h2

/-! ### The frame of every request -/

/-- What no procedure writes is as it was, and the boundary has moved on by events. -/
structure Frame (s t : State) : Prop where
  params : t.params = s.params
  req : t.req = s.req
  host : t.host = s.host
  moves : s.link.Moves t.link

/-- The same where a procedure ends early with `e`; by a reset only where one was due (R242). -/
structure FrameEnd (e : Stop) (s t : State) : Prop where
  params : t.params = s.params
  req : t.req = s.req
  host : t.host = s.host
  moves : s.link.MovesBy e t.link

theorem Frame.of_link_eq {s t : State} (hp : t.params = s.params) (hr : t.req = s.req)
    (hh : t.host = s.host) (hl : t.link = s.link) : Frame s t := ⟨hp, hr, hh, hl ▸ .refl _⟩

theorem Frame.trans {s t u : State} (h : Frame s t) (h' : Frame t u) : Frame s u :=
  ⟨h'.params.trans h.params, h'.req.trans h.req, h'.host.trans h.host, h.moves.trans h'.moves⟩

theorem Frame.ends {e : Stop} {s t u : State} (h : Frame s t) (h' : FrameEnd e t u) : FrameEnd e s u :=
  ⟨h'.params.trans h.params, h'.req.trans h.req, h'.host.trans h.host, h.moves.ends h'.moves⟩

/-- An early end other than by a reset, at the state reached. -/
theorem FrameEnd.here {e : Stop} (he : e ≠ .reset) (s : State) : FrameEnd e s s :=
  ⟨rfl, rfl, rfl, .inl ⟨he, .refl _⟩⟩

theorem frame_chains : Chains Frame FrameEnd where
  refl _ := .of_link_eq rfl rfl rfl rfl
  trans _ _ _ := .trans
  absorb _ _ _ _ h h' := h.ends h'

theorem frame_busKeeps (P : Command → List Byte → Prop) : BusKeeps P Frame FrameEnd where
  toChains := frame_chains
  slots _ _ a := ⟨rfl, rfl, rfl, a.moves⟩
  slotsEnd _ _ _ _ m := ⟨rfl, rfl, rfl, m.moves⟩
  reset _ _ _ r := ⟨rfl, rfl, rfl, r.moves⟩
  transfer := .here (by decide)
  broken _ _ _ _ _ _ m := ⟨rfl, rfl, rfl, m⟩
  absent := .here (by decide)
  openResponse _ := .of_link_eq rfl rfl rfl rfl
  commit _ _ _ _ := .of_link_eq rfl rfl rfl rfl
  mismatch s _ _ _ _ := .here (by decide) s

theorem frame_keeps (i : Instr) : Keeps i Frame FrameEnd where
  toBusKeeps := frame_busKeeps _
  rdata _ _ _ := .of_link_eq rfl rfl rfl rfl
  sn _ _ _ _ := .of_link_eq rfl rfl rfl rfl
  sensor _ _ _ _ _ _ _ _ _ _ _ := .of_link_eq rfl rfl rfl rfl
  decodeFails _ := .here (by decide)
  txbuf _ _ _ _ _ := .of_link_eq rfl rfl rfl rfl
  initialized _ _ := .of_link_eq rfl rfl rfl rfl
  cleanUp _ _ _ _ h := ⟨h.params, h.req, h.host, h.moves⟩
  timeout _ s _ := .here (by decide) s
  polling _ s _ := .here (by decide) s
  resolution _ := .here (by decide)
  sleep _ _ _ _ _ m := ⟨rfl, rfl, rfl, m⟩
  sleepReset _ _ _ c := ⟨rfl, rfl, rfl, .inr ⟨rfl, c⟩⟩

theorem procOf_frame (i : Instr) : Runs Frame FrameEnd (procOf i) := runs_procOf (frame_keeps i)

/-- One poll has the same frame, whatever its number in the wait (R182). -/
theorem pollOnce_frame (n : Nat) : Runs Frame FrameEnd (pollOnce n) := by
  intro s
  have chain (l : Link) (a : s.link.Advances Event.ofSlot l) : Frame s (s.setLink l) :=
    ⟨rfl, rfl, rfl, a.moves⟩
  obtain ⟨l, ⟨a, hp | ⟨-, hp⟩ | ⟨-, hp⟩⟩ | ⟨e, -, m, hp⟩⟩ := pollOnce_cases n s
  · exact .inl ⟨_, _, hp, chain l a⟩
  · exact .inr ⟨_, _, hp, (chain l a).ends (.here (by decide) _)⟩
  · exact .inr ⟨_, _, hp, (chain l a).ends (.here (by simp) _)⟩
  · exact .inr ⟨_, _, hp, rfl, rfl, rfl, m.moves⟩

/-! ### How an operation ends -/

/-- A request answers a next state exactly when the record is well formed, and then the settled end of its
procedure. -/
theorem exec_next {i : Instr} {s t : State} (h : exec i s = .next t) :
    s.params.wf = true ∧ t = settle (procOf i s) := by
  rw [exec_eq_perform] at h
  refine ⟨?_, perform_next h⟩
  by_contra hwf
  simp [perform, hwf] at h

/-- With no reset due a request succeeds, fails, goes on polling or is left inside a call (R210, R226). -/
theorem exec_ready_cases {i : Instr} {s t : State} (hs : s.Ready) (h : exec i s = .next t) :
    (∃ u, procOf i s = .ok () u ∧ Frame s u ∧ t = u.complete statusSuccess) ∨
    (∃ c u, procOf i s = .error (.fail c) u ∧ FrameEnd (.fail c) s u ∧ t = u.complete (statusFailure c)) ∨
    (∃ n u, procOf i s = .error (.polling n) u ∧ FrameEnd (.polling n) s u ∧ t = u.suspend (.polling n)) ∨
    (∃ u, procOf i s = .error .noReturn u ∧ FrameEnd .noReturn s u ∧ t = u.suspend .calling) := by
  obtain ⟨-, rfl⟩ := exec_next h
  cases hp : procOf i s with
  | ok a u => exact .inl ⟨u, rfl, (procOf_frame i).of_ok hp, rfl⟩
  | error e u =>
    have hf := (procOf_frame i).of_error hp
    cases e with
    | fail c => exact .inr (.inl ⟨c, u, rfl, hf, rfl⟩)
    | polling n => exact .inr (.inr (.inl ⟨n, u, rfl, hf, rfl⟩))
    | noReturn => exact .inr (.inr (.inr ⟨u, rfl, hf, rfl⟩))
    | reset => exact absurd rfl (hf.moves.notReset hs.2)

@[simp] theorem complete_success_failFlag (s : State) : (s.complete statusSuccess).failFlag = false := by
  show statusSuccess.getLsbD 3 = false
  decide

@[simp] theorem complete_failure_failFlag (s : State) (c : Cause) :
    (s.complete (statusFailure c)).failFlag = true := by
  show (statusFailure c).getLsbD 3 = true
  cases c <;> decide

/-- A request that completes without a failure succeeded. -/
theorem exec_succeeded {i : Instr} {s t : State} (hs : s.Ready) (h : exec i s = .next t)
    (hb : t.busy = false) (hf : t.failFlag = false) :
    ∃ u, procOf i s = .ok () u ∧ Frame s u ∧ t = u.complete statusSuccess := by
  obtain hok | ⟨c, u, -, -, rfl⟩ | ⟨n, u, -, -, rfl⟩ | ⟨u, -, -, rfl⟩ := exec_ready_cases hs h
  · exact hok
  · simp at hf
  · simp at hb
  · simp at hb

/-- A request that completes with a failure raised its cause. -/
theorem exec_failed {i : Instr} {s t : State} (hs : s.Ready) (h : exec i s = .next t)
    (hb : t.busy = false) (hf : t.failFlag = true) :
    ∃ c u, procOf i s = .error (.fail c) u ∧ FrameEnd (.fail c) s u ∧ t = u.complete (statusFailure c) := by
  obtain ⟨u, -, -, rfl⟩ | hfail | ⟨n, u, -, -, rfl⟩ | ⟨u, -, -, rfl⟩ := exec_ready_cases hs h
  · simp at hf
  · exact hfail
  · simp at hb
  · simp at hb

/-! ### The trace and a reset that is due -/

/-- Settling an end adds no event. -/
theorem settle_grows {p : Proc Unit} (h : Runs Frame FrameEnd p) (s : State) :
    ∃ evs, (settle (p s)).link.trace = s.link.trace ++ evs := by
  cases hp : p s with
  | ok a u =>
    obtain ⟨evs, ht, -⟩ := (h.of_ok hp).moves.grows
    exact ⟨evs, ht⟩
  | error e u =>
    obtain ⟨evs, ht, -⟩ := (h.of_error hp).moves.grows
    exact ⟨evs, by cases e <;> exact ht⟩

theorem Prepared.trace {s s0 : State} (h : Prepared s s0) : s0.link.trace = s.link.trace := by rw [h.same]

/-- Settles O57: the host's action adds no event, and an operation only adds events. -/
theorem traceOnlyGrows : Obligations.TraceOnlyGrows := by
  unfold Obligations.TraceOnlyGrows
  intro s t h
  obtain ⟨-, s0, hprep, hadv | ⟨-, rfl⟩⟩ := step_cases h
  · rw [← hprep.trace]
    obtain rfl | ⟨i, -, -, -, hx⟩ | ⟨-, -, rfl⟩ | ⟨n, -, -, rfl⟩ := advance_cases hadv
    · exact ⟨[], by simp⟩
    · obtain ⟨-, rfl⟩ := exec_next hx
      exact settle_grows (procOf_frame i) s0
    · exact ⟨[], by simp⟩
    · exact settle_grows (pollOnce_frame n) s0
  · exact ⟨[], by simp [hprep.trace]⟩

/-- A procedure with a reset due ends by it, after as many events as it was due after; or it ends otherwise, and the
reset is due for the events that are left (R242). -/
theorem settle_reset_due {p : Proc Unit} (h : Runs Frame FrameEnd p) {s : State} {k : Nat}
    (hk : s.link.resetAfter = some k) :
    (∃ u, p s = .error .reset u ∧ settle (p s) = u.hardReset ∧
      u.link.trace.length = s.link.trace.length + k + 1) ∨
    ((∀ u, p s ≠ .error .reset u) ∧ ∃ j, (settle (p s)).link.resetAfter = some j ∧
      (settle (p s)).link.trace.length + j = s.link.trace.length + k) := by
  cases hp : p s with
  | ok a u => exact .inr ⟨by simp, (h.of_ok hp).moves.due k hk⟩
  | error e u =>
    obtain ⟨hne, ha⟩ | ⟨rfl, hc⟩ := (h.of_error hp).moves
    · refine .inr ⟨by simp [hne], ?_⟩
      cases e with
      | reset => exact absurd rfl hne
      | fail _ | polling _ | noReturn => exact ha.due k hk
    · obtain ⟨k', hk', hlen⟩ := hc.due
      obtain rfl : k = k' := by simpa [hk] using hk'
      exact .inl ⟨u, rfl, rfl, hlen⟩

/-- Settles O11: an operation ends by the reset at the end of the event it was due at, or leaves it due. -/
theorem resetLandsInsideAnyOperation : Obligations.ResetLandsInsideAnyOperation := by
  unfold Obligations.ResetLandsInsideAnyOperation
  intro i s t k hk h
  obtain ⟨-, rfl⟩ := exec_next h
  obtain ⟨u, -, hu, hlen⟩ | ⟨-, hdue⟩ := settle_reset_due (procOf_frame i) hk
  · rw [hu]
    exact .inl ⟨rfl, hlen, rfl, rfl, rfl, rfl, rfl, rfl, rfl, rfl⟩
  · exact .inr hdue

end Sys2Proof.Machine
end

section
/-! The step of the block, case by case, and the state after power-on (10_state.md R32, R35, R38;
00_scope.md R8, R9; 70_reset_and_hazards.md R240). -/

namespace Sys2Proof.Machine

theorem step_eq_hostStep {s : State} (hwf : s.params.wf = true) : step s = hostStep s := by simp [step, hwf]

/-- Settles O60: the record is looked at before anything else. -/
theorem illFormedRecordIsRefused : Obligations.IllFormedRecordIsRefused := by
  unfold Obligations.IllFormedRecordIsRefused
  refine fun s hwf => ⟨by simp [step, hwf], fun i => ?_⟩
  rw [exec_eq_perform]
  simp [perform, hwf]

/-- An idle block whose host writes `REQ` accepts the word and performs it (R35). -/
theorem step_accepts {s : State} {w : Word} {rest : List HostEvent} (hwf : s.params.wf = true)
    (hb : s.busy = false) (hh : s.host = .request w :: rest ∨ s.host = .write w :: rest) :
    step s = runRequest ((s.setHost rest).accept w) := by
  rw [step_eq_hostStep hwf]
  rcases hh with hh | hh <;> simp [hostStep, hh, hb, startRequest]

/-- Settles O6: the accepted word is decoded and its request performed, or it ends as an illegal one. -/
theorem stepPerformsTheDecodedRequest : Obligations.StepPerformsTheDecodedRequest := by
  unfold Obligations.StepPerformsTheDecodedRequest
  intro s w i rest hwf hb hh
  rw [step_accepts hwf hb hh]
  refine ⟨fun hd => ?_, fun e he => runRequest_illegal hwf he⟩
  simp only [runRequest, accept_req, hd]
  rfl

/-- Settles O7: no host action, and no operation to go on with. -/
theorem idleBlockDoesNothing : Obligations.IdleBlockDoesNothing := by
  unfold Obligations.IdleBlockDoesNothing
  intro s hwf hb hh
  rw [step_eq_hostStep hwf]
  simp [hostStep, hh, advance, hb]

/-- Settles O8: a busy block drops the write from the host's list, as it drops a pause. -/
theorem writeWhileBusyHasNoEffect : Obligations.WriteWhileBusyHasNoEffect := by
  unfold Obligations.WriteWhileBusyHasNoEffect
  intro s w rest hb
  simp [step, hostStep, hb, State.setHost]

/-- The reset input is a hard reset, in any state (R240). -/
theorem step_reset {s : State} {rest : List HostEvent} (hwf : s.params.wf = true)
    (hh : s.host = .reset :: rest) : step s = .next (s.setHost rest).hardReset := by
  rw [step_eq_hostStep hwf, hostStep, hh]

/-- Settles O9: the step of an asserted reset is the hard reset of the block. -/
theorem resetInputSetsTheRegisters : Obligations.ResetInputSetsTheRegisters := by
  unfold Obligations.ResetInputSetsTheRegisters
  intro s rest hwf hh
  exact ⟨_, step_reset hwf hh, rfl, rfl, rfl, rfl, rfl, rfl, rfl, rfl, rfl, rfl, rfl⟩

/-- Settles O10: the fields of the state after reset and of the default record. -/
theorem powerOnState : Obligations.PowerOnState := by
  unfold Obligations.PowerOnState
  exact ⟨rfl, rfl, rfl, rfl, rfl, rfl, rfl, rfl, rfl, rfl, by decide, rfl, rfl, rfl, rfl, rfl⟩

end Sys2Proof.Machine
end

section
/-! The invariants between steps: the state's shape (10_state.md R40 (a) to (c)) and a decoded reading (R40 (d)). -/

namespace Sys2Proof.Machine

/-! ### The part of the invariant that holds at every end of a procedure -/

/-- The status is consistent and every array and length is in range (R23, R27, R29, R30). -/
structure State.Sound (s : State) : Prop where
  status : s.StatusConsistent
  sn : s.sn.length = 6
  rxbuf : s.rxbuf.length = s.params.rxbufLen
  rxlen : s.rxlen ≤ s.params.rxbufLen
  txbuf : s.txbuf.length = 3
  txlen : s.txlen = 0 ∨ s.txlen = 3

/-- The sequencer is idle in an idle block, and the poll count is below the limit (R32, R186). -/
structure State.Sequenced (s : State) : Prop where
  idle : s.busy = false → s.seq = .idle
  count : ∀ n limit, s.seq = .polling n → s.params.pollLimit = some limit → n < limit

theorem inv_iff (s : State) :
    s.Inv ↔ s.Sound ∧ s.Sequenced ∧ (s.seq ≠ .calling → s.baudsel ≠ .reset) := by
  constructor
  · rintro ⟨h1, h2, h3, h4, h5, h6, h7, h8, h9⟩
    exact ⟨⟨h1, h2, h3, h4, h5, h6⟩, ⟨h7, h9⟩, h8⟩
  · rintro ⟨⟨h1, h2, h3, h4, h5, h6⟩, ⟨h7, h9⟩, h8⟩
    exact ⟨h1, h2, h3, h4, h5, h6, h7, h8, h9⟩

/-- An update of registers whose shape the invariant does not speak of. -/
theorem State.Sound.of_frame {s t : State} (h : s.Sound) (hp : t.params = s.params) (h1 : t.status = s.status)
    (h2 : t.sn = s.sn) (h3 : t.rxbuf = s.rxbuf) (h4 : t.rxlen = s.rxlen) (h5 : t.txbuf = s.txbuf)
    (h6 : t.txlen = s.txlen) : t.Sound := by
  obtain ⟨status, sn, rxbuf, rxlen, txbuf, txlen⟩ := h
  refine ⟨?_, h2 ▸ sn, ?_, ?_, h5 ▸ txbuf, h6 ▸ txlen⟩
  · simpa only [State.StatusConsistent, State.failFlag, State.causeField, h1] using status
  · rw [h3, hp, rxbuf]
  · rw [h4, hp]
    exact rxlen

theorem State.Sound.openResponse {s : State} (h : s.Sound) : s.openResponse.Sound :=
  ⟨h.status, h.sn, by simp, by simp, h.txbuf, h.txlen⟩

/-- A response of the descriptor's length fits `RXBUF` (R9 (e), R29). -/
theorem State.Sound.commit {s : State} (h : s.Sound) (hwf : s.params.wf = true) {cmd : Command}
    {resp : List Byte} (hl : resp.length = (s.params.desc cmd).rx) : (s.commitResponse resp).Sound := by
  have hle : resp.length ≤ s.params.rxbufLen := by
    rw [hl]
    exact wf_rx_le hwf cmd
  refine ⟨h.status, h.sn, ?_, hle, h.txbuf, h.txlen⟩
  simp [h.rxbuf, Nat.add_sub_cancel' hle]

theorem State.Sound.setSn {s : State} (h : s.Sound) (hwf : s.params.wf = true) {resp : List Byte}
    (hl : resp.length = s.params.romRxLen) : (s.setSn (serialOf s.params resp)).Sound :=
  ⟨h.status, (serialOf_bytes hwf resp [] hl).1, h.rxbuf, h.rxlen, h.txbuf, h.txlen⟩

theorem State.Sound.setTxbuf {s : State} (h : s.Sound) (a b c : Byte) : (s.setTxbuf [a, b, c]).Sound :=
  ⟨h.status, h.sn, h.rxbuf, h.rxlen, rfl, .inr rfl⟩

theorem statusConsistent_complete_success (s : State) : (s.complete statusSuccess).StatusConsistent := by
  show statusSuccess.getLsbD 3 = false ↔ statusSuccess.extractLsb' 0 3 = 0
  decide

theorem statusConsistent_complete_failure (s : State) (c : Cause) :
    (s.complete (statusFailure c)).StatusConsistent := by
  show (statusFailure c).getLsbD 3 = false ↔ (statusFailure c).extractLsb' 0 3 = 0
  cases c <;> decide

theorem State.Sound.complete {s : State} (h : s.Sound) {st : BitVec 4}
    (hst : (s.complete st).StatusConsistent) : (s.complete st).Sound :=
  ⟨hst, h.sn, h.rxbuf, h.rxlen, h.txbuf, h.txlen⟩

/-- The values of R38, and draws of the arrays' lengths (log 3). -/
theorem inv_atReset (c : Cfg) (l : Link) (draws : Nat) (host : List HostEvent) :
    (State.atReset c l draws host).Inv := by
  have status : (State.atReset c l draws host).StatusConsistent := by
    show (0#4).getLsbD 3 = false ↔ (0#4).extractLsb' 0 3 = 0
    decide
  exact (inv_iff _).mpr ⟨⟨status, by simp [State.atReset], by simp [State.atReset], by simp [State.atReset],
    by simp [State.atReset], .inl rfl⟩, ⟨fun _ => rfl, by simp [State.atReset]⟩, by simp [State.atReset]⟩

theorem inv_hardReset (s : State) : s.hardReset.Inv := inv_atReset _ _ _ _

/-! ### Procedures keep it -/

/-- From a sound state at a rate that is not the reset rate: to another one, with the same record. -/
def KeepsSound (s t : State) : Prop :=
  s.params.wf = true → s.Sound → s.baudsel ≠ .reset → t.params = s.params ∧ t.Sound ∧ t.baudsel ≠ .reset

/-- The same where a procedure ends early with `e`: the reset rate may stand only where it was broken off, and a poll
that goes on is the first, below the limit. -/
def KeepsSoundEnd (e : Stop) (s t : State) : Prop :=
  s.params.wf = true → s.Sound → s.baudsel ≠ .reset → t.params = s.params ∧ t.Sound ∧
    (t.baudsel = .reset → e.broken) ∧ ∀ n, e = .polling n → n = 1 ∧ s.params.pollLimit ≠ some 1

theorem KeepsSound.of_frame {s t : State} (hp : t.params = s.params) (hs : s.Sound → t.Sound)
    (hb : s.baudsel ≠ .reset → t.baudsel ≠ .reset) : KeepsSound s t := fun _ h h' => ⟨hp, hs h, hb h'⟩

theorem KeepsSoundEnd.fail (c : Cause) (s : State) : KeepsSoundEnd (.fail c) s s :=
  fun _ h hb => ⟨rfl, h, fun h' => absurd h' hb, by simp⟩

theorem keepsSound_chains : Chains KeepsSound KeepsSoundEnd where
  refl _ := .of_frame rfl id id
  trans s t u h h' hwf hs hb := by
    obtain ⟨hp, ht, hbt⟩ := h hwf hs hb
    obtain ⟨hp', hu, hbu⟩ := h' (hp ▸ hwf) ht hbt
    exact ⟨hp'.trans hp, hu, hbu⟩
  absorb e s t u h h' hwf hs hb := by
    obtain ⟨hp, ht, hbt⟩ := h hwf hs hb
    obtain ⟨hp', hu, hbu, hn⟩ := h' (hp ▸ hwf) ht hbt
    exact ⟨hp'.trans hp, hu, hbu, hp ▸ hn⟩

theorem keepsSound_busKeeps (P : Command → List Byte → Prop) : BusKeeps P KeepsSound KeepsSoundEnd where
  toChains := keepsSound_chains
  slots _ _ _ := .of_frame rfl (·.of_frame rfl rfl rfl rfl rfl rfl rfl) id
  slotsEnd e s l he _ := fun _ h hb => ⟨rfl, h.of_frame rfl rfl rfl rfl rfl rfl rfl, fun h' => absurd h' hb,
    by rintro n rfl; exact he.elim⟩
  reset _ _ _ _ := .of_frame rfl (·.of_frame rfl rfl rfl rfl rfl rfl rfl) fun _ => by simp
  transfer := .fail _
  broken e s b p l he _ := fun _ h _ => ⟨rfl, h.of_frame rfl rfl rfl rfl rfl rfl rfl, fun _ => he,
    by rintro n rfl; exact he.elim⟩
  absent := .fail _
  openResponse _ := .of_frame rfl (·.openResponse) id
  commit _ _ _ hl := fun hwf h hb => ⟨rfl, h.commit hwf hl, hb⟩
  mismatch s _ _ _ _ := .fail _ s

theorem keepsSound_keeps (i : Instr) : Keeps i KeepsSound KeepsSoundEnd where
  toBusKeeps := keepsSound_busKeeps _
  rdata _ _ _ := .of_frame rfl (·.of_frame rfl rfl rfl rfl rfl rfl rfl) id
  sn _ _ _ hl := fun hwf h hb => ⟨rfl, h.setSn hwf hl, hb⟩
  sensor _ _ _ _ _ _ _ _ _ _ _ := .of_frame rfl (·.of_frame rfl rfl rfl rfl rfl rfl rfl) id
  decodeFails _ := .fail _
  txbuf _ _ a b c := .of_frame rfl (·.setTxbuf a b c) id
  initialized _ _ := .of_frame rfl (·.of_frame rfl rfl rfl rfl rfl rfl rfl) id
  cleanUp _ s t c h hwf hs hb := by
    obtain ⟨hp, ht, hbt, hn⟩ := h hwf hs hb
    exact ⟨hp, ht.of_frame rfl rfl rfl rfl rfl rfl rfl, hbt, hn⟩
  timeout _ s _ := .fail _ s
  polling _ s hl := fun _ h hb => ⟨rfl, h, fun h' => absurd h' hb, by rintro n ⟨⟩; exact ⟨rfl, hl⟩⟩
  resolution _ := .fail _
  sleep _ _ _ _ _ _ := .of_frame rfl (·.of_frame rfl rfl rfl rfl rfl rfl rfl) id
  sleepReset _ _ _ _ := fun _ h hb => ⟨rfl, h.of_frame rfl rfl rfl rfl rfl rfl rfl, fun _ => trivial, by simp⟩

/-! ### Ends of an operation and of a step -/

/-- An operation that completes leaves the invariant. -/
theorem State.Sound.inv_complete {s : State} (h : s.Sound) (hb : s.baudsel ≠ .reset) {st : BitVec 4}
    (hst : (s.complete st).StatusConsistent) : (s.complete st).Inv :=
  (inv_iff _).mpr ⟨h.complete hst, ⟨fun _ => rfl, by simp⟩, fun _ => hb⟩

theorem State.Sound.suspend {s : State} (h : s.Sound) (q : Seq) : (s.suspend q).Sound :=
  h.of_frame rfl rfl rfl rfl rfl rfl rfl

/-- A wait that goes on below the limit leaves the invariant. -/
theorem State.Sound.inv_polling {s : State} (h : s.Sound) (hb : s.baudsel ≠ .reset) {n : Nat}
    (hl : ∀ limit, s.params.pollLimit = some limit → n < limit) : (s.suspend (.polling n)).Inv :=
  (inv_iff _).mpr ⟨h.suspend _, ⟨by simp, by rintro _ limit ⟨⟩; exact hl limit⟩, fun _ => hb⟩

theorem State.Sound.inv_calling {s : State} (h : s.Sound) : (s.suspend .calling).Inv :=
  (inv_iff _).mpr ⟨h.suspend _, ⟨by simp, by simp⟩, by simp⟩

/-- A poll limit is positive (R8, log 2). -/
theorem wf_pollLimit {c : Cfg} (h : c.wf = true) : c.pollLimit ≠ some 0 := by
  simp only [Cfg.wf, decide_eq_true_eq] at h
  exact h.1.2.2.1

/-- A request performed from its beginning leaves the invariant, however it ends. -/
theorem exec_inv {i : Instr} {s t : State} (hs : s.Sound) (hb : s.baudsel ≠ .reset)
    (h : exec i s = .next t) : t.Inv := by
  obtain ⟨hwf, -⟩ := exec_next h
  obtain ⟨u, hu, rfl⟩ | ⟨c, u, hu, rfl⟩ | ⟨n, u, hu, rfl⟩ | ⟨u, hu, rfl⟩ | ⟨u, hu, rfl⟩ :=
    exec_keeps (keepsSound_keeps i) h
  · obtain ⟨-, hsu, hbu⟩ := hu hwf hs hb
    exact hsu.inv_complete hbu (statusConsistent_complete_success u)
  · obtain ⟨-, hsu, hbu, -⟩ := hu hwf hs hb
    exact hsu.inv_complete hbu (statusConsistent_complete_failure u c)
  · obtain ⟨hp, hsu, hbu, hn⟩ := hu hwf hs hb
    obtain ⟨rfl, hl⟩ := hn n rfl
    refine hsu.inv_polling hbu fun limit hlim => ?_
    rw [hp] at hlim
    have hpos := wf_pollLimit hwf
    rw [hlim] at hl hpos
    simp only [ne_eq, Option.some.injEq] at hl hpos
    omega
  · exact (hu hwf hs hb).2.1.inv_calling
  · exact inv_hardReset u

/-- A later poll leaves the invariant, however it ends (R182, R186). -/
theorem settle_pollOnce_inv {s : State} {n : Nat} (hs : s.Sound) (hb : s.baudsel ≠ .reset)
    (hn : ∀ limit, s.params.pollLimit = some limit → n < limit) : (settle (pollOnce n s)).Inv := by
  have slots (l : Link) : (s.setLink l).Sound := hs.of_frame rfl rfl rfl rfl rfl rfl rfl
  obtain ⟨l, ⟨-, hp | ⟨-, hp⟩ | ⟨hne, hp⟩⟩ | ⟨e, he, -, hp⟩⟩ := pollOnce_cases n s <;> rw [hp]
  · exact (slots l).inv_complete hb (statusConsistent_complete_success _)
  · exact (slots l).inv_complete hb (statusConsistent_complete_failure _ _)
  · refine (slots l).inv_polling hb fun limit hlim => ?_
    have hlim' : s.params.pollLimit = some limit := hlim
    have hlt := hn limit hlim'
    rw [hlim'] at hne
    simp only [ne_eq, Option.some.injEq] at hne
    omega
  · cases e with
    | fail c => exact (slots l).inv_complete hb (statusConsistent_complete_failure _ c)
    | polling _ => exact he.elim
    | noReturn => exact (slots l).inv_calling
    | reset => exact inv_hardReset _

/-- The host's action of a step keeps the invariant. -/
theorem Prepared.inv {s s0 : State} (h : Prepared s s0) (hs : s.Inv) : s0.Inv := by
  obtain ⟨hsound, hseq, hbaud⟩ := (inv_iff s).mp hs
  have hs0 : s0.Sound := by
    rw [h.same]
    exact hsound.of_frame rfl rfl rfl rfl rfl rfl rfl
  have hb0 : s0.baudsel = s.baudsel := by rw [h.same]
  refine (inv_iff s0).mpr ⟨hs0, ?_⟩
  obtain ⟨hb, hq⟩ | ⟨hb, hb', hq⟩ := h.sequencer
  · rw [hb0, hq]
    exact ⟨⟨hb ▸ hq ▸ hseq.idle, h.params ▸ hq ▸ hseq.count⟩, hbaud⟩
  · rw [hb0]
    exact ⟨⟨by simp [hb'], by simp [hq]⟩, fun _ => hbaud (by simp [hseq.idle hb])⟩

/-- The block's own part of a step keeps the invariant. -/
theorem advance_inv {s t : State} (hs : s.Inv) (h : advance s = .next t) : t.Inv := by
  obtain ⟨hsound, hseq, hbaud⟩ := (inv_iff s).mp hs
  obtain rfl | ⟨i, -, hq, -, hx⟩ | ⟨-, hq, rfl⟩ | ⟨n, -, hq, rfl⟩ := advance_cases h
  · exact hs
  · exact exec_inv hsound (hbaud (by simp [hq])) hx
  · exact hsound.inv_complete (hbaud (by simp [hq])) (statusConsistent_complete_failure s _)
  · exact settle_pollOnce_inv hsound (hbaud (by simp [hq])) (hseq.count n · hq)

/-- Settles O50: the host's action, then the block's own part or a reset, each keeps the invariant. -/
theorem stepKeepsTheInvariant : Obligations.StepKeepsTheInvariant := by
  unfold Obligations.StepKeepsTheInvariant
  intro s t hs h
  obtain ⟨-, s0, hprep, hadv | ⟨-, rfl⟩⟩ := step_cases h
  · exact advance_inv (hprep.inv hs) hadv
  · exact inv_hardReset s0

/-- Settles O49: the state after power-on is a reset state. -/
theorem resetMeetsTheInvariant : Obligations.ResetMeetsTheInvariant := by
  unfold Obligations.ResetMeetsTheInvariant
  exact inv_atReset _ _ _ _

/-! ### A decoded reading -/

/-- From a decoded reading with no reset due: to another one. -/
def KeepsReading (s t : State) : Prop := s.Decoded ∧ s.NoReset → t.Decoded ∧ t.NoReset

/-- The same where a procedure ends early with `e`; a reset, which would leave the reading unspecified (R38), is no
such end. -/
def KeepsReadingEnd (e : Stop) (s t : State) : Prop :=
  s.Decoded ∧ s.NoReset → e ≠ .reset ∧ t.Decoded ∧ t.NoReset

theorem State.Decoded.of_frame {s t : State} (h : s.Decoded) (hp : t.params = s.params) (hc : t.cfg = s.cfg)
    (ht : t.temp = s.temp) : t.Decoded := by
  obtain ⟨r, hr, hm⟩ := h
  exact ⟨r, by rw [hp, hc, hr], by rw [hp, ht, hm]⟩

/-- The one write of the reading (R161 step 7). -/
theorem decoded_setSensor (s : State) {r : Resolution} (raw : Half) (th tl : Byte) {cfg : Byte}
    (hr : s.params.resLookup cfg = some r) : (s.setSensor (decodeTemp s.params r raw) th tl cfg).Decoded :=
  ⟨r, hr, decodeTemp_masked s.params r raw⟩

/-- An update that leaves the reading alone and makes no reset due. -/
theorem KeepsReading.of_frame {s t : State} (hp : t.params = s.params) (hc : t.cfg = s.cfg)
    (ht : t.temp = s.temp) (hh : t.host = s.host)
    (hl : s.link.resetAfter = none → t.link.resetAfter = none) : KeepsReading s t :=
  fun ⟨hd, hn, hhost⟩ => ⟨hd.of_frame hp hc ht, hl hn, hh ▸ hhost⟩

theorem KeepsReadingEnd.here {e : Stop} (he : e ≠ .reset) (s : State) : KeepsReadingEnd e s s := fun h => ⟨he, h⟩

theorem KeepsReadingEnd.of_endsBy {Q : Event → Prop} {e : Stop} {s t : State}
    (hm : s.link.EndsBy Q e t.link) (hp : t.params = s.params) (hc : t.cfg = s.cfg) (ht : t.temp = s.temp)
    (hh : t.host = s.host) : KeepsReadingEnd e s t :=
  fun h => ⟨hm.notReset h.2.1, KeepsReading.of_frame hp hc ht hh hm.notDue h⟩

theorem keepsReading_busKeeps (P : Command → List Byte → Prop) :
    BusKeeps P KeepsReading KeepsReadingEnd where
  refl _ := id
  trans _ _ _ h h' := h' ∘ h
  absorb _ _ _ _ h h' := h' ∘ h
  slots _ _ a := .of_frame rfl rfl rfl rfl a.notDue
  slotsEnd _ _ _ _ m := .of_endsBy m rfl rfl rfl rfl
  reset _ _ _ r := .of_frame rfl rfl rfl rfl r.moves.notDue
  transfer := .here (by decide)
  broken _ _ _ _ _ _ m := .of_endsBy m rfl rfl rfl rfl
  absent := .here (by decide)
  openResponse _ := .of_frame rfl rfl rfl rfl id
  commit _ _ _ _ := .of_frame rfl rfl rfl rfl id
  mismatch s _ _ _ _ := .here (by decide) s

theorem keepsReading_keeps (i : Instr) : Keeps i KeepsReading KeepsReadingEnd where
  toBusKeeps := keepsReading_busKeeps _
  rdata _ _ _ := .of_frame rfl rfl rfl rfl id
  sn _ _ _ _ := .of_frame rfl rfl rfl rfl id
  sensor _ s _ _ _ _ _ _ _ _ hr := fun h => ⟨decoded_setSensor s _ _ _ hr, h.2⟩
  decodeFails _ := .here (by decide)
  txbuf _ _ _ _ _ := .of_frame rfl rfl rfl rfl id
  initialized _ _ := .of_frame rfl rfl rfl rfl id
  cleanUp _ _ _ _ h hs := ⟨(h hs).1, KeepsReading.of_frame rfl rfl rfl rfl id (h hs).2⟩
  timeout _ s _ := .here (by decide) s
  polling _ s _ := .here (by decide) s
  resolution _ := .here (by decide)
  sleep _ _ _ _ _ m := .of_frame rfl rfl rfl rfl m.notDue
  sleepReset _ _ _ c := .of_endsBy (.inr ⟨rfl, c⟩) rfl rfl rfl rfl

theorem keepsReading_complete (s : State) (st : BitVec 4) : KeepsReading s (s.complete st) :=
  .of_frame rfl rfl rfl rfl id

theorem keepsReading_suspend (s : State) (q : Seq) : KeepsReading s (s.suspend q) :=
  .of_frame rfl rfl rfl rfl id

/-- Settling any end but a reset leaves the reading. -/
theorem settle_keepsReading {p : Proc Unit} (hp : Runs KeepsReading KeepsReadingEnd p) (s : State) :
    KeepsReading s (settle (p s)) := by
  intro hs
  cases h : p s with
  | ok a u => exact keepsReading_complete u _ (hp.of_ok h hs)
  | error e u =>
    obtain ⟨hne, hu⟩ := hp.of_error h hs
    cases e with
    | fail c => exact keepsReading_complete u _ hu
    | polling n => exact keepsReading_suspend u _ hu
    | noReturn => exact keepsReading_suspend u _ hu
    | reset => exact absurd rfl hne

theorem pollOnce_keepsReading (n : Nat) : Runs KeepsReading KeepsReadingEnd (pollOnce n) := by
  intro s
  have slots (l : Link) (a : s.link.Advances Event.ofSlot l) : KeepsReading s (s.setLink l) :=
    .of_frame rfl rfl rfl rfl a.notDue
  obtain ⟨l, ⟨a, hp | ⟨-, hp⟩ | ⟨-, hp⟩⟩ | ⟨e, -, m, hp⟩⟩ := pollOnce_cases n s
  · exact .inl ⟨_, _, hp, slots l a⟩
  · exact .inr ⟨_, _, hp, fun h => ⟨by decide, slots l a h⟩⟩
  · exact .inr ⟨_, _, hp, fun h => ⟨by simp, slots l a h⟩⟩
  · exact .inr ⟨_, _, hp, .of_endsBy m rfl rfl rfl rfl⟩

/-- The host's action of a step, short of a reset, leaves the reading. -/
theorem Prepared.keepsReading {s s0 : State} (h : Prepared s s0) : KeepsReading s s0 :=
  fun ⟨hd, hn⟩ => ⟨hd.of_frame h.params (by rw [h.same]) (by rw [h.same]), h.noReset hn⟩

/-- Settles O51: short of a reset, the decode alone writes `CFG` or `TEMP`, and both of them together. -/
theorem stepKeepsADecodedReading : Obligations.StepKeepsADecodedReading := by
  unfold Obligations.StepKeepsADecodedReading
  intro s t hd hn h
  obtain ⟨-, s0, hprep, hadv | ⟨hreset, -⟩⟩ := step_cases h
  · have hs0 := hprep.keepsReading ⟨hd, hn⟩
    obtain rfl | ⟨i, -, -, -, hx⟩ | ⟨-, -, rfl⟩ | ⟨n, -, -, rfl⟩ := advance_cases hadv
    · exact hs0
    · obtain ⟨-, rfl⟩ := exec_next hx
      exact settle_keepsReading (runs_procOf (keepsReading_keeps i)) s0 hs0
    · exact keepsReading_complete s0 _ hs0
    · exact settle_keepsReading (pollOnce_keepsReading n) s0 hs0
  · exact absurd hn hreset

end Sys2Proof.Machine
end

section
/-! What a request can write, with which causes it can fail, and at which rate it leaves the peripheral
(10_state.md R21 to R31, R39; 60_exceptions.md R219, R230; 40_transceiver.md R120, R133; 44_session.md R197). -/

namespace Sys2Proof.Machine

variable {α β : Type}

/-! ### Who writes a register -/

/-- The registers that only some requests write are as they were, where the request `i` is none of these. -/
structure Written (i : Instr) (s t : State) : Prop where
  rdata : ¬ writesRdata i → t.rdata = s.rdata
  sn : ¬ writesSn i → t.sn = s.sn
  initialized : i ≠ .sInitialize → t.initialized = s.initialized
  txbuf : ¬ writesTxbuf i → t.txbuf = s.txbuf ∧ t.txlen = s.txlen
  sensor : ¬ decodes i → t.temp = s.temp ∧ t.th = s.th ∧ t.tl = s.tl ∧ t.cfg = s.cfg

variable {i : Instr}

/-- An update of none of these registers. -/
theorem Written.of_frame {s t : State} (h1 : t.rdata = s.rdata) (h2 : t.sn = s.sn)
    (h3 : t.initialized = s.initialized) (h4 : t.txbuf = s.txbuf ∧ t.txlen = s.txlen)
    (h5 : t.temp = s.temp ∧ t.th = s.th ∧ t.tl = s.tl ∧ t.cfg = s.cfg) : Written i s t :=
  ⟨fun _ => h1, fun _ => h2, fun _ => h3, fun _ => h4, fun _ => h5⟩

theorem Written.refl (s : State) : Written i s s := .of_frame rfl rfl rfl ⟨rfl, rfl⟩ ⟨rfl, rfl, rfl, rfl⟩

theorem Written.trans {s t u : State} (h : Written i s t) (h' : Written i t u) : Written i s u where
  rdata hi := (h'.rdata hi).trans (h.rdata hi)
  sn hi := (h'.sn hi).trans (h.sn hi)
  initialized hi := (h'.initialized hi).trans (h.initialized hi)
  txbuf hi := ⟨(h'.txbuf hi).1.trans (h.txbuf hi).1, (h'.txbuf hi).2.trans (h.txbuf hi).2⟩
  sensor hi := by
    obtain ⟨a, b, c, d⟩ := h.sensor hi
    obtain ⟨a', b', c', d'⟩ := h'.sensor hi
    exact ⟨a'.trans a, b'.trans b, c'.trans c, d'.trans d⟩

theorem written_busKeeps (P : Command → List Byte → Prop) :
    BusKeeps P (Written i) (fun _ => Written i) where
  refl := .refl
  trans _ _ _ := .trans
  absorb _ _ _ _ := .trans
  slots _ _ _ := .of_frame rfl rfl rfl ⟨rfl, rfl⟩ ⟨rfl, rfl, rfl, rfl⟩
  slotsEnd _ _ _ _ _ := .of_frame rfl rfl rfl ⟨rfl, rfl⟩ ⟨rfl, rfl, rfl, rfl⟩
  reset _ _ _ _ := .of_frame rfl rfl rfl ⟨rfl, rfl⟩ ⟨rfl, rfl, rfl, rfl⟩
  transfer := .refl
  broken _ _ _ _ _ _ _ := .of_frame rfl rfl rfl ⟨rfl, rfl⟩ ⟨rfl, rfl, rfl, rfl⟩
  absent := .refl
  openResponse _ := .of_frame rfl rfl rfl ⟨rfl, rfl⟩ ⟨rfl, rfl, rfl, rfl⟩
  commit _ _ _ _ := .of_frame rfl rfl rfl ⟨rfl, rfl⟩ ⟨rfl, rfl, rfl, rfl⟩
  mismatch s _ _ _ _ := .refl s

theorem written_keeps (i : Instr) : Keeps i (Written i) (fun _ => Written i) where
  toBusKeeps := written_busKeeps _
  rdata hi _ _ := ⟨fun h => absurd hi h, fun _ => rfl, fun _ => rfl, fun _ => ⟨rfl, rfl⟩,
    fun _ => ⟨rfl, rfl, rfl, rfl⟩⟩
  sn hi _ _ _ := ⟨fun _ => rfl, fun h => absurd hi h, fun _ => rfl, fun _ => ⟨rfl, rfl⟩,
    fun _ => ⟨rfl, rfl, rfl, rfl⟩⟩
  sensor hi _ _ _ _ _ _ _ _ _ _ := ⟨fun _ => rfl, fun _ => rfl, fun _ => rfl, fun _ => ⟨rfl, rfl⟩,
    fun h => absurd hi h⟩
  decodeFails _ := .refl
  txbuf hi _ _ _ _ := ⟨fun _ => rfl, fun _ => rfl, fun _ => rfl, fun h => absurd hi h,
    fun _ => ⟨rfl, rfl, rfl, rfl⟩⟩
  initialized hi _ := ⟨fun _ => rfl, fun _ => rfl, fun h => absurd hi h, fun _ => ⟨rfl, rfl⟩,
    fun _ => ⟨rfl, rfl, rfl, rfl⟩⟩
  cleanUp hi _ _ _ h := h.trans ⟨fun _ => rfl, fun _ => rfl, fun h => absurd hi h, fun _ => ⟨rfl, rfl⟩,
    fun _ => ⟨rfl, rfl, rfl, rfl⟩⟩
  timeout _ s _ := .refl s
  polling _ s _ := .refl s
  resolution _ := .refl
  sleep _ _ _ _ _ _ := .of_frame rfl rfl rfl ⟨rfl, rfl⟩ ⟨rfl, rfl, rfl, rfl⟩
  sleepReset _ _ _ _ := .of_frame rfl rfl rfl ⟨rfl, rfl⟩ ⟨rfl, rfl, rfl, rfl⟩

theorem written_complete (s : State) (st : BitVec 4) : Written i s (s.complete st) :=
  .of_frame rfl rfl rfl ⟨rfl, rfl⟩ ⟨rfl, rfl, rfl, rfl⟩

theorem written_suspend (s : State) (q : Seq) : Written i s (s.suspend q) :=
  .of_frame rfl rfl rfl ⟨rfl, rfl⟩ ⟨rfl, rfl, rfl, rfl⟩

/-- A request, with no reset due, writes the record, `REQ` and the host's list never, and the registers of `Written`
where it is one of their writers. -/
theorem exec_written {s t : State} (hs : s.Ready) (h : exec i s = .next t) :
    Written i s t ∧ t.params = s.params ∧ t.req = s.req ∧ t.host = s.host := by
  have run := runs_procOf (written_keeps i)
  obtain ⟨u, hp, hf, rfl⟩ | ⟨c, u, hp, hf, rfl⟩ | ⟨n, u, hp, hf, rfl⟩ | ⟨u, hp, hf, rfl⟩ :=
    exec_ready_cases hs h
  · exact ⟨(run.of_ok hp).trans (written_complete u _), hf.params, hf.req, hf.host⟩
  · exact ⟨(run.of_error hp).trans (written_complete u _), hf.params, hf.req, hf.host⟩
  · exact ⟨(run.of_error hp).trans (written_suspend u _), hf.params, hf.req, hf.host⟩
  · exact ⟨(run.of_error hp).trans (written_suspend u _), hf.params, hf.req, hf.host⟩

/-! ### The requests that perform neither a bus reset nor a round trip -/

/-- The bit and byte requests, the codec and the waits (R133, R170, R180). -/
def keepsBus : Instr → Prop
  | .tWbit _ | .tRbit | .tWbyte _ | .tRbyte => True
  | .kDecode | .kEncode _ _ _ => True
  | .wWaitNone | .wWaitData | .wWaitDelay => True
  | _ => False

/-- An event other than a `SetBaud`. -/
def Event.keepsRate : Event → Prop
  | .setBaud _ => False
  | _ => True

theorem Event.ofSlot.keepsRate {e : Event} (h : e.ofSlot) : e.keepsRate := by
  cases e
  case setBaud => exact h.elim
  all_goals trivial

/-- The record and the registers of the bus and of the response are as they were, and no rate has been set. -/
structure SameBus (s t : State) : Prop where
  params : t.params = s.params
  rxlen : t.rxlen = s.rxlen
  rxbuf : t.rxbuf = s.rxbuf
  connected : t.connected = s.connected
  baudsel : t.baudsel = s.baudsel
  events : ∃ evs, t.link.trace = s.link.trace ++ evs ∧ ∀ e ∈ evs, e.keepsRate

/-- The same where the request `i` ends early; a failure is one that its row of the table of R230 allows. -/
def SameBusEnd (i : Instr) (e : Stop) (s t : State) : Prop :=
  SameBus s t ∧ ∀ c, e = .fail c → c ∈ possibleCauses s.params i

theorem SameBus.refl (s : State) : SameBus s s := ⟨rfl, rfl, rfl, rfl, rfl, [], by simp⟩

theorem SameBus.trans {s t u : State} (h : SameBus s t) (h' : SameBus t u) : SameBus s u :=
  ⟨h'.params.trans h.params, h'.rxlen.trans h.rxlen, h'.rxbuf.trans h.rxbuf,
    h'.connected.trans h.connected, h'.baudsel.trans h.baudsel, grows_trans h.events h'.events⟩

theorem sameBus_chains (i : Instr) : Chains SameBus (SameBusEnd i) where
  refl := .refl
  trans _ _ _ := .trans
  absorb _ _ _ _ h h' := ⟨h.trans h'.1, h.params ▸ h'.2⟩

theorem sameBus_slots {s : State} {l : Link}
    (hg : ∃ evs, l.trace = s.link.trace ++ evs ∧ ∀ e ∈ evs, e.ofSlot) : SameBus s (s.setLink l) := by
  obtain ⟨evs, ht, he⟩ := hg
  exact ⟨rfl, rfl, rfl, rfl, rfl, evs, ht, fun e h => (he e h).keepsRate⟩

/-- An early end of slots, in a request that can fail with `TRANSFER`. -/
theorem sameBusEnd_slots (hi : ∀ c, .transfer ∈ possibleCauses c i) {e : Stop} {s : State} {l : Link}
    (he : e.onBus) (m : s.link.EndsBy Event.ofSlot e l) : SameBusEnd i e s (s.setLink l) := by
  refine ⟨sameBus_slots m.grows, ?_⟩
  rintro c rfl
  obtain rfl : c = .transfer := he
  exact hi _

theorem Runs.sameBus_onlySlots (hi : ∀ c, .transfer ∈ possibleCauses c i) {p : Proc α}
    (hp : OnlySlots Stop.onBus p) : Runs SameBus (SameBusEnd i) p := by
  intro s
  obtain ⟨l, ⟨a, x, hx⟩ | ⟨e, he, m, hx⟩⟩ := hp s
  · exact .inl ⟨x, _, hx, sameBus_slots a.grows⟩
  · exact .inr ⟨e, _, hx, sameBusEnd_slots hi he m⟩

theorem sameBus_setRdata (v : α → Byte) {p : Proc α} (hp : Runs SameBus (SameBusEnd i) p) :
    Runs SameBus (SameBusEnd i) (p >>= fun a => modify (·.setRdata (v a))) :=
  .bind (sameBus_chains i) hp fun _ => .modify fun _ => ⟨rfl, rfl, rfl, rfl, rfl, [], by simp⟩

theorem decodeScratch_sameBus : Runs SameBus (SameBusEnd .kDecode) decodeScratch := by
  intro s
  obtain ⟨_, _, _, _, _, _, _, -, -, hd⟩ | hd := decodeScratch_cases s
  · exact .inl ⟨_, _, hd, rfl, rfl, rfl, rfl, rfl, [], by simp⟩
  · exact .inr ⟨_, _, hd, .refl s, by rintro c ⟨⟩; simp [possibleCauses]⟩

/-- The first poll can also fail with `TIMEOUT`, at the limit 1 (R186, R217). -/
theorem waitData_sameBus : Runs SameBus (SameBusEnd .wWaitData) waitData := by
  intro s
  obtain ⟨l, ⟨a, hp | ⟨hl, hp⟩ | ⟨-, hp⟩⟩ | ⟨e, he, m, hp⟩⟩ := pollOnce_cases 0 s
  · exact .inl ⟨_, _, hp, sameBus_slots a.grows⟩
  · refine .inr ⟨_, _, hp, sameBus_slots a.grows, ?_⟩
    rintro c ⟨⟩
    simp [possibleCauses, possibleCauses.whenLimited, hl]
  · exact .inr ⟨_, _, hp, sameBus_slots a.grows, by simp⟩
  · exact .inr ⟨_, _, hp, sameBusEnd_slots (fun c => by simp [possibleCauses]) he m⟩

theorem waitDelay_sameBus : Runs SameBus (SameBusEnd .wWaitDelay) waitDelay := by
  intro s
  obtain hp | ⟨l, r, ht, hp⟩ := waitDelay_cases s
  · exact .inr ⟨_, _, hp, .refl s, by rintro c ⟨⟩; simp [possibleCauses]⟩
  have same : SameBus s (s.setLink l) := ⟨rfl, rfl, rfl, rfl, rfl, _, ht, by simp [Event.keepsRate]⟩
  rcases hp with ⟨-, hp⟩ | ⟨-, hp⟩
  · exact .inl ⟨_, _, hp, same⟩
  · exact .inr ⟨_, _, hp, same, by simp⟩

/-- These requests leave the bus alone, and fail with a cause of their row (R230). -/
theorem keepsBus_runs (hi : keepsBus i) : Runs SameBus (SameBusEnd i) (procOf i) := by
  cases i
  case tWbit b => exact .sameBus_onlySlots (fun _ => by simp [possibleCauses]) (writeBit_onlySlots b)
  case tRbit =>
    exact sameBus_setRdata _ (.sameBus_onlySlots (fun _ => by simp [possibleCauses]) readBit_onlySlots)
  case tWbyte v => exact .sameBus_onlySlots (fun _ => by simp [possibleCauses]) (writeByte_onlySlots v)
  case tRbyte =>
    exact sameBus_setRdata _ (.sameBus_onlySlots (fun _ => by simp [possibleCauses]) readByte_onlySlots)
  case kDecode => exact decodeScratch_sameBus
  case kEncode => exact fun s => .inl ⟨_, _, rfl, rfl, rfl, rfl, rfl, rfl, [], by simp⟩
  case wWaitNone => exact .pure (sameBus_chains _) _
  case wWaitData => exact waitData_sameBus
  case wWaitDelay => exact waitDelay_sameBus
  all_goals exact hi.elim

/-- However such a request ends, it has left the bus alone. -/
theorem exec_sameBus {s t : State} (hi : keepsBus i) (hs : s.Ready) (h : exec i s = .next t) :
    SameBus s t := by
  have run := keepsBus_runs hi
  obtain ⟨u, hp, -, rfl⟩ | ⟨c, u, hp, -, rfl⟩ | ⟨n, u, hp, -, rfl⟩ | ⟨u, hp, -, rfl⟩ :=
    exec_ready_cases hs h
  · exact (run.of_ok hp).trans ⟨rfl, rfl, rfl, rfl, rfl, [], by simp⟩
  · exact (run.of_error hp).1.trans ⟨rfl, rfl, rfl, rfl, rfl, [], by simp⟩
  · exact (run.of_error hp).1.trans ⟨rfl, rfl, rfl, rfl, rfl, [], by simp⟩
  · exact (run.of_error hp).1.trans ⟨rfl, rfl, rfl, rfl, rfl, [], by simp⟩

/-- `T.RESET` leaves the response alone (R140). -/
theorem exec_tReset_response {s t : State} (hs : s.Ready) (h : exec .tReset s = .next t) :
    t.rxlen = s.rxlen ∧ t.rxbuf = s.rxbuf := by
  obtain ⟨-, rfl⟩ := exec_next h
  obtain ⟨l, ⟨-, ⟨p, hp⟩ | hp⟩ | ⟨e, b, he, m, hp⟩⟩ := busReset_cases s
  · rw [procOf, procTReset, bind_ok hp]
    exact ⟨rfl, rfl⟩
  · rw [procOf, procTReset, bind_error hp]
    exact ⟨rfl, rfl⟩
  · rw [procOf, procTReset, bind_error hp]
    cases e with
    | reset => exact absurd rfl (m.notReset hs.2)
    | fail _ | polling _ | noReturn => exact ⟨rfl, rfl⟩

/-- Settles O55: the one frame of all requests, and the frame of those that leave the response alone. -/
theorem onlyTheNamedOperationsWrite : Obligations.OnlyTheNamedOperationsWrite := by
  unfold Obligations.OnlyTheNamedOperationsWrite
  intro i s t hs h
  obtain ⟨hw, hparams, hreq, hhost⟩ := exec_written hs h
  refine ⟨hparams, hreq, hhost, fun hne => ?_, fun hne => ?_, fun hne => ?_, fun hne => ?_, fun hne => ?_,
    fun hi => ?_⟩
  · have : writesRdata i := by_contra fun hi => hne (hw.rdata hi)
    cases i <;> simp_all [writesRdata]
  · have : writesSn i := by_contra fun hi => hne (hw.sn hi)
    cases i <;> simp_all [writesSn]
  · exact by_contra fun hi => hne (hw.initialized hi)
  · have : writesTxbuf i := by_contra fun hi => by simp [hw.txbuf hi] at hne
    cases i <;> simp_all [writesTxbuf]
  · have : decodes i := by_contra fun hi => by simp [hw.sensor hi] at hne
    cases i <;> simp_all [decodes]
  · have hkeeps : i = .tReset ∨ keepsBus i := by
      obtain ⟨b, rfl⟩ | ⟨v, rfl⟩ | hmem | ⟨a, b, c, rfl⟩ := hi
      · exact .inr trivial
      · exact .inr trivial
      · simp only [List.mem_cons, List.not_mem_nil, or_false] at hmem
        obtain hr | rfl | rfl | rfl | rfl | rfl | rfl := hmem
        · exact .inl hr
        all_goals exact .inr trivial
      · exact .inr trivial
    obtain rfl | hkeeps := hkeeps
    · obtain ⟨hlen, hbuf⟩ := exec_tReset_response hs h
      exact ⟨hlen, hbuf, fun hne => absurd rfl hne⟩
    · have hsame := exec_sameBus hkeeps hs h
      exact ⟨hsame.rxlen, hsame.rxbuf, fun _ => ⟨hsame.connected, hsame.baudsel⟩⟩

/-! ### Causes -/

/-- The record is kept. -/
def SameRecord (s t : State) : Prop := t.params = s.params

/-- The record is kept, and a failure of the request `i` is one that its row of the table of R230 allows. -/
def Allowed (i : Instr) (e : Stop) (s t : State) : Prop :=
  s.params.wf = true → t.params = s.params ∧ ∀ c, e = .fail c → c ∈ possibleCauses s.params i

/-- A failure with a cause of the row, at the state reached. -/
theorem Allowed.fail {c : Cause} {s : State} (h : s.params.wf = true → c ∈ possibleCauses s.params i) :
    Allowed i (.fail c) s s := fun hwf => ⟨rfl, by rintro _ ⟨⟩; exact h hwf⟩

/-- An end that is no failure. -/
theorem Allowed.other {e : Stop} {s t : State} (hp : t.params = s.params) (he : ∀ c, e ≠ .fail c) :
    Allowed i e s t := fun _ => ⟨hp, fun c h => absurd h (he c)⟩

/-- A request with round trips can fail as each of its round trips can, with `CONTRACT` only where the payload is the
host's (R215). -/
theorem round_trip_causes (hb : ¬ keepsBus i) (hr : i ≠ .tReset) (c : Cfg) :
    .transfer ∈ possibleCauses c i ∧ .connectivity ∈ possibleCauses c i := by
  cases i
  case tReset => exact absurd rfl hr
  case tWbit | tRbit | tWbyte | tRbyte | kDecode | kEncode | wWaitNone | wWaitData | wWaitDelay =>
    exact absurd trivial hb
  all_goals simp [possibleCauses]

theorem contract_allowed {cmd : Command} {payload : List Byte} {c : Cfg} (hwf : c.wf = true)
    (ht : trips i cmd payload) (hl : payload.length ≠ (c.desc cmd).tx) : .contract ∈ possibleCauses c i := by
  have h3 := wf_wscratch hwf
  cases i
  case cInit | cReadrom | cSkiprom | cConvertt | cRscratch | cWscratch => simp [possibleCauses]
  case sInitialize | sReadrom | sSkiprom =>
    obtain ⟨rfl, rfl⟩ := ht
    simp [Cfg.desc] at hl
  case sConvertNone | sConvertData | sConvertDelay | sReadscratch =>
    obtain ⟨rfl | rfl, rfl⟩ := ht <;> simp [Cfg.desc] at hl
  case sWritescratch =>
    obtain ⟨rfl, rfl⟩ | ⟨rfl, rfl⟩ := ht
    · simp [Cfg.desc] at hl
    · simp [Cfg.desc, h3] at hl
  all_goals exact ht.elim

theorem allowed_busKeeps (hb : ¬ keepsBus i) (hr : i ≠ .tReset) :
    BusKeeps (trips i) SameRecord (Allowed i) where
  refl _ := rfl
  trans _ _ _ h h' := Eq.trans h' h
  absorb e s t u h h' hwf := by
    obtain ⟨hp, hc⟩ := h' (by rw [h]; exact hwf)
    have h : t.params = s.params := h
    exact ⟨hp.trans h, h ▸ hc⟩
  slots _ _ _ := rfl
  slotsEnd e s l he _ hwf := by
    refine ⟨rfl, ?_⟩
    rintro c rfl
    obtain rfl : c = .transfer := he
    exact (round_trip_causes hb hr _).1
  reset _ _ _ _ := rfl
  transfer _ := .fail fun _ => (round_trip_causes hb hr _).1
  broken e _ _ _ _ he _ := .other rfl (by rintro c rfl; exact he)
  absent _ := .fail fun _ => (round_trip_causes hb hr _).2
  openResponse _ := rfl
  commit _ _ _ _ := rfl
  mismatch _ _ _ ht hl := .fail fun hwf => contract_allowed hwf ht hl

theorem allowed_keeps (hb : ¬ keepsBus i) (hr : i ≠ .tReset) : Keeps i SameRecord (Allowed i) where
  toBusKeeps := allowed_busKeeps hb hr
  rdata _ _ _ := rfl
  sn _ _ _ _ := rfl
  sensor _ _ _ _ _ _ _ _ _ _ _ := rfl
  decodeFails hi _ := .fail fun _ => by cases i <;> simp_all [decodes, possibleCauses]
  txbuf _ _ _ _ _ := rfl
  initialized _ _ := rfl
  cleanUp _ _ _ _ h := h
  timeout hi s hl := .fail fun _ => by
    cases i <;> simp_all [polls, possibleCauses, possibleCauses.whenLimited]
  polling _ _ _ := .other rfl (by simp)
  resolution hi _ := .fail fun _ => by cases i <;> simp_all [sleeps, possibleCauses]
  sleep _ _ _ _ _ _ := rfl
  sleepReset _ _ _ _ := .other rfl (by simp)

/-- Every request that fails raises a cause of its row (R230). -/
theorem procOf_fail_allowed {s u : State} {c : Cause} (hwf : s.params.wf = true)
    (h : procOf i s = .error (.fail c) u) : c ∈ possibleCauses s.params i := by
  by_cases hb : keepsBus i
  · exact ((keepsBus_runs hb).of_error h).2 c rfl
  by_cases hr : i = .tReset
  · subst hr
    obtain ⟨l, ⟨-, ⟨p, hp⟩ | hp⟩ | ⟨e, b, he, -, hp⟩⟩ := busReset_cases s
    · rw [procOf, procTReset, bind_ok hp] at h
      cases h
    · rw [procOf, procTReset, bind_error hp] at h
      cases h
      simp [possibleCauses]
    · rw [procOf, procTReset, bind_error hp] at h
      cases h
      exact he.elim
  · exact ((runs_procOf (allowed_keeps hb hr)).of_error h hwf).2 c rfl

theorem complete_failure_causeField (s : State) (c : Cause) :
    (s.complete (statusFailure c)).causeField = c.code := by
  show (statusFailure c).extractLsb' 0 3 = c.code
  cases c <;> decide

/-- Settles O54: a completed request succeeded, or raised a cause of its row. -/
theorem causesAreThoseOfTheTable : Obligations.CausesAreThoseOfTheTable := by
  unfold Obligations.CausesAreThoseOfTheTable
  intro i s t hs h hb
  cases hf : t.failFlag with
  | false =>
    obtain ⟨u, -, -, rfl⟩ := exec_succeeded hs h hb hf
    exact .inl rfl
  | true =>
    obtain ⟨c, u, hp, -, rfl⟩ := exec_failed hs h hb hf
    exact .inr ⟨c, procOf_fail_allowed hs.1 hp, rfl, complete_failure_causeField u c⟩

/-! ### The data rate -/

/-- The events set no rate and `BAUDSEL` is kept, or the last rate they set is the data rate and so says `BAUDSEL`
(R120). -/
def RateAfter (evs : List Event) (s t : State) : Prop :=
  ((∀ r, Event.setBaud r ∉ evs) ∧ t.baudsel = s.baudsel) ∨
    (t.baudsel = .data ∧ ∃ a b, evs = a ++ Event.setBaud s.params.baudData :: b ∧ ∀ r, Event.setBaud r ∉ b)

theorem RateAfter.append {e1 e2 : List Event} {s t u : State} (hp : t.params = s.params)
    (h : RateAfter e1 s t) (h' : RateAfter e2 t u) : RateAfter (e1 ++ e2) s u := by
  obtain ⟨hn', hb'⟩ | ⟨hb', a', b', rfl, hn'⟩ := h'
  · obtain ⟨hn, hb⟩ | ⟨hb, a, b, rfl, hn⟩ := h
    · exact .inl ⟨fun r hr => (List.mem_append.mp hr).elim (hn r) (hn' r), hb'.trans hb⟩
    · exact .inr ⟨hb'.trans hb, a, b ++ e2, by simp,
        fun r hr => (List.mem_append.mp hr).elim (hn r) (hn' r)⟩
  · exact .inr ⟨hb', e1 ++ a', b', by rw [hp, List.append_assoc], hn'⟩

/-- The record is kept and the new events leave the rate as R120 asks. -/
def RateRestored (s t : State) : Prop :=
  t.params = s.params ∧ ∃ evs, t.link.trace = s.link.trace ++ evs ∧ RateAfter evs s t

/-- The same at an early end, unless the procedure was broken off (R244). -/
def RateRestoredEnd (e : Stop) (s t : State) : Prop := ¬ e.broken → RateRestored s t

theorem RateRestored.trans {s t u : State} (h : RateRestored s t) (h' : RateRestored t u) :
    RateRestored s u := by
  obtain ⟨hp, e1, ht, hr⟩ := h
  obtain ⟨hp', e2, ht', hr'⟩ := h'
  exact ⟨hp'.trans hp, e1 ++ e2, by rw [ht', ht, List.append_assoc], hr.append hp hr'⟩

/-- An update that sets no rate and performs no event but those given. -/
theorem RateRestored.of_events {s t : State} (hp : t.params = s.params) (hb : t.baudsel = s.baudsel)
    (hg : ∃ evs, t.link.trace = s.link.trace ++ evs ∧ ∀ e ∈ evs, e.keepsRate) : RateRestored s t := by
  obtain ⟨evs, ht, he⟩ := hg
  exact ⟨hp, evs, ht, .inl ⟨fun r hr => he _ hr, hb⟩⟩

theorem RateRestored.of_trace {s t : State} (hp : t.params = s.params) (hb : t.baudsel = s.baudsel)
    (ht : t.link.trace = s.link.trace) : RateRestored s t := .of_events hp hb ⟨[], by simp [ht], by simp⟩

theorem keepsRate_of_slots {l l' : Link} (h : ∃ evs, l'.trace = l.trace ++ evs ∧ ∀ e ∈ evs, e.ofSlot) :
    ∃ evs, l'.trace = l.trace ++ evs ∧ ∀ e ∈ evs, e.keepsRate := by
  obtain ⟨evs, ht, he⟩ := h
  exact ⟨evs, ht, fun e h => (he e h).keepsRate⟩

/-- A bus reset that ends restores the data rate (R123). -/
theorem rateRestored_reset (s : State) (p : Bool) {l : Link} (h : s.link.Resets s.params l) :
    RateRestored s (s.afterReset p l) := by
  obtain ⟨evs, ht⟩ := h.restored
  exact ⟨rfl, _, ht, .inr ⟨rfl, evs, [], rfl, by simp⟩⟩

theorem rateRestored_busKeeps (P : Command → List Byte → Prop) :
    BusKeeps P RateRestored RateRestoredEnd where
  refl _ := .of_trace rfl rfl rfl
  trans _ _ _ := .trans
  absorb _ _ _ _ h h' hn := h.trans (h' hn)
  slots _ _ a := .of_events rfl rfl (keepsRate_of_slots a.grows)
  slotsEnd _ _ _ _ m _ := .of_events rfl rfl (keepsRate_of_slots m.grows)
  reset s p _ r := rateRestored_reset s p r
  transfer _ _ := .of_trace rfl rfl rfl
  broken _ _ _ _ _ he _ hn := absurd he hn
  absent _ _ := .of_trace rfl rfl rfl
  openResponse _ := .of_trace rfl rfl rfl
  commit _ _ _ _ := .of_trace rfl rfl rfl
  mismatch _ _ _ _ _ _ := .of_trace rfl rfl rfl

theorem rateRestored_keeps (i : Instr) : Keeps i RateRestored RateRestoredEnd where
  toBusKeeps := rateRestored_busKeeps _
  rdata _ _ _ := .of_trace rfl rfl rfl
  sn _ _ _ _ := .of_trace rfl rfl rfl
  sensor _ _ _ _ _ _ _ _ _ _ _ := .of_trace rfl rfl rfl
  decodeFails _ _ _ := .of_trace rfl rfl rfl
  txbuf _ _ _ _ _ := .of_trace rfl rfl rfl
  initialized _ _ := .of_trace rfl rfl rfl
  cleanUp _ _ _ _ h hn := (h hn).trans (.of_trace rfl rfl rfl)
  timeout _ _ _ _ := .of_trace rfl rfl rfl
  polling _ _ _ _ := .of_trace rfl rfl rfl
  resolution _ _ _ := .of_trace rfl rfl rfl
  sleep _ _ _ _ ht _ := .of_events rfl rfl ⟨_, ht, by simp [Event.keepsRate]⟩
  sleepReset _ _ _ _ hn := absurd trivial hn

/-- A request that completes has restored the data rate, if it left it. -/
theorem exec_rateRestored {s t : State} (hs : s.Ready) (h : exec i s = .next t) (hb : t.busy = false) :
    RateRestored s t := by
  have run := runs_procOf (rateRestored_keeps i)
  cases hf : t.failFlag with
  | false =>
    obtain ⟨u, hp, -, rfl⟩ := exec_succeeded hs h hb hf
    exact (run.of_ok hp).trans (.of_trace rfl rfl rfl)
  | true =>
    obtain ⟨c, u, hp, -, rfl⟩ := exec_failed hs h hb hf
    exact (run.of_error hp id).trans (.of_trace rfl rfl rfl)

/-- Settles O56: the requests that leave the bus alone set no rate, and every other one restores the data rate. -/
theorem dataRateIsRestored : Obligations.DataRateIsRestored := by
  unfold Obligations.DataRateIsRestored
  intro i s t hs h hb
  by_cases hi : keepsBus i
  · have hsame := exec_sameBus hi hs h
    obtain ⟨evs, ht, he⟩ := hsame.events
    exact ⟨evs, ht, .inl ⟨fun r hr => he _ hr, hsame.baudsel⟩⟩
  · obtain ⟨-, evs, ht, hkept | ⟨hdata, hlast⟩⟩ := exec_rateRestored hs h hb
    · exact ⟨evs, ht, .inl hkept⟩
    · refine ⟨evs, ht, .inr ⟨hdata, hlast, ?_⟩⟩
      cases i
      case tWbit | tRbit | tWbyte | tRbyte | kDecode | kEncode | wWaitNone | wWaitData | wWaitDelay =>
        exact absurd trivial hi
      all_goals simp

/-! ### Failures -/

/-- A procedure that is quiet wherever it ends early: its results reach their registers after its last step that can
fail (R219). -/
def FailsQuiet (p : Proc α) : Prop := ∀ s e u, p s = .error e u → Quiet s u

theorem quiet_busKeeps : BusKeeps (fun _ _ => True) Quiet (fun _ => Quiet) where
  refl := .refl
  trans _ _ _ := .trans
  absorb _ _ _ _ := .trans
  slots _ _ _ := by constructor <;> rfl
  slotsEnd _ _ _ _ _ := by constructor <;> rfl
  reset _ _ _ _ := by constructor <;> rfl
  transfer := .refl
  broken _ _ _ _ _ _ _ := by constructor <;> rfl
  absent := .refl
  openResponse _ := by constructor <;> rfl
  commit _ _ _ _ := by constructor <;> rfl
  mismatch s _ _ _ _ := .refl s

theorem Runs.failsQuiet {p : Proc α} (h : Runs Quiet (fun _ => Quiet) p) : FailsQuiet p :=
  fun _ _ _ hp => h.of_error hp

/-- A quiet procedure, then one that fails quietly. -/
theorem FailsQuiet.bind {p : Proc α} {f : α → Proc β} (hp : Runs Quiet (fun _ => Quiet) p)
    (hf : ∀ a, FailsQuiet (f a)) : FailsQuiet (p >>= f) := by
  intro s e u h
  obtain ⟨a, t, h1, h2⟩ | ⟨e', t, h1, h2⟩ := hp s
  · rw [bind_ok h1] at h
    exact h2.trans (hf a t e u h)
  · rw [bind_error h1] at h
    cases h
    exact h2

/-- A procedure that fails quietly, then an update, which cannot fail. -/
theorem FailsQuiet.bind_modify {p : Proc α} {f : α → State → State} (hp : FailsQuiet p) :
    FailsQuiet (p >>= fun a => modify (f a)) := by
  intro s e u h
  cases h1 : p s with
  | ok a t =>
    rw [bind_ok h1] at h
    cases h
  | error e' t =>
    rw [bind_error h1] at h
    cases h
    exact hp s e _ h1

theorem execute_runs_quiet (cmd : Command) (payload : List Byte) :
    Runs Quiet (fun _ => Quiet) (execute cmd payload) := .execute quiet_busKeeps cmd payload trivial

theorem command_failsQuiet (cmd : Command) (payload : List Byte) :
    FailsQuiet (do let _ ← execute cmd payload : Proc Unit) :=
  (Runs.bind quiet_busKeeps.toChains (execute_runs_quiet cmd payload) fun _ =>
    .pure quiet_busKeeps.toChains _).failsQuiet

theorem startConversion_runs_quiet : Runs Quiet (fun _ => Quiet) startConversion :=
  .bind quiet_busKeeps.toChains (execute_runs_quiet _ _) fun _ =>
    .bind quiet_busKeeps.toChains (execute_runs_quiet _ _) fun _ => .pure quiet_busKeeps.toChains _

theorem readSerial_failsQuiet : FailsQuiet readSerial := (execute_runs_quiet _ _).failsQuiet.bind_modify

theorem decodeScratch_failsQuiet : FailsQuiet decodeScratch := by
  intro s e u h
  obtain ⟨_, _, _, _, _, _, _, -, -, hd⟩ | hd := decodeScratch_cases s
  · rw [hd] at h
    cases h
  · rw [hd] at h
    cases h
    exact .refl s

theorem pollOnce_failsQuiet (n : Nat) : FailsQuiet (pollOnce n) := by
  intro s e u h
  obtain ⟨l, ⟨-, hp | ⟨-, hp⟩ | ⟨-, hp⟩⟩ | ⟨_, -, -, hp⟩⟩ := pollOnce_cases n s <;> rw [hp] at h <;> cases h
  all_goals constructor <;> rfl

theorem waitDelay_failsQuiet : FailsQuiet waitDelay := by
  intro s e u h
  obtain hp | ⟨l, r, -, ⟨-, hp⟩ | ⟨-, hp⟩⟩ := waitDelay_cases s <;> rw [hp] at h <;> cases h
  all_goals constructor <;> rfl

/-- `S.INITIALIZE` without its clean-up (R191). -/
def initializeSteps : Proc Unit := do
  let p ← busReset
  failIf (p = false) .connectivity
  readSerial
  modify fun s => (s.setInitialized true).setConnected true

theorem procSInitialize_eq : procSInitialize = clearInitializedOnFail initializeSteps := rfl

theorem initializeSteps_failsQuiet : FailsQuiet initializeSteps :=
  .bind (.busReset quiet_busKeeps) fun _ =>
    .bind (.failIf quiet_busKeeps.toChains Quiet.refl) fun _ => readSerial_failsQuiet.bind_modify

/-- A failure of `S.INITIALIZE` is one of its steps, cleaned up (R191). -/
theorem clearInitialized_fail_inv {p : Proc Unit} {s u : State} {c : Cause}
    (h : clearInitializedOnFail p s = .error (.fail c) u) :
    ∃ v, p s = .error (.fail c) v ∧ u = v.setInitialized false := by
  unfold clearInitializedOnFail at h
  split at h
  · rename_i v hp
    cases h
    exact ⟨v, hp, rfl⟩
  · rename_i hne
    exact absurd h (hne c u)

/-- Every request but `S.INITIALIZE` is quiet wherever it ends early (R219). -/
theorem procOf_failsQuiet (hi : i ≠ .sInitialize) : FailsQuiet (procOf i) := by
  have slotted : ∀ {γ} {p : Proc γ}, OnlySlots Stop.onBus p → FailsQuiet p :=
    fun h => (Runs.onlySlots quiet_busKeeps h).failsQuiet
  cases i
  case tReset => exact (Runs.busReset quiet_busKeeps).failsQuiet.bind_modify
  case tWbit b => exact slotted (writeBit_onlySlots b)
  case tRbit => exact (slotted readBit_onlySlots).bind_modify
  case tWbyte v => exact slotted (writeByte_onlySlots v)
  case tRbyte => exact (slotted readByte_onlySlots).bind_modify
  case cInit | cReadrom | cSkiprom | cConvertt | cRscratch | cWscratch => exact command_failsQuiet _ _
  case kDecode => exact decodeScratch_failsQuiet
  case kEncode => intro s e u h; cases h
  case wWaitNone => intro s e u h; cases h
  case wWaitData => exact pollOnce_failsQuiet 0
  case wWaitDelay => exact waitDelay_failsQuiet
  case sInitialize => exact absurd rfl hi
  case sConvertNone => exact .bind startConversion_runs_quiet fun _ s e u h => by cases h
  case sConvertData => exact .bind startConversion_runs_quiet fun _ => pollOnce_failsQuiet 0
  case sConvertDelay => exact .bind startConversion_runs_quiet fun _ => waitDelay_failsQuiet
  case sReadscratch =>
    exact .bind (execute_runs_quiet _ _) fun _ => .bind (execute_runs_quiet _ _) fun _ =>
      decodeScratch_failsQuiet
  case sWritescratch a b c =>
    exact .bind (f := fun payload => do
        let _ ← execute .skipRom []
        let _ ← execute .writeScratch payload)
      (.bind quiet_busKeeps.toChains (.modify fun s => by constructor <;> rfl) fun _ =>
        .pure quiet_busKeeps.toChains _)
      fun _ => .bind (execute_runs_quiet _ _) fun _ => command_failsQuiet _ _
  case sReadrom => exact readSerial_failsQuiet
  case sSkiprom => exact command_failsQuiet _ _

/-- Settles O53: a request that fails was quiet until then; `S.INITIALIZE` has the clean-up beside it. -/
theorem failureKeepsTheSensorRegisters : Obligations.FailureKeepsTheSensorRegisters := by
  unfold Obligations.FailureKeepsTheSensorRegisters
  intro i s t hs h hb hf
  obtain ⟨c, u, hp, -, rfl⟩ := exec_failed hs h hb hf
  by_cases hi : i = .sInitialize
  · subst hi
    obtain ⟨v, hv, rfl⟩ := clearInitialized_fail_inv hp
    have hq := initializeSteps_failsQuiet s _ v hv
    exact ⟨hq.temp, hq.th, hq.tl, hq.cfg, hq.sn, hq.rdata, rfl⟩
  · have hq := procOf_failsQuiet hi s _ u hp
    exact ⟨hq.temp, hq.th, hq.tl, hq.cfg, hq.sn, hq.rdata, by rw [if_neg hi]; exact hq.initialized⟩

/-! ### Registers that no operation reads -/

/-- Results that agree are settled in states that agree again, at the same point and with the same status. -/
theorem settle_sameInputs {r r' : EStateM.Result Stop State α} (h : SameResult State.SameInputs r r') :
    (settle r).SameInputs (settle r') ∧ (settle r).busy = (settle r').busy ∧
      (settle r).seq = (settle r').seq ∧ ((settle r).busy = false → (settle r).status = (settle r').status) := by
  match r, r' with
  | .ok _ u, .ok _ v => exact ⟨h.2, rfl, rfl, fun _ => rfl⟩
  | .error e u, .error f v =>
    obtain ⟨rfl, hs⟩ := h
    cases e with
    | fail c => exact ⟨hs, rfl, rfl, fun _ => rfl⟩
    | polling n => exact ⟨hs, rfl, rfl, by simp⟩
    | noReturn => exact ⟨hs, rfl, rfl, by simp⟩
    | reset =>
      obtain ⟨hp, hl, hd, -, -, -⟩ := hs
      refine ⟨⟨hp, ?_, ?_, rfl, ?_, ?_⟩, rfl, rfl, fun _ => rfl⟩
      · simp [hl]
      · simp [hd, hp]
      · simp [hd, hp]
      · show Config.freeByte (u.draws + 8) = Config.freeByte (v.draws + 8)
        rw [hd]
  | .ok _ _, .error _ _ => exact h.elim
  | .error _ _, .ok _ _ => exact h.elim

/-- Settles O58: no request can tell two such states apart. -/
theorem unreadRegistersDoNotMatter : Obligations.UnreadRegistersDoNotMatter := by
  unfold Obligations.UnreadRegistersDoNotMatter
  intro i s s' t hsame h
  obtain ⟨hwf, rfl⟩ := exec_next h
  refine ⟨settle (procOf i s'), ?_, settle_sameInputs (procOf_alike sameInputs_blind i s s' hsame)⟩
  rw [exec_eq_perform, perform_eq (hsame.1 ▸ hwf)]

/-! ### After a decode -/

/-- A sequence that ends with a result passed through a result of its first part. -/
theorem bind_eq_ok {p : Proc α} {f : α → Proc β} {s u : State} {b : β} (h : (p >>= f) s = .ok b u) :
    ∃ a t, p s = .ok a t ∧ f a t = .ok b u := by
  cases hp : p s with
  | ok a t => exact ⟨a, t, rfl, by rw [← h, bind_ok hp]⟩
  | error e t =>
    rw [bind_error hp] at h
    cases h

theorem decodeScratch_ok_decoded {s u : State} (h : decodeScratch s = .ok () u) : u.Decoded := by
  obtain ⟨lsb, msb, th, tl, cfg, _, r, -, hr, hd⟩ | hd := decodeScratch_cases s
  · rw [hd] at h
    cases h
    exact decoded_setSensor s _ _ _ hr
  · rw [hd] at h
    cases h

/-- A request that decodes and succeeds ended with a decode (R162, R193). -/
theorem procOf_ok_decoded {s u : State} (hi : i = .kDecode ∨ i = .sReadscratch)
    (h : procOf i s = .ok () u) : u.Decoded := by
  rcases hi with rfl | rfl
  · exact decodeScratch_ok_decoded h
  · obtain ⟨_, _, -, h⟩ := bind_eq_ok h
    obtain ⟨_, _, -, h⟩ := bind_eq_ok h
    exact decodeScratch_ok_decoded h

/-- Settles O52: the reading decoded last has a pattern in `CFG`, and the wait's lookup finds it. -/
theorem delayCannotFailAfterADecode : Obligations.DelayCannotFailAfterADecode := by
  unfold Obligations.DelayCannotFailAfterADecode
  intro i s t hi hs h hb hf
  obtain ⟨u, hp, hframe, rfl⟩ := exec_succeeded hs h hb hf
  have hdec := procOf_ok_decoded hi hp
  refine ⟨hdec, ?_⟩
  obtain ⟨r, hr, -⟩ := hdec
  refine ⟨_, exec_wWaitDelay_known (s := u.complete statusSuccess) (hframe.params ▸ hs.1)
    (hframe.moves.notDue hs.2) (resLookup_sound hr), rfl, (s.params.row r).delayMs, ?_, ?_⟩
  · cases r <;> simp [Cfg.row]
  · rw [← hframe.params]
    rfl

end Sys2Proof.Machine
end

section
/-! The dispatcher family: how the six `C` requests end (30_encoding.md R96, R97; 41_dispatcher.md R141 to R148). -/

namespace Sys2Proof.Machine

/-- A `C` request ends as its round trip ends, settled (R143 to R148). -/
theorem exec_requestOf_ok {s u : State} (hwf : s.params.wf = true) {cmd : Command} {payload resp : List Byte}
    (h : execute cmd payload s = .ok resp u) :
    exec (requestOf cmd payload) s = .next (u.complete statusSuccess) := by
  rw [exec_requestOf]
  exact perform_ok hwf (bind_ok h)

theorem exec_requestOf_fail {s u : State} (hwf : s.params.wf = true) {cmd : Command} {payload : List Byte}
    {c : Cause} (h : execute cmd payload s = .error (.fail c) u) :
    exec (requestOf cmd payload) s = .next (u.complete (statusFailure c)) := by
  rw [exec_requestOf]
  exact perform_fail hwf (bind_error h)

/-- The response in the first bytes of `RXBUF` after a round trip, and free bytes above it. -/
theorem afterRoundTrip_rxbuf_length (s : State) (hwf : s.params.wf = true) (l : Link) {cmd : Command}
    {resp : List Byte} (hl : resp.length = (s.params.desc cmd).rx) :
    (s.afterRoundTrip l resp).rxbuf.length = s.params.rxbufLen := by
  have hle : resp.length ≤ s.params.rxbufLen := by
    rw [hl]
    exact wf_rx_le hwf cmd
  show (resp ++ (freeBytes s.draws s.params.rxbufLen).drop resp.length).length = s.params.rxbufLen
  simp [Nat.add_sub_cancel' hle]

theorem commandEvents_length (c : Cfg) (d : Descriptor) (payload : List Byte) (e0 : Byte) {es : List Byte}
    (hl : es.length = (commandBytes c d payload).length) :
    (commandEvents c d payload e0 es).length = 4 + 2 * es.length := by
  simp [commandEvents, resetEvents, slotEvents_length _ _ hl.symm]
  omega

/-- Settles O19: the descriptor table row by row, and the equation of an undisturbed round trip. -/
theorem commandRoundTripSucceeds : Obligations.CommandRoundTripSucceeds := by
  unfold Obligations.CommandRoundTripSucceeds
  refine ⟨fun c => ⟨rfl, rfl, rfl, rfl, rfl, rfl⟩, fun cmd payload s e0 es ⟨hwf, hnr⟩ hp h0 hlen he => ?_⟩
  have hl : es.length = (commandBytes s.params (s.params.desc cmd) payload).length :=
    hlen.trans (commandBytes_desc_length _ _ _ hp).symm
  refine ⟨_, exec_requestOf_ok hwf (execute_ok hnr cmd payload hp h0 hl he), responseIs_echoBytes _ _ _ _ _,
    afterRoundTrip_rxbuf_length s hwf _ (echoBytes_length _ _ _), ?_, ?_⟩
  · show (s.link.trace ++ commandEvents _ _ _ _ _).length = _
    rw [List.length_append, commandEvents_length _ _ _ _ hl]
    omega
  · simp only [State.afterRoundTrip, State.commitResponse, echoBytes_length]
    rfl

/-- Settles O20: the payload test comes before the first event. -/
theorem commandPayloadMismatchFailsFast : Obligations.CommandPayloadMismatchFailsFast := by
  unfold Obligations.CommandPayloadMismatchFailsFast
  intro cmd payload s hwf hp
  exact ⟨_, exec_requestOf_fail hwf (execute_mismatch s cmd payload hp), rfl⟩

/-- Settles O21: the echo of the sentinel ends the round trip after its reset. -/
theorem commandWithoutPresenceFails : Obligations.CommandWithoutPresenceFails := by
  unfold Obligations.CommandWithoutPresenceFails
  intro cmd payload s ⟨hwf, hnr⟩ hp he
  exact ⟨_, exec_requestOf_fail hwf (execute_absent hnr cmd payload hp he), rfl⟩

/-- Settles O22: a failing reset restores the data rate and ends the round trip. -/
theorem commandResetTransferFailure : Obligations.CommandResetTransferFailure := by
  unfold Obligations.CommandResetTransferFailure
  intro cmd payload s l ⟨hwf, hnr⟩ hp hl
  exact ⟨_, exec_requestOf_fail hwf (execute_reset_fails hnr cmd payload hp hl), rfl⟩

/-- Settles O23: the slots before the failing one are answered, and it ends the round trip. -/
theorem commandSlotTransferFailure : Obligations.CommandSlotTransferFailure := by
  unfold Obligations.CommandSlotTransferFailure
  intro cmd payload s e0 es b l ⟨hwf, hnr⟩ hp h0 he hb hl
  obtain ⟨hsplit, hlen⟩ := split_at_getElem? hb
  exact ⟨_, exec_requestOf_fail hwf (execute_slot_fails hnr cmd payload hp h0 hsplit hlen he hl), rfl⟩

end Sys2Proof.Machine
end

section
/-! A byte written and read back (20_memory.md R51), and the value of a decode (42_codec.md R161, R172, R173). -/

namespace Sys2Proof.Machine

/-- The wire bytes of `v` read as `v` where a write-1 slot sends the byte of a read slot (R92, R93). -/
theorem readsAs_wireBytes {c : Cfg} (hwf : c.wf = true) (h1 : c.w1Byte = c.readTxByte) (v : Byte) :
    ReadsAs c (wireBytes c v) v := by
  intro k hk
  have hne : c.w0Byte ≠ c.readTxByte := h1 ▸ wf_slotBytes hwf
  rw [wireBytes_getElem? c v hk]
  cases v.getLsbD k <;> simp [wireByte, h1, hne]

/-- Settles O17: the eight echoes read as one byte only, and the byte written is one. -/
theorem echoedByteReadsBack : Obligations.EchoedByteReadsBack := by
  unfold Obligations.EchoedByteReadsBack
  intro s v ⟨hwf, hnr⟩ h1 he
  refine ⟨_, perform_ok hwf (procTRbyte_ok hnr (wireBytes_length s.params v) he), ?_, rfl, rfl⟩
  exact readsAs_unique (readsAs_echoByte s.params _) (readsAs_wireBytes hwf h1 v)

/-- Settles O24: the decode of a known config byte, its value written out in bits. -/
theorem kDecodeResult : Obligations.KDecodeResult := by
  unfold Obligations.KDecodeResult
  intro s lsb msb th tl cfg rest r hwf hl hb hr
  rw [← decodeTemp_rawTemp]
  exact exec_kDecode_known hwf hl hb hr

/-! ### Rounding -/

/-- The mask of the `k` low bits. -/
abbrev lowMask (k : Nat) : Half := BitVec.ofNat 16 (2 ^ k - 1)

theorem lowMask_getLsbD (k : Nat) {j : Nat} (hj : j < 16) : (lowMask k).getLsbD j = decide (j < k) := by
  rw [lowMask, BitVec.getLsbD_ofNat, Nat.testBit_two_pow_sub_one]
  simp [hj]

/-- Clearing the `k` low bits shifts them out and zeros in. -/
theorem toNat_and_not_lowMask (x : Half) (k : Nat) : (x &&& ~~~(lowMask k)).toNat = x.toNat / 2 ^ k * 2 ^ k := by
  have hshift : x &&& ~~~(lowMask k) = (x >>> k) <<< k := by
    apply BitVec.eq_of_getLsbD_eq
    intro j hj
    rw [BitVec.getLsbD_and, BitVec.getLsbD_not, lowMask_getLsbD k hj, BitVec.getLsbD_shiftLeft,
      BitVec.getLsbD_ushiftRight]
    by_cases hk : j < k
    · simp [hk]
    · simp [hk, hj, Nat.add_sub_cancel' (Nat.le_of_not_lt hk)]
  have hle : x.toNat / 2 ^ k * 2 ^ k < 2 ^ 16 := (Nat.div_mul_le_self _ _).trans_lt x.isLt
  rw [hshift, BitVec.toNat_shiftLeft, BitVec.toNat_ushiftRight, Nat.shiftRight_eq_div_pow,
    Nat.shiftLeft_eq, Nat.mod_eq_of_lt hle]

/-- Clearing the `k` low bits rounds toward minus infinity to a multiple of `2 ^ k`. -/
theorem toInt_and_not_lowMask (x : Half) {k : Nat} (hk : k ≤ 3) :
    (x &&& ~~~(lowMask k)).toInt = 2 ^ k * (x.toInt / 2 ^ k) := by
  have hx := x.isLt
  simp only [BitVec.toInt_eq_toNat_cond, toNat_and_not_lowMask]
  obtain rfl | rfl | rfl | rfl : k = 0 ∨ k = 1 ∨ k = 2 ∨ k = 3 := by omega
  all_goals split <;> split <;> omega

/-- Where the top five bits agree, mask and sign clear the low bits and nothing else (R161, R173). -/
theorem decodeTemp_eq_and_not_lowMask {c : Cfg} {r : Resolution} {k : Nat} (hk : k ≤ 3)
    (hs : c.signMask = 0xF800#16) (hm : (c.row r).dataMask = 0x07FF#16 &&& ~~~(lowMask k)) {x : Half}
    (htop : ∀ j, 11 ≤ j → j < 16 → x.getLsbD j = x.getLsbD 15) :
    decodeTemp c r x = x &&& ~~~(lowMask k) := by
  have masks : ∀ j, j < 16 → (0x07FF#16).getLsbD j = decide (j < 11) ∧
      (0xF800#16).getLsbD j = decide (11 ≤ j) := by decide
  apply BitVec.eq_of_getLsbD_eq
  intro j hj
  obtain ⟨hdata, hsign⟩ := masks j hj
  have hlow := lowMask_getLsbD k hj
  by_cases h11 : j < 11
  · have : ¬ 11 ≤ j := by omega
    cases h15 : x.getLsbD 15 <;> simp_all [decodeTemp]
  · have hbit := htop j (by omega) hj
    have : ¬ j < k := by omega
    cases h15 : x.getLsbD 15 <;> simp_all [decodeTemp]

/-- Bit `3 + j` of the high byte is bit `11 + j` of the raw value. -/
theorem rawTemp_getLsbD_high (lsb msb : Byte) {j : Nat} (hj : 8 ≤ j) :
    (rawTemp lsb msb).getLsbD j = msb.getLsbD (j - 8) := by
  rw [rawTemp_eq_append]
  show BitVec.getLsbD (w := 8 + 8) (msb ++ lsb) j = _
  rw [BitVec.getLsbD_append, if_neg (by omega)]

/-- The top five bits of the raw value agree (R173). -/
theorem rawTemp_top_agree {lsb msb : Byte} (h : msb.extractLsb' 3 5 = 0#5 ∨ msb.extractLsb' 3 5 = 31#5) :
    ∀ j, 11 ≤ j → j < 16 → (rawTemp lsb msb).getLsbD j = (rawTemp lsb msb).getLsbD 15 := by
  have field {v : BitVec 5} (hv : msb.extractLsb' 3 5 = v) : ∀ j, j < 5 → msb.getLsbD (3 + j) = v.getLsbD j := by
    intro j hj
    rw [← hv, BitVec.getLsbD_extractLsb', decide_eq_true hj, Bool.true_and]
  have bits : ∃ b, ∀ j, j < 5 → msb.getLsbD (3 + j) = b := by
    rcases h with h | h
    · exact ⟨false, fun j hj => by rw [field h j hj, BitVec.getLsbD_zero]⟩
    · have ones : ∀ j, j < 5 → (31#5).getLsbD j = true := by decide
      exact ⟨true, fun j hj => by rw [field h j hj, ones j hj]⟩
  obtain ⟨b, hb⟩ := bits
  intro j h11 h16
  rw [rawTemp_getLsbD_high _ _ (by omega), rawTemp_getLsbD_high _ _ (by omega)]
  obtain ⟨i, rfl⟩ := Nat.exists_eq_add_of_le h11
  have hi : 11 + i - 8 = 3 + i := by omega
  rw [hi, hb i (by omega), hb 4 (by omega)]

/-- Settles O29: the decode clears the bits below the resolution, which is a rounding toward minus infinity. -/
theorem decodeRoundsTowardMinusInfinity : Obligations.DecodeRoundsTowardMinusInfinity := by
  unfold Obligations.DecodeRoundsTowardMinusInfinity
  intro s lsb msb th tl cfg rest r k hwf hs hrk hm hl hb hr htop
  have hk : k ≤ 3 := by
    simp only [List.mem_cons, Prod.mk.injEq, List.not_mem_nil, or_false] at hrk
    omega
  refine ⟨_, exec_kDecode_known hwf hl hb hr, rfl, ?_⟩
  show (decodeTemp s.params r (rawTemp lsb msb)).toInt = _
  rw [decodeTemp_eq_and_not_lowMask hk hs hm (rawTemp_top_agree htop), toInt_and_not_lowMask _ hk,
    rawTemp_eq_append]

end Sys2Proof.Machine
end

section
/-! The waiter family, continued: the polls of `W.WAIT DATA` (43_waiter.md R182, R186, R187) and the step of a block
that polls (60_exceptions.md R226; 70_reset_and_hazards.md R242). -/

namespace Sys2Proof.Machine

/-- Settles O32: the first poll reads 1, or its exchange fails. -/
theorem waitDataFirstPoll : Obligations.WaitDataFirstPoll := by
  unfold Obligations.WaitDataFirstPoll
  intro s ⟨hwf, hnr⟩
  exact ⟨fun he => perform_ok hwf (pollOnce_one hnr 0 he), fun l hl => perform_fail hwf (pollOnce_fails hnr 0 hl)⟩

/-! ### A run of polls -/

/-- The slots of polls that read `zs`. -/
abbrev pollEvents (c : Cfg) (zs : List Byte) : List Event :=
  slotEvents (List.replicate zs.length c.readTxByte) zs

theorem pollEvents_snoc (c : Cfg) (zs : List Byte) (e : Byte) :
    pollEvents c (zs ++ [e]) = pollEvents c zs ++ exchangeEvents c.readTxByte e := by
  simp only [pollEvents, List.length_append, List.length_singleton, List.replicate_succ']
  exact slotEvents_snoc _ _ _ _ (by simp)

/-- `W.WAIT DATA` whose first poll reads 0 below the limit waits for the next one (R182). -/
theorem exec_wWaitData_zero {s : State} (hs : s.Ready) (hl : s.params.pollLimit ≠ some 1) {z : Byte}
    (hz : z ≠ s.params.readTxByte) (he : s.link.Echoes [z]) :
    exec .wWaitData s = .next ((s.polled z).suspend (.polling 1)) := by
  rw [← settle_pollOnce_zero hs.2 0 hl hz he]
  exact perform_eq hs.1 _

/-- `W.WAIT DATA` after polls that read 0 below the limit: the step that performs the next poll, from a state that
differs from the first in the boundary, the sequencer and the host's list (R182, D29). -/
theorem waitData_next_poll {s : State} {zs : List Byte} (hs : s.Ready) (hn : s.NoReset)
    (hz : ∀ z ∈ zs, z ≠ s.params.readTxByte)
    (hl : ∀ limit, s.params.pollLimit = some limit → zs.length < limit) (he : s.link.Echoes zs) :
    ∃ t v, exec .wWaitData s = .next t ∧ steps zs.length t = .next (settle (pollOnce zs.length v)) ∧
      v = { s with
        host := v.host, busy := v.busy, seq := v.seq
        link := s.link.after zs.length (pollEvents s.params zs) } := by
  cases zs with
  | nil => exact ⟨_, s, perform_eq hs.1 _, rfl, by simp [slotEvents]⟩
  | cons z zs =>
    have hne : s.params.pollLimit ≠ some 1 := fun h => by
      have := hl 1 h
      simp at this
    have first := exec_wWaitData_zero hs hne (hz z (by simp)) (he.left (a := [z]))
    obtain ⟨h, hrun⟩ := steps_polling_last zs (s := s.polled z) 1 hs hn
      (fun y hy => hz y (by simp [hy])) (fun limit hlim => by
        have := hl limit hlim
        simp only [List.length_cons] at this
        omega) (he.tail _)
    rw [Nat.add_comm 1] at hrun
    refine ⟨_, _, first, hrun, ?_⟩
    rw [List.length_cons, pollEvents, List.length_cons, slotEvents_replicate_succ, Nat.add_comm zs.length 1,
      ← after_after]
    rfl

/-- Settles O33: the polls that read 0, then one that reads 1. -/
theorem waitDataEndsAtTheFirstOne : Obligations.WaitDataEndsAtTheFirstOne := by
  unfold Obligations.WaitDataEndsAtTheFirstOne
  intro s zs hs hn hz hl he
  obtain ⟨t, v, ht, hrun, hv⟩ := waitData_next_poll hs hn hz hl he.left
  have hlast := pollOnce_one (s := v) (by rw [hv]; exact hs.2) zs.length
    (by rw [hv]; exact he.right (pollEvents s.params zs))
  rw [hlast] at hrun
  refine ⟨t, _, ht, hrun, ?_⟩
  have events := pollEvents_snoc s.params zs s.params.readTxByte
  rw [pollEvents, List.length_append, List.length_singleton] at events
  rw [events, ← after_after, hv]
  rfl

/-- Settles O35: the polls that read 0, then one whose exchange fails. -/
theorem waitDataFailsAtAFailingPoll : Obligations.WaitDataFailsAtAFailingPoll := by
  unfold Obligations.WaitDataFailsAtAFailingPoll
  intro s zs l hs hn hz hl he hf
  obtain ⟨t, v, ht, hrun, hv⟩ := waitData_next_poll hs hn hz hl he
  have hlast := pollOnce_fails (s := v) (by rw [hv]; exact hs.2) zs.length (by rw [hv]; exact hf)
  rw [hlast] at hrun
  exact ⟨t, _, ht, hrun, by rw [hv]; rfl⟩

/-- Settles O36: the poll that reads 0 at the limit is the last. -/
theorem waitDataTimesOutAtTheLimit : Obligations.WaitDataTimesOutAtTheLimit := by
  unfold Obligations.WaitDataTimesOutAtTheLimit
  intro s z zs hs hn hlimit hz he
  obtain ⟨init, last, hsplit⟩ : ∃ init last, z :: zs = init ++ [last] :=
    ⟨_, _, (List.dropLast_append_getLast (List.cons_ne_nil z zs)).symm⟩
  have hlen : zs.length = init.length := by simpa using congrArg List.length hsplit
  rw [hsplit] at hz he ⊢
  rw [hlen] at hlimit ⊢
  have hbelow : ∀ limit, s.params.pollLimit = some limit → init.length < limit := by
    rw [hlimit]
    rintro _ ⟨⟩
    omega
  obtain ⟨t, v, ht, hrun, hv⟩ :=
    waitData_next_poll hs hn (fun y hy => hz y (by simp [hy])) hbelow he.left
  have hlast := pollOnce_zero (s := v) (by rw [hv]; exact hs.2) init.length
    (by rw [hv]; exact hz last (by simp)) (by rw [hv]; exact he.right (pollEvents s.params init))
  rw [hlast, if_pos (by rw [hv]; exact hlimit)] at hrun
  refine ⟨t, _, ht, hrun, ?_⟩
  have events := pollEvents_snoc s.params init last
  rw [pollEvents, List.length_append, List.length_singleton] at events
  rw [events, ← after_after, hv]
  rfl

/-- Settles O34: every poll reads 0 and there is no limit; the host's reset ends the wait. -/
theorem waitDataHangsWhileEveryPollReadsZero : Obligations.WaitDataHangsWhileEveryPollReadsZero := by
  unfold Obligations.WaitDataHangsWhileEveryPollReadsZero
  intro s z zs hs hlimit hz he
  have first := exec_wWaitData_zero hs (by simp [hlimit]) (hz z (by simp)) (he.left (a := [z]))
  refine ⟨_, first, fun hn => ?_, fun rest hh => ?_⟩
  · obtain ⟨h, -, hrun⟩ := steps_polling_any zs (s := s.polled z) 1 hs hn
      (fun y hy => hz y (by simp [hy])) (fun limit hlim => by
        have hnone : s.params.pollLimit = some limit := hlim
        simp [hlimit] at hnone) (he.tail _)
    refine ⟨_, hrun, ?_⟩
    rw [slotEvents_replicate_succ, Nat.add_comm zs.length 1, ← after_after]
    rfl
  · exact ⟨_, step_reset hs.1 hh, rfl⟩

/-! ### The step of a block that polls -/

theorem whileBusy_params (s : State) : s.whileBusy.params = s.params := by rw [whileBusy_same]
theorem whileBusy_busy (s : State) : s.whileBusy.busy = s.busy := by rw [whileBusy_same]
theorem whileBusy_trace (s : State) : s.whileBusy.link.trace = s.link.trace := by rw [whileBusy_same]

/-- A busy block that goes on changes its position only. -/
theorem suspend_of_busy {s : State} (h : s.busy = true) (q : Seq) : s.suspend q = { s with seq := q } := by
  rw [State.suspend, ← h]

/-- Settles O37: the host's action of the step is taken, then the block polls once. -/
theorem stepOfAPollingBlock : Obligations.StepOfAPollingBlock := by
  unfold Obligations.StepOfAPollingBlock
  rintro s u n hwf hb hq hh rfl
  rw [step_of_polling hwf hb hq hh, ← whileBusy_params s, ← whileBusy_trace s]
  rw [← whileBusy_busy] at hb
  generalize s.whileBusy = u at *
  refine ⟨fun hnr => ⟨fun he => ?_, fun z hz he => ⟨fun hl => ?_, fun hl => ?_⟩, fun l hf => ?_, fun l hf => ?_⟩,
    fun k hk => ⟨_, rfl, fun hcut => ?_, fun hcut => ?_⟩⟩
  · rw [pollOnce_one hnr n he]
    rfl
  · rw [settle_pollOnce_zero hnr n hl hz he, suspend_of_busy (s := u.polled z) hb]
    rfl
  · rw [pollOnce_zero hnr n hz he, if_pos hl]
    rfl
  · rw [pollOnce_fails hnr n hf]
    rfl
  · rw [pollOnce_hangs hnr n hf, settle_noReturn, suspend_of_busy (s := u.setLink l) hb]
    rfl
  · obtain ⟨v, -, hv, hlen⟩ | ⟨hne, -⟩ := settle_reset_due (pollOnce_frame n) hk
    · rw [hv]
      exact ⟨⟨rfl, rfl, rfl, rfl, rfl, rfl, rfl, rfl⟩, rfl, hlen⟩
    · obtain ⟨v, hv⟩ := pollOnce_cut hk hcut n
      exact absurd hv (hne v)
  · obtain ⟨v, hv, -, -⟩ | ⟨-, hdue⟩ := settle_reset_due (pollOnce_frame n) hk
    · exact absurd hv (pollOnce_due hk hcut n v)
    · exact hdue

end Sys2Proof.Machine
end

section
/-! The session family: the requests of the Sensor Session with presence and answered slots, and the failing rows of
`S.INITIALIZE` (44_session.md R191 to R196). -/

namespace Sys2Proof.Machine

/-! ### `S.READROM` and `S.SKIPROM` -/

/-- What round trips that answer change, with a last response of `n` bytes and the boundary left at `l` (R141). -/
def TripsDone (s u : State) (n : Nat) (l : Link) : Prop :=
  u = { s with rxbuf := u.rxbuf, draws := u.draws, rxlen := n, link := l, baudsel := .data, connected := true }

theorem afterRoundTrip_tripsDone (s : State) (l : Link) {resp : List Byte} {n : Nat} (h : resp.length = n) :
    TripsDone s (s.afterRoundTrip l resp) n l := by
  subst h
  rfl

section TripsDone

variable {s t u : State} {n m : Nat} {l l' : Link}

theorem TripsDone.params (h : TripsDone s u n l) : u.params = s.params := by rw [h]
theorem TripsDone.cfg (h : TripsDone s u n l) : u.cfg = s.cfg := by rw [h]
theorem TripsDone.link (h : TripsDone s u n l) : u.link = l := by rw [h]
theorem TripsDone.rxlen (h : TripsDone s u n l) : u.rxlen = n := by rw [h]

theorem TripsDone.trans (h : TripsDone s t m l) (h' : TripsDone t u n l') : TripsDone s u n l' := by
  refine Eq.trans h' ?_
  rw [h]

/-- Events after the round trips. -/
theorem TripsDone.setLink (h : TripsDone s u n l) (l' : Link) : TripsDone s (u.setLink l') n l' :=
  congrArg (fun v => State.setLink v l') h

theorem TripsDone.ready (h : TripsDone s u n l) (hs : s.Ready) (hl : l.resetAfter = none) : u.Ready :=
  ⟨h.params ▸ hs.1, h.link ▸ hl⟩

/-- A request that completes after its round trips (R192 to R194). -/
theorem TripsDone.complete (h : TripsDone s u n l) (st : BitVec 4) :
    u.complete st = { s with
      rxbuf := (u.complete st).rxbuf, draws := (u.complete st).draws, rxlen := n
      link := l, baudsel := .data, connected := true
      status := st, busy := false, seq := .idle } := congrArg (·.complete st) h

end TripsDone

/-- What the Read-ROM of the session changes, with the boundary left at `l` (R195). -/
def SerialRead (s u : State) (l : Link) : Prop :=
  u = { s with
    rxbuf := u.rxbuf, draws := u.draws, rxlen := s.params.romRxLen, sn := u.sn
    link := l, baudsel := .data, connected := true }

/-- It overrides what a bus reset before it changed. -/
theorem SerialRead.of_afterReset {s u : State} {p : Bool} {l0 l : Link}
    (h : SerialRead (s.afterReset p l0) u l) : SerialRead s u l := h

/-- With presence and every slot answered the Read-ROM of the session leaves the response in `RXBUF` and six bytes of it
in `SN` (R55, R195). -/
theorem readSerial_succeeds {s : State} (hs : s.Ready) {e0 : Byte} {es : List Byte}
    (h0 : e0 ≠ s.params.resetTxByte) (hlen : es.length = 8 * (1 + s.params.romRxLen))
    (he : s.link.Echoes (e0 :: es)) :
    ∃ u, readSerial s = .ok () u ∧ ResponseIs s.params (s.params.desc .readRom) [] es u.rxbuf ∧
      u.sn.length = 6 ∧ (∀ k, k < 6 → u.sn[k]? = u.rxbuf[s.params.snOffset + k]?) ∧
      SerialRead s u
        (s.link.after (1 + es.length) (commandEvents s.params (s.params.desc .readRom) [] e0 es)) := by
  have hresp := echoBytes_length s.params s.params.romRxLen (es.drop 8)
  obtain ⟨hsn, hbytes⟩ := serialOf_bytes hs.1 _ ((freeBytes s.draws s.params.rxbufLen).drop _) hresp
  exact ⟨_, readSerial_ok hs.2 h0 hlen he, responseIs_echoBytes _ _ _ _ _, hsn, hbytes,
    congrArg (fun v => State.setSn v (serialOf s.params _)) (afterRoundTrip_tripsDone s _ hresp)⟩

/-- Settles O38: the undisturbed Read-ROM round trip and the copy of its serial bytes. -/
theorem sReadromSucceeds : Obligations.SReadromSucceeds := by
  unfold Obligations.SReadromSucceeds
  intro s e0 es hs h0 hlen he
  obtain ⟨u, hu, hresp, hsn, hbytes, hframe⟩ := readSerial_succeeds hs h0 hlen he
  exact ⟨_, perform_ok hs.1 hu, hresp, hsn, hbytes, congrArg (·.complete statusSuccess) hframe⟩

/-- Settles O40: `S.SKIPROM` is the Skip-ROM round trip. -/
theorem sSkipromSucceeds : Obligations.SSkipromSucceeds := by
  unfold Obligations.SSkipromSucceeds
  intro s e0 es ⟨hwf, hnr⟩ h0 hlen he
  have hl : es.length = (commandBytes s.params (s.params.desc .skipRom) []).length := by
    rw [commandBytes_desc_length _ _ _ rfl, hlen]
    rfl
  have trip := execute_ok hnr .skipRom [] rfl h0 hl he
  rw [hlen] at trip
  exact ⟨_, exec_requestOf_ok hwf trip, (afterRoundTrip_tripsDone s _ rfl).complete _⟩

/-! ### `S.INITIALIZE` -/

/-- The steps of `S.INITIALIZE` after its own reset (R191). -/
def initializeRest : Proc Unit := do
  readSerial
  modify fun s => (s.setInitialized true).setConnected true

/-- A reset that fails, or sees no presence, ends the steps (R191, first and second row). -/
theorem initializeSteps_reset_fails {s : State} (h : s.link.resetAfter = none) {l : Link}
    (hf : (s.link.afterEvent (.setBaud s.params.baudReset)).ExchangeFails s.params.resetTxByte l) :
    initializeSteps s = .error (.fail .transfer)
      (s.afterReset false (l.afterEvent (.setBaud s.params.baudData))) :=
  bind_error (busReset_fails h hf)

theorem initializeSteps_absent {s : State} (h : s.link.resetAfter = none)
    (he : s.link.Echoes [s.params.resetTxByte]) :
    initializeSteps s = .error (.fail .connectivity)
      (s.afterReset false (s.link.after 1 (resetEvents s.params s.params.resetTxByte))) := by
  rw [initializeSteps, bind_ok (busReset_ok h he.head.1 he.head.2), failIf_true (by simp [present])]
  simp [present]

/-- A second reset, in a round trip, overrides the first. -/
theorem afterReset_openResponse_afterReset (s : State) (p q : Bool) (l l' : Link) :
    ((s.afterReset p l).openResponse).afterReset q l' = s.openResponse.afterReset q l' := rfl

/-- After a reset with presence the Read-ROM is attempted (R191). -/
theorem initializeSteps_present {s : State} (h : s.link.resetAfter = none) {e : Byte}
    (hp : e ≠ s.params.resetTxByte) {es : List Byte} (he : s.link.Echoes (e :: es)) :
    initializeSteps s = initializeRest (s.afterReset true (s.link.after 1 (resetEvents s.params e))) := by
  have hpr : present s.params e = true := by simp [present, hp]
  rw [initializeSteps, bind_ok (busReset_ok h he.head.1 he.head.2), failIf_false (by simp [hpr]), hpr]
  rfl

/-- A failing Read-ROM ends the steps (R191). -/
theorem initializeRest_fails {s u : State} {c : Cause} (h : execute .readRom [] s = .error (.fail c) u) :
    initializeRest s = .error (.fail c) u :=
  bind_error (bind_error h)

theorem exec_sInitialize_ok {s u : State} (hwf : s.params.wf = true) (h : initializeSteps s = .ok () u) :
    exec .sInitialize s = .next (u.complete statusSuccess) := perform_ok hwf (clearInitialized_ok h)

theorem exec_sInitialize_fail {s u : State} (hwf : s.params.wf = true) {c : Cause}
    (h : initializeSteps s = .error (.fail c) u) :
    exec .sInitialize s = .next ((u.setInitialized false).complete (statusFailure c)) :=
  perform_fail hwf (clearInitialized_fail h)

/-- What a failing Read-ROM of `S.INITIALIZE`, and the clean-up, change (R191). -/
theorem cleanedUp_frame (s : State) (p : Bool) (l : Link) (c : Cause) :
    ((s.openResponse.afterReset p l).setInitialized false).complete (statusFailure c) = { s with
      rxbuf := freeBytes s.draws s.params.rxbufLen, draws := s.draws + s.params.rxbufLen, rxlen := 0
      link := l, baudsel := .data, initialized := false, connected := p
      status := statusFailure c, busy := false, seq := .idle } := rfl

/-- A Read-ROM that fails, after a reset with presence, ends `S.INITIALIZE` (R191). -/
theorem exec_sInitialize_readRom_fails {s : State} (hs : s.Ready) {e0 : Byte} {es : List Byte} {p : Bool} {l : Link}
    {c : Cause} (h0 : e0 ≠ s.params.resetTxByte) (he : s.link.Echoes (e0 :: es))
    (h : execute .readRom [] (s.afterReset true (s.link.after 1 (resetEvents s.params e0))) =
      .error (.fail c)
        ((s.afterReset true (s.link.after 1 (resetEvents s.params e0))).openResponse.afterReset p l)) :
    ∃ t, exec .sInitialize s = .next t ∧ t = { s with
      rxbuf := t.rxbuf, draws := t.draws, rxlen := 0
      link := l, baudsel := .data, initialized := false, connected := p
      status := statusFailure c, busy := false, seq := .idle } := by
  rw [afterReset_openResponse_afterReset] at h
  refine ⟨_, exec_sInitialize_fail hs.1 ((initializeSteps_present hs.2 h0 he).trans (initializeRest_fails h)), ?_⟩
  rw [cleanedUp_frame]

/-- Two resets and the slots of a round trip, in one run of the boundary. -/
theorem after_one_after (l : Link) (n : Nat) (a b : List Event) :
    (l.after 1 a).after (1 + n) b = l.after (2 + n) (a ++ b) := by
  rw [after_after, ← Nat.add_assoc]

/-- Settles O41: the reset with presence, then the undisturbed Read-ROM, then the flags. -/
theorem sInitializeSucceeds : Obligations.SInitializeSucceeds := by
  unfold Obligations.SInitializeSucceeds
  intro s e0 e1 es hs h0 h1 hlen he
  obtain ⟨u, hu, hresp, hsn, hbytes, hframe⟩ := readSerial_succeeds
    (s := s.afterReset true (s.link.after 1 (resetEvents s.params e0))) hs h1 hlen (he.tail _)
  rw [afterReset_link, after_one_after] at hframe
  have hframe := hframe.of_afterReset
  have steps := (initializeSteps_present hs.2 h0 he).trans (bind_ok hu)
  exact ⟨_, exec_sInitialize_ok hs.1 steps, hresp, hsn, hbytes,
    congrArg (fun v => ((v.setInitialized true).setConnected true).complete statusSuccess) hframe⟩

/-- Settles O42: each of the two resets fails or sees no presence, or a slot fails; then the clean-up. -/
theorem sInitializeFailures : Obligations.SInitializeFailures := by
  unfold Obligations.SInitializeFailures
  intro s hs
  have ⟨hwf, hnr⟩ := hs
  refine ⟨fun l hl => ?_, fun he => ?_, fun e0 l h0 he hl => ?_, fun e0 h0 he => ?_,
    fun e0 e1 es b l h0 h1 he hb hl => ?_⟩
  · exact exec_sInitialize_fail hwf (initializeSteps_reset_fails hnr hl)
  · exact exec_sInitialize_fail hwf (initializeSteps_absent hnr he)
  · exact exec_sInitialize_readRom_fails hs h0 he (execute_reset_fails
      (s := s.afterReset true (s.link.after 1 (resetEvents s.params e0))) hnr .readRom [] rfl hl)
  · have second := execute_absent
      (s := s.afterReset true (s.link.after 1 (resetEvents s.params e0))) hnr .readRom [] rfl (he.tail _)
    rw [afterReset_link, after_after] at second
    exact exec_sInitialize_readRom_fails hs h0 he second
  · obtain ⟨hsplit, hlen⟩ := split_at_getElem? hb
    exact exec_sInitialize_readRom_fails hs h0 he (execute_slot_fails
      (s := s.afterReset true (s.link.after 1 (resetEvents s.params e0))) hnr .readRom [] rfl h1 hsplit hlen
      (he.tail _) (by rw [afterReset_link, after_one_after]; exact hl))

/-! ### Two round trips, then the last part of the request -/

/-- Two round trips with presence and every slot answered: what they change, and the second one's response (R192 to
R194). -/
theorem execute_twice_tripsDone {s : State} (hs : s.Ready) (c1 c2 : Command) (p1 p2 : List Byte)
    (hp1 : p1.length = (s.params.desc c1).tx) (hp2 : p2.length = (s.params.desc c2).tx) {e0 e1 : Byte}
    {es fs : List Byte} (h0 : e0 ≠ s.params.resetTxByte) (h1 : e1 ≠ s.params.resetTxByte)
    (hl1 : es.length = 8 * ((s.params.desc c1).op.toList.length + (s.params.desc c1).tx + (s.params.desc c1).rx))
    (hl2 : fs.length = 8 * ((s.params.desc c2).op.toList.length + (s.params.desc c2).tx + (s.params.desc c2).rx))
    (he : s.link.Echoes (e0 :: es ++ e1 :: fs)) :
    ∃ s1 u r1 r2, execute c1 p1 s = .ok r1 s1 ∧ execute c2 p2 s1 = .ok r2 u ∧
      ResponseIs s.params (s.params.desc c2) p2 fs u.rxbuf ∧
      TripsDone s u (s.params.desc c2).rx (s.link.after (1 + es.length + (1 + fs.length))
        (commandEvents s.params (s.params.desc c1) p1 e0 es ++
          commandEvents s.params (s.params.desc c2) p2 e1 fs)) := by
  obtain ⟨s1, r1, r2, first, second, rfl, -, rfl⟩ := execute_twice hs.2 c1 c2 p1 p2 hp1 hp2 h0 h1
    (hl1.trans (commandBytes_desc_length _ _ _ hp1).symm) (hl2.trans (commandBytes_desc_length _ _ _ hp2).symm) he
  exact ⟨_, _, r1, _, first, second, responseIs_echoBytes _ _ _ _ _,
    (afterRoundTrip_tripsDone s _ rfl).trans (afterRoundTrip_tripsDone _ _ (echoBytes_length _ _ _))⟩

/-- Skip-ROM and Convert-T, undisturbed (R192). -/
theorem startConversion_succeeds {s : State} (hs : s.Ready) {e0 e1 : Byte} {es fs : List Byte}
    (h0 : e0 ≠ s.params.resetTxByte) (h1 : e1 ≠ s.params.resetTxByte) (hl1 : es.length = 8)
    (hl2 : fs.length = 8) (he : s.link.Echoes (e0 :: es ++ e1 :: fs)) :
    ∃ u, startConversion s = .ok () u ∧ TripsDone s u 0 (s.link.after 18
      (commandEvents s.params (s.params.desc .skipRom) [] e0 es ++
        commandEvents s.params (s.params.desc .convertT) [] e1 fs)) := by
  obtain ⟨s1, u, r1, r2, first, second, -, hdone⟩ := execute_twice_tripsDone hs .skipRom .convertT [] [] rfl rfl
    h0 h1 hl1 hl2 he
  rw [hl1, hl2] at hdone
  exact ⟨u, by rw [startConversion, bind_ok first, bind_ok second]; rfl, hdone⟩

theorem after_afterEvent (l : Link) (n : Nat) (evs : List Event) (e : Event) :
    (l.after n evs).afterEvent e = l.after n (evs ++ [e]) := by simp [Link.after, Link.afterEvent]

/-- The boundary after both commands of a conversion answers the polls (R192). -/
theorem echoes_after_conversion {l : Link} {e0 e1 : Byte} {es fs ps : List Byte} (hl1 : es.length = 8)
    (hl2 : fs.length = 8) (he : l.Echoes (e0 :: es ++ e1 :: fs ++ ps)) (evs : List Event) :
    (l.after 18 evs).Echoes ps := by
  have hlen : (e0 :: es ++ e1 :: fs).length = 18 := by simp [hl1, hl2]
  exact hlen ▸ he.right evs

/-- Settles O44: both commands undisturbed, then the end of each strategy's wait. -/
theorem sConvertOutcome : Obligations.SConvertOutcome := by
  unfold Obligations.SConvertOutcome
  intro s e0 e1 es fs hs h0 h1 hl1 hl2 he
  obtain ⟨u, hstart, hdone⟩ := startConversion_succeeds hs h0 h1 hl1 hl2 he
  have hu := hdone.ready hs hs.2
  refine ⟨⟨_, perform_ok hs.1 (bind_ok hstart), hdone.complete _⟩, fun hdata => ?_, fun r hr => ?_, fun hr => ?_⟩
  · have poll := pollOnce_one (s := u) hu.2 0 (by
      rw [hdone.params, hdone.link]
      exact echoes_after_conversion hl1 hl2 hdata _)
    rw [hdone.params, hdone.link, after_after] at poll
    exact ⟨_, perform_ok hs.1 ((bind_ok hstart).trans poll), (hdone.setLink _).complete _⟩
  · have delay := waitDelay_ok (s := u) hu.2 (r := r)
      ((resLookup_eq_some hu.1 _ r).mpr (by rw [hdone.params, hdone.cfg, hr]))
    rw [hdone.params, hdone.link, after_afterEvent] at delay
    exact ⟨_, perform_ok hs.1 ((bind_ok hstart).trans delay), (hdone.setLink _).complete _⟩
  · have delay := waitDelay_unknown (s := u)
      ((resLookup_eq_none _ _).mpr (by rw [hdone.params, hdone.cfg]; exact hr))
    exact ⟨_, perform_fail hs.1 ((bind_ok hstart).trans delay), hdone.complete _⟩

/-- After its two commands `S.CONVERT DATA` is `W.WAIT DATA` (R192). -/
theorem exec_sConvertData_started {s u : State} (hwf : s.params.wf = true) (h : startConversion s = .ok () u)
    (hp : u.params = s.params) : exec .sConvertData s = exec .wWaitData u := by
  rw [exec_eq_perform, exec_eq_perform, perform_eq hwf, perform_eq (hp ▸ hwf)]
  exact congrArg (Host.Outcome.next ∘ settle) (bind_ok h)

/-- Settles O45: both commands undisturbed, then the polls of `W.WAIT DATA` from there. -/
theorem sConvertDataGoesOnPolling : Obligations.SConvertDataGoesOnPolling := by
  unfold Obligations.SConvertDataGoesOnPolling
  intro s e0 e1 es fs z zs hs hn h0 h1 hl1 hl2 hz hl he
  have he : s.link.Echoes (e0 :: es ++ e1 :: fs ++ (z :: zs ++ [s.params.readTxByte])) := by
    simpa only [List.append_assoc, List.cons_append] using he
  obtain ⟨u, hstart, hdone⟩ := startConversion_succeeds hs h0 h1 hl1 hl2 he.left
  have hu := hdone.ready hs hs.2
  have hnu : u.NoReset := by
    rw [hdone]
    exact hn
  have hpolls : u.link.Echoes (z :: zs ++ [u.params.readTxByte]) := by
    rw [hdone.params, hdone.link]
    exact echoes_after_conversion hl1 hl2 he _
  have hone : u.params.pollLimit ≠ some 1 := fun h => by
    have := hl 1 (by rw [← hdone.params, h])
    omega
  rw [← hdone.params] at hz hl
  have first := exec_wWaitData_zero hu hone (hz z (by simp)) (hpolls.left (a := [z]))
  obtain ⟨t, w, ht, hrun, hw⟩ := waitDataEndsAtTheFirstOne u (z :: zs) hu hnu hz hl hpolls
  rw [exec_sConvertData_started hs.1 hstart hdone.params]
  obtain rfl : (u.polled z).suspend (.polling 1) = t := by
    injection first.symm.trans ht
  refine ⟨_, w, ht, rfl, rfl, hrun, hw.trans ?_⟩
  have hbuf : w.rxbuf = u.rxbuf := by rw [hw]
  have hdraws : w.draws = u.draws := by rw [hw]
  have hcount : 18 + ((z :: zs).length + 1) = 20 + zs.length := by
    rw [List.length_cons]
    omega
  rw [hbuf, hdraws, hdone.link, hdone.params, after_after, hcount, hdone]
  rfl

/-- After its two commands `S.READSCRATCH` is `K.DECODE` (R193). -/
theorem exec_sReadscratch_read {s s1 u : State} {r1 r2 : List Byte} (hwf : s.params.wf = true)
    (h1 : execute .skipRom [] s = .ok r1 s1) (h2 : execute .readScratch [] s1 = .ok r2 u)
    (hp : u.params = s.params) : exec .sReadscratch s = exec .kDecode u := by
  rw [exec_eq_perform, exec_eq_perform, perform_eq hwf, perform_eq (hp ▸ hwf)]
  exact congrArg (Host.Outcome.next ∘ settle) ((bind_ok h1).trans (bind_ok h2))

/-- `K.DECODE` writes the four registers and `STATUS` only (R161, R168). -/
theorem exec_kDecode_frame {u : State} (hwf : u.params.wf = true) : ∃ t, exec .kDecode u = .next t ∧
    t = { u with
      temp := t.temp, th := t.th, tl := t.tl, cfg := t.cfg
      status := t.status, busy := false, seq := .idle } := by
  obtain ⟨_, _, _, _, _, _, _, -, -, hd⟩ | hd := decodeScratch_cases u
  · exact ⟨_, perform_ok hwf hd, rfl⟩
  · exact ⟨_, perform_fail hwf hd, rfl⟩

/-- Settles O46: both commands undisturbed, then `K.DECODE` of the response. -/
theorem sReadscratchOutcome : Obligations.SReadscratchOutcome := by
  unfold Obligations.SReadscratchOutcome
  intro s e0 e1 es fs hs h0 h1 hl1 hl2 he
  obtain ⟨s1, u, r1, r2, first, second, hresp, hdone⟩ := execute_twice_tripsDone hs .skipRom .readScratch [] []
    rfl rfl h0 h1 hl1 hl2 he
  have hwf : u.params.wf = true := hdone.params ▸ hs.1
  obtain ⟨t, ht, hframe⟩ := exec_kDecode_frame hwf
  have hbuf : t.rxbuf = u.rxbuf := by rw [hframe]
  rw [exec_sReadscratch_read hs.1 first second hdone.params]
  refine ⟨t, ht, hbuf ▸ hresp, hframe.trans ?_, fun lsb msb th tl cfg rest r hl hb hr => ?_, fun hbad => ?_⟩
  · have hdraws : t.draws = u.draws := by rw [hframe]
    have hcount : 1 + es.length + (1 + fs.length) = 18 + 8 * s.params.scratchRxLen := by omega
    rw [hbuf, hdraws, hdone, hcount]
    rfl
  · have known := exec_kDecode_known hwf (by rw [hdone.rxlen]; exact hl) (hbuf ▸ hb) (hdone.params ▸ hr)
    obtain rfl := by injection known.symm.trans ht
    rw [← hdone.params, ← decodeTemp_rawTemp]
    exact ⟨rfl, rfl, rfl, rfl, rfl⟩
  · have failed : exec .kDecode u = .next (u.complete (statusFailure .decode)) :=
      decodeFailureChangesNothing u hwf (by rw [hdone.rxlen, hdone.params, ← hbuf]; exact hbad)
    obtain rfl := by injection failed.symm.trans ht
    rw [hdone]
    exact ⟨rfl, rfl, rfl, rfl, rfl⟩

/-- Settles O47: the encode, then both commands undisturbed, the second with the three bytes. -/
theorem sWritescratchSucceeds : Obligations.SWritescratchSucceeds := by
  unfold Obligations.SWritescratchSucceeds
  intro s th tl cfg e0 e1 es fs hs h0 h1 hl1 hl2 he
  have h3 : (s.params.desc .writeScratch).tx = 3 := wf_wscratch hs.1
  obtain ⟨s1, u, r1, r2, first, second, -, hdone⟩ := execute_twice_tripsDone (s := s.setTxbuf [th, tl, cfg]) hs
    .skipRom .writeScratch [] [th, tl, cfg] rfl h3.symm h0 h1 hl1 (by
      show fs.length = 8 * (1 + (s.params.desc .writeScratch).tx + 0)
      rw [h3, hl2]) he
  rw [hl1, hl2] at hdone
  refine ⟨_, perform_ok hs.1 ((bind_ok first).trans (bind_ok second)), hdone.complete _⟩

end Sys2Proof.Machine
end

section
/-! Composites and their expansions: `S.READROM`, `S.INITIALIZE` and the other six `S` requests against the lower
requests they stand for (44_session.md R191 to R196, 30_encoding.md R104). -/

namespace Sys2Proof.Machine

variable {α : Type}

/-- A request has completed with success: what a host looks at before it issues the next one (R104). -/
abbrev State.Succeeded (t : State) : Prop := t.busy = false ∧ t.failFlag = false

theorem complete_success_succeeded (u : State) : (u.complete statusSuccess).Succeeded :=
  ⟨rfl, complete_success_failFlag u⟩

/-- An early end other than a reset is a failure, or leaves the block busy. -/
theorem settle_error_not_succeeded {e : Stop} (he : e ≠ .reset) (u : State) :
    ¬ (settle (.error e u : EStateM.Result Stop State α)).Succeeded := by
  cases e with
  | fail c => simp [State.Succeeded]
  | polling n => exact fun h => Bool.noConfusion h.1
  | noReturn => exact fun h => Bool.noConfusion h.1
  | reset => exact absurd rfl he

/-- What agrees with a result is that result in a related state. -/
theorem SameResult.of_ok {S : State → State → Prop} {a : α} {u : State} {r : EStateM.Result Stop State α}
    (h : SameResult S (.ok a u) r) : ∃ u', r = .ok a u' ∧ S u u' := by
  match r with
  | .ok _ u' => exact ⟨u', h.1 ▸ rfl, h.2⟩
  | .error _ _ => exact h.elim

theorem SameResult.of_error {S : State → State → Prop} {e : Stop} {u : State} {r : EStateM.Result Stop State α}
    (h : SameResult S (.error e u) r) : ∃ u', r = .error e u' ∧ S u u' := by
  match r with
  | .ok _ _ => exact h.elim
  | .error _ u' => exact ⟨u', h.1 ▸ rfl, h.2⟩

/-- No reset breaks off a request where none is due (R242). -/
theorem procOf_error_not_reset {s u : State} {e : Stop} (hs : s.Ready) (i : Instr) (h : procOf i s = .error e u) :
    e ≠ .reset := ((procOf_frame i).of_error h).moves.notReset hs.2

/-- The six serial bytes of the response buffer after a Read-ROM round trip (R55). -/
theorem serialOf_rxbuf {c : Cfg} (hwf : c.wf = true) {resp : List Byte} (hl : resp.length = c.romRxLen)
    (tail : List Byte) : serialOf c resp = ((resp ++ tail).drop c.snOffset).take 6 := by
  obtain ⟨hsn, hfit⟩ := wf_serial hwf
  unfold serialOf
  rw [hsn, List.drop_append_of_le_length (by omega), List.take_append_of_le_length (by simp; omega)]

/-- The state of a round trip that answered (R141 step 7). -/
theorem execute_eq_ok {cmd : Command} {payload resp : List Byte} {s u : State}
    (h : execute cmd payload s = .ok resp u) :
    resp.length = (s.params.desc cmd).rx ∧ ∃ l, u = s.afterRoundTrip l resp := by
  obtain ⟨-, hx⟩ | ⟨l, -, hx | hx | ⟨l', -, ⟨resp', hlen, hx⟩ | hx⟩⟩ | ⟨e, b, p, l, -, -, hx⟩ :=
    execute_cases cmd payload s
  case inr.inl.inr.inr.inl =>
    rw [hx] at h
    cases h
    exact ⟨hlen, l', rfl⟩
  all_goals
    rw [hx] at h
    cases h

/-- What S.READROM adds to the state of its round trip (R195). -/
def State.copySerial (t : State) : State :=
  { t with sn := (t.rxbuf.drop t.params.snOffset).take 6 }

/-- After a round trip that answered, the copy takes the six bytes from `SN_OFFSET` on (R55, R195). -/
theorem setSn_serialOf {s u : State} {resp : List Byte} (hwf : s.params.wf = true)
    (h : execute .readRom [] s = .ok resp u) : u.setSn (serialOf u.params resp) = u.copySerial := by
  obtain ⟨hlen, l, rfl⟩ := execute_eq_ok h
  exact congrArg (State.setSn _) (serialOf_rxbuf (resp := resp) hwf hlen _)

theorem readSerial_copies {s u : State} {resp : List Byte} (hwf : s.params.wf = true)
    (h : execute .readRom [] s = .ok resp u) : readSerial s = .ok () u.copySerial :=
  (bind_ok h).trans (congrArg (EStateM.Result.ok ()) (setSn_serialOf hwf h))

/-- Settles O39: the two procedures share the round trip and differ in the copy after it. -/
theorem sReadromIsTheRoundTripThenTheCopy : Obligations.SReadromIsTheRoundTripThenTheCopy := by
  unfold Obligations.SReadromIsTheRoundTripThenTheCopy
  refine ⟨fun w hw => (decode_ok_iff w _).mpr hw, fun s hs => ⟨_, perform_eq hs.1 _, ?_⟩⟩
  rw [exec_eq_perform, perform_eq hs.1]
  refine congrArg Host.Outcome.next ?_
  cases h : execute .readRom [] s with
  | ok resp u =>
    have trip : procCReadrom [] s = .ok () u := bind_ok h
    have copied : procOf .sReadrom s = .ok () u.copySerial := readSerial_copies hs.1 h
    obtain ⟨-, l, hu⟩ := execute_eq_ok h
    have hparams : u.params = s.params := by rw [hu]; rfl
    rw [copied, trip, ← hparams]
    exact (if_pos (complete_success_succeeded u)).symm
  | error e u =>
    have trip : procCReadrom [] s = .error e u := bind_error h
    have stopped : procOf .sReadrom s = .error e u := bind_error h
    rw [stopped, trip]
    exact (if_neg (settle_error_not_succeeded (procOf_error_not_reset hs (.cReadrom []) trip) u)).symm

/-! ### `S.INITIALIZE` -/

theorem perform_hangs {s u : State} (hwf : s.params.wf = true) {p : Proc Unit} (h : p s = .error .noReturn u) :
    perform p s = .next (u.suspend .calling) := by
  rw [perform_eq hwf, h, settle_noReturn]

theorem exec_sInitialize_hangs {s u : State} (hwf : s.params.wf = true)
    (h : initializeSteps s = .error .noReturn u) : exec .sInitialize s = .next (u.suspend .calling) := by
  refine perform_hangs hwf ?_
  simp only [procSInitialize_eq, clearInitializedOnFail, h]

/-- The end of `S.INITIALIZE` from `s` that goes with the end `t` of a `S.READROM` in its place (R191). -/
def InitializeEnd (s t : State) : Prop :=
  (t.busy = true → exec .sInitialize s = .next { t with status := s.status }) ∧
  (t.busy = false → t.failFlag = true → exec .sInitialize s = .next { t with initialized := false }) ∧
  (t.busy = false → t.failFlag = false →
    exec .sInitialize s = .next { t with initialized := true, connected := true })

theorem InitializeEnd.of_ok {s t : State} (hb : t.busy = false) (hf : t.failFlag = false)
    (h : exec .sInitialize s = .next { t with initialized := true, connected := true }) : InitializeEnd s t :=
  ⟨fun hb' => absurd (hb.symm.trans hb') (by simp), fun _ hf' => absurd (hf.symm.trans hf') (by simp), fun _ _ => h⟩

theorem InitializeEnd.of_fail {s t : State} (hb : t.busy = false) (hf : t.failFlag = true)
    (h : exec .sInitialize s = .next { t with initialized := false }) : InitializeEnd s t :=
  ⟨fun hb' => absurd (hb.symm.trans hb') (by simp), fun _ _ => h, fun _ hf' => absurd (hf.symm.trans hf') (by simp)⟩

theorem InitializeEnd.of_busy {s t : State} (hb : t.busy = true)
    (h : exec .sInitialize s = .next { t with status := s.status }) : InitializeEnd s t :=
  ⟨fun _ => h, fun hb' => absurd (hb.symm.trans hb') (by simp), fun hb' => absurd (hb.symm.trans hb') (by simp)⟩

/-- After its reset saw presence, `S.INITIALIZE` ends as `S.READROM` does from there: the completion of the reset in
between is not seen by the procedures (R104, R191). -/
theorem sInitialize_after_presence {s u : State} (hwf : s.params.wf = true) (hu : u.Ready)
    (hst : u.status = s.status) (hsteps : initializeSteps s = initializeRest u) :
    ∃ t, exec .sReadrom (u.complete statusSuccess) = .next t ∧ InitializeEnd s t := by
  refine ⟨_, perform_eq (s := u.complete statusSuccess) hu.1 _, ?_⟩
  have hsame : SameResult SameButControl (readSerial u) (readSerial (u.complete statusSuccess)) :=
    readSerial_alike sameButControl_blind u _ rfl
  unfold procSReadrom
  cases hr : readSerial u with
  | ok a v =>
    rw [hr] at hsame
    obtain ⟨v', hr', hv⟩ := hsame.of_ok
    rw [hr']
    refine .of_ok rfl (complete_success_failFlag v') ?_
    rw [exec_sInitialize_ok hwf (hsteps.trans (bind_ok hr)), hv]
    rfl
  | error e v =>
    rw [hr] at hsame
    obtain ⟨v', hr', hv⟩ := hsame.of_error
    rw [hr']
    have stopped : initializeSteps s = .error e v := hsteps.trans (bind_error hr)
    obtain ⟨c, rfl⟩ | ⟨hbroken, hmoves, hstatus⟩ := readSerial_error hr
    · refine .of_fail rfl (complete_failure_failFlag v' c) ?_
      rw [exec_sInitialize_fail hwf stopped, hv]
      rfl
    · cases e with
      | fail c => exact hbroken.elim
      | polling n => exact hbroken.elim
      | noReturn =>
        refine .of_busy rfl ?_
        rw [exec_sInitialize_hangs hwf stopped, hv, ← hst, ← hstatus]
        rfl
      | reset => exact absurd rfl (hmoves.notReset hu.2)

/-- Settles O43: the three ends of the reset of `S.INITIALIZE`, and `S.READROM` after presence. -/
theorem sInitializeIsItsExpansion : Obligations.SInitializeIsItsExpansion := by
  unfold Obligations.SInitializeIsItsExpansion
  intro s hs
  refine ⟨_, perform_eq hs.1 _, ?_⟩
  unfold procTReset
  obtain ⟨l, ⟨hl, ⟨p, hp⟩ | hf⟩ | ⟨e, b, hbroken, hmoves, he⟩⟩ := busReset_cases s
  · rw [bind_ok hp]
    refine ⟨fun hb => absurd hb (by simp), fun _ hf => absurd hf (by simp), fun _ _ h0 => ?_, fun _ _ h1 => ?_⟩
    · cases p with
      | true => exact absurd h0 (by simp [zext8])
      | false =>
        have absent : initializeSteps s = .error (.fail .connectivity) (s.afterReset false l) := by
          rw [initializeSteps, bind_ok hp, failIf_true rfl]
        rw [exec_sInitialize_fail hs.1 absent]
        rfl
    · cases p with
      | false => exact absurd rfl h1
      | true =>
        have present : initializeSteps s = initializeRest (s.afterReset true l) := by
          rw [initializeSteps, bind_ok hp, failIf_false (by simp)]
          rfl
        exact sInitialize_after_presence (u := s.afterReset true l) hs.1 ⟨hs.1, hl.moves.notDue hs.2⟩ rfl present
  · rw [bind_error hf]
    refine ⟨fun hb => absurd hb (by simp), fun _ _ => ?_, fun _ h0 => absurd h0 (by simp),
      fun _ h0 => absurd h0 (by simp)⟩
    rw [exec_sInitialize_fail hs.1 (bind_error hf)]
    rfl
  · rw [bind_error he]
    cases e with
    | fail c => exact hbroken.elim
    | polling n => exact hbroken.elim
    | noReturn =>
      refine ⟨fun _ => ?_, fun hb => absurd hb (by simp), fun hb => absurd hb (by simp), fun hb => absurd hb (by simp)⟩
      rw [exec_sInitialize_hangs hs.1 (bind_error he)]
      rfl
    | reset => exact absurd rfl (hmoves.notReset hs.2)

end Sys2Proof.Machine
end

section
/-! Six composites of the session and their expansions into lower requests, issued one after the other and stopped at
the first that fails or does not complete (30_encoding.md R104). -/

namespace Sys2Proof.Machine

variable {α : Type}

/-- The procedures of a list of requests, one after the other. -/
def procOfAll : List Instr → Proc Unit
  | [] => pure ()
  | i :: is => do
    procOf i
    procOfAll is

/-- The same end but for `STATUS` while the block is busy, as in `CompositeIs`. -/
def EndsAlike (t t' : State) : Prop :=
  t = { t' with status := t.status } ∧ (t.busy = false → t.status = t'.status)

/-- Results that differ in `STATUS`, `BUSY` and `SEQ` only end alike: the end writes these. -/
theorem settle_endsAlike {r r' : EStateM.Result Stop State α} (h : SameResult SameButControl r r') :
    EndsAlike (settle r) (settle r') := by
  cases r with
  | ok a u =>
    obtain ⟨u', rfl, hu⟩ := h.of_ok
    rw [hu]
    exact ⟨rfl, fun _ => rfl⟩
  | error e u =>
    obtain ⟨u', rfl, hu⟩ := h.of_error
    rw [hu]
    cases e with
    | fail c => exact ⟨rfl, fun _ => rfl⟩
    | polling n => exact ⟨rfl, fun hb => Bool.noConfusion hb⟩
    | noReturn => exact ⟨rfl, fun hb => Bool.noConfusion hb⟩
    | reset => exact ⟨rfl, fun _ => rfl⟩

theorem SameButControl.ready {s s' : State} (h : SameButControl s s') (hs : s.Ready) : s'.Ready := by
  rw [h]
  exact hs

theorem SameButControl.complete {s s' : State} (h : SameButControl s s') (st : BitVec 4) :
    SameButControl s (s'.complete st) := by
  rw [h]
  rfl

theorem runUntilFailure_goes_on {i : Instr} (is : List Instr) {s t : State} (h : exec i s = .next t)
    (ht : t.Succeeded) : runUntilFailure (i :: is) s = runUntilFailure is t := by
  rw [runUntilFailure, h]
  exact if_pos ht

theorem runUntilFailure_stops {i : Instr} (is : List Instr) {s t : State} (h : exec i s = .next t)
    (ht : ¬ t.Succeeded) : runUntilFailure (i :: is) s = .next t := by
  rw [runUntilFailure, h]
  exact if_neg ht

/-- One request of an expansion, then the others: `rest` says that they end as their procedures do, also from the state
in which the request completed (R104). -/
theorem runUntilFailure_cons (i : Instr) (is : List Instr) {s s' : State} (hs : s.Ready) (h : SameButControl s s')
    (rest : ∀ u u' : State, u.Ready → SameButControl u u' →
      ∃ t, runUntilFailure is (u'.complete statusSuccess) = .next t ∧ EndsAlike (settle (procOfAll is u)) t) :
    ∃ t, runUntilFailure (i :: is) s' = .next t ∧ EndsAlike (settle (procOfAll (i :: is) s)) t := by
  have hexec : exec i s' = .next (settle (procOf i s')) := by
    rw [exec_eq_perform, perform_eq (h.ready hs).1]
  have hsame : SameResult SameButControl (procOf i s) (procOf i s') := procOf_alike sameButControl_blind i s s' h
  cases hp : procOf i s with
  | ok a u =>
    rw [hp] at hsame
    obtain ⟨u', hp', hu⟩ := hsame.of_ok
    have frame := (procOf_frame i).of_ok hp
    rw [hp', settle_ok] at hexec
    rw [runUntilFailure_goes_on is hexec (complete_success_succeeded u'), procOfAll, bind_ok hp]
    exact rest u u' ⟨frame.params ▸ hs.1, frame.moves.notDue hs.2⟩ hu
  | error e u =>
    rw [hp] at hsame
    obtain ⟨u', hp', -⟩ := hsame.of_error
    have hstop := settle_error_not_succeeded (α := Unit) (procOf_error_not_reset (h.ready hs) i hp') u'
    rw [← hp'] at hstop
    rw [runUntilFailure_stops is hexec hstop, procOfAll, bind_error hp]
    exact ⟨_, rfl, settle_endsAlike hsame⟩

/-- The requests after one that completed end as their procedures do after its procedure (R104). -/
theorem runUntilFailure_completed (is : List Instr) : ∀ u u' : State, u.Ready → SameButControl u u' →
    ∃ t, runUntilFailure is (u'.complete statusSuccess) = .next t ∧ EndsAlike (settle (procOfAll is u)) t := by
  induction is with
  | nil => exact fun u u' _ h => ⟨_, rfl, settle_endsAlike (r := .ok () u) (r' := .ok () u') ⟨rfl, h⟩⟩
  | cons i is ih => exact fun u u' hu h => runUntilFailure_cons i is hu (h.complete _) ih

/-- A request whose procedure is that of a list of requests does what they do one after the other (R104). -/
theorem compositeIs_of_procOfAll {i j : Instr} {js : List Instr} (h : procOf i = procOfAll (j :: js)) {s : State}
    (hs : s.Ready) : CompositeIs i (j :: js) s := by
  obtain ⟨t, hrun, hends⟩ := runUntilFailure_cons j js (s' := s) hs rfl (runUntilFailure_completed js)
  rw [← h] at hends
  exact ⟨_, t, by rw [exec_eq_perform, perform_eq hs.1], hrun, hends⟩

/-- Settles O48: the procedure of each composite is that of its expansion. -/
theorem sixCompositesAreTheirExpansions : Obligations.SixCompositesAreTheirExpansions := by
  unfold Obligations.SixCompositesAreTheirExpansions
  intro s hs
  refine ⟨compositeIs_of_procOfAll ?_ hs, compositeIs_of_procOfAll ?_ hs, compositeIs_of_procOfAll ?_ hs,
    compositeIs_of_procOfAll ?_ hs, compositeIs_of_procOfAll ?_ hs,
    fun th tl cfg => compositeIs_of_procOfAll ?_ hs⟩
  · simp [procOfAll, procOf, procSSkiprom, procCSkiprom]
  · simp [procOfAll, procOf, procSConvertNone, startConversion, procCSkiprom, procCConvertt, procWWaitNone]
  · simp [procOfAll, procOf, procSConvertData, startConversion, procCSkiprom, procCConvertt, procWWaitData]
  · simp [procOfAll, procOf, procSConvertDelay, startConversion, procCSkiprom, procCConvertt, procWWaitDelay]
  · simp [procOfAll, procOf, procSReadscratch, procCSkiprom, procCRscratch, procKDecode]
  · simp [procOfAll, procOf, procSWritescratch, procKEncode, encodeScratch, procCSkiprom, procCWscratch]

end Sys2Proof.Machine
end

section
/-! Calls that never return: where each request is left, and what the block does then (60_exceptions.md R226). -/

namespace Sys2Proof.Machine

variable {α : Type}

/-! ### A block inside a call -/

/-- A call is left running only by an operation that holds the block (R32, R226). -/
theorem settle_calling_busy (r : EStateM.Result Stop State α) (h : (settle r).seq = .calling) :
    (settle r).busy = true := by
  match r with
  | .ok _ _ => exact Seq.noConfusion h
  | .error (.fail _) _ => exact Seq.noConfusion h
  | .error (.polling _) _ => rfl
  | .error .noReturn _ => rfl
  | .error .reset _ => exact Seq.noConfusion h

theorem State.NoReset.host_not_reset {s : State} (hn : s.NoReset) (rest : List HostEvent) :
    s.host ≠ .reset :: rest := fun h => (hn.2 .reset (by simp [h])).1 rfl

/-- Short of a reset, a block inside a call changes only in the host's list, however many steps go by (R226). -/
theorem steps_calling (n : Nat) : ∀ {s : State}, s.params.wf = true → s.busy = true → s.seq = .calling →
    s.NoReset → ∃ u, steps n s = .next u ∧ u = { s with host := u.host } := by
  induction n with
  | zero => exact fun _ _ _ _ => ⟨_, rfl, rfl⟩
  | succ n ih =>
    intro s hwf hb hq hn
    obtain ⟨hsame, hn'⟩ := whileBusy_noReset hn
    have hstep := step_of_calling hwf hb hq hn.host_not_reset
    rw [hsame] at hn' hstep
    obtain ⟨u, hrun, hu⟩ := ih (s := s.setHost s.whileBusy.host) hwf hb hq hn'
    exact ⟨u, (steps_succ n hstep).trans hrun, hu⟩

/-! ### The calls of each procedure -/

theorem writeBit_hangs {s : State} (h : s.link.resetAfter = none) (b : Bool) {l : Link}
    (hl : s.link.ExchangeHangs (wireByte s.params b) l) : writeBit b s = .error .noReturn (s.setLink l) := by
  rw [writeBit, get_bind]
  exact bind_error (slot_hangs h _ hl)

theorem readBit_hangs {s : State} (h : s.link.resetAfter = none) {l : Link}
    (hl : s.link.ExchangeHangs s.params.readTxByte l) : readBit s = .error .noReturn (s.setLink l) := by
  rw [readBit, get_bind]
  exact bind_error (slot_hangs h _ hl)

/-- Slots of which the first `es.length` are answered, and inside the next one a call never returns (R226). -/
theorem slotsThen_hangs {s : State} (h : s.link.resetAfter = none) {bs es : List Byte} {b : Byte}
    (hb : bs[es.length]? = some b) (he : s.link.Echoes es) {l : Link}
    (hl : (s.link.after es.length (slotEvents (bs.take es.length) es)).ExchangeHangs b l)
    (f : List Byte → α) : slotsThen bs f s = .error .noReturn (s.setLink l) := by
  obtain ⟨hsplit, hlen⟩ := split_at_getElem? hb
  have hstop := slots_stop h (bs.take es.length) es (bs.drop (es.length + 1)) b hlen he
    (slot_hangs (s := s.setLink (s.link.after (bs.take es.length).length _)) h b (by
      rw [hlen]
      exact hl))
  exact slotsThen_error (hsplit ▸ hstop)

theorem writeByte_hangs {s : State} (h : s.link.resetAfter = none) (v : Byte) {es : List Byte} (hlt : es.length < 8)
    (he : s.link.Echoes es) {l : Link}
    (hl : (s.link.after es.length (slotEvents ((wireBytes s.params v).take es.length) es)).ExchangeHangs
      (wireByte s.params (v.getLsbD es.length)) l) :
    writeByte v s = .error .noReturn (s.setLink l) :=
  (writeByte_run v s).trans (slotsThen_hangs h (wireBytes_getElem? s.params v hlt) he hl fun _ => ())

theorem readByte_hangs {s : State} (h : s.link.resetAfter = none) {es : List Byte} (hlt : es.length < 8)
    (he : s.link.Echoes es) {l : Link}
    (hl : (s.link.after es.length
      (slotEvents (List.replicate es.length s.params.readTxByte) es)).ExchangeHangs s.params.readTxByte l) :
    readByte s = .error .noReturn (s.setLink l) := by
  have htake : (List.replicate 8 s.params.readTxByte).take es.length =
      List.replicate es.length s.params.readTxByte := by
    rw [List.take_replicate, Nat.min_eq_left hlt.le]
  have hslot : (List.replicate 8 s.params.readTxByte)[es.length]? = some s.params.readTxByte :=
    List.getElem?_replicate_of_lt hlt
  exact (readByte_run s).trans (slotsThen_hangs h hslot he (by rwa [htake]) _)

/-- A command whose round trip stays inside a call stays there (R226). -/
theorem exec_requestOf_hangs {s u : State} (hwf : s.params.wf = true) {cmd : Command} {payload : List Byte}
    (h : execute cmd payload s = .error .noReturn u) :
    exec (requestOf cmd payload) s = .next (u.suspend .calling) := by
  rw [exec_requestOf]
  exact perform_hangs hwf (bind_error h)

/-- The requests of the session that begin with a round trip without a payload. -/
theorem session_first_trip {i : Instr}
    (hi : i ∈ [Instr.sConvertNone, .sConvertData, .sConvertDelay, .sReadscratch, .sReadrom, .sSkiprom]) :
    ∃ cmd, (∀ c : Cfg, (c.desc cmd).tx = 0) ∧
      ∀ e s u, execute cmd [] s = .error e u → procOf i s = .error e u := by
  simp only [List.mem_cons, List.not_mem_nil, or_false] at hi
  obtain rfl | rfl | rfl | rfl | rfl | rfl := hi
  · exact ⟨.skipRom, fun _ => rfl, fun _ _ _ h => bind_error (bind_error h)⟩
  · exact ⟨.skipRom, fun _ => rfl, fun _ _ _ h => bind_error (bind_error h)⟩
  · exact ⟨.skipRom, fun _ => rfl, fun _ _ _ h => bind_error (bind_error h)⟩
  · exact ⟨.skipRom, fun _ => rfl, fun _ _ _ h => bind_error h⟩
  · exact ⟨.readRom, fun _ => rfl, fun _ _ _ h => bind_error h⟩
  · exact ⟨.skipRom, fun _ => rfl, fun _ _ _ h => bind_error h⟩

/-- Settles O18: a hung block stays where it is, and each request's calls leave it at the place stated. -/
theorem callThatNeverReturnsHoldsTheBlock : Obligations.CallThatNeverReturnsHoldsTheBlock := by
  unfold Obligations.CallThatNeverReturnsHoldsTheBlock
  refine ⟨fun i s t h hq => ?_, fun s hwf hb hq hn n => steps_calling n hwf hb hq hn, fun s l ⟨hwf, hnr⟩ =>
    ⟨fun b hl => ?_, fun hl => ?_, fun v es hlt he hl => ?_, fun es hlt he hl => ?_, fun hl => ⟨?_, ?_, ?_⟩, ?_⟩⟩
  · obtain ⟨-, rfl⟩ := exec_next h
    exact settle_calling_busy _ hq
  · exact perform_hangs hwf (writeBit_hangs hnr b hl)
  · simp only [List.mem_cons, List.not_mem_nil, or_false]
    rintro i (rfl | rfl)
    · exact perform_hangs hwf (bind_error (readBit_hangs hnr hl))
    · exact perform_hangs hwf (pollOnce_hangs hnr 0 hl)
  · exact perform_hangs hwf (writeByte_hangs hnr v hlt he hl)
  · exact perform_hangs hwf (bind_error (readByte_hangs hnr hlt he hl))
  · simp only [List.mem_cons, List.not_mem_nil, or_false]
    rintro i (rfl | rfl)
    · exact perform_hangs hwf (bind_error (busReset_hangs hnr hl))
    · exact exec_sInitialize_hangs hwf (bind_error (busReset_hangs hnr hl))
  · rintro i (hi | ⟨cmd, payload, hp, rfl⟩)
    · obtain ⟨cmd, htx, hproc⟩ := session_first_trip hi
      rw [exec_eq_perform]
      exact ⟨_, perform_hangs hwf (hproc _ _ _ (execute_reset_hangs hnr cmd [] (htx s.params).symm hl)), rfl⟩
    · exact ⟨_, exec_requestOf_hangs hwf (execute_reset_hangs hnr cmd payload hp hl), rfl⟩
  · intro th tl cfg
    have trip := execute_reset_hangs (s := s.setTxbuf [th, tl, cfg]) hnr .skipRom [] rfl hl
    have encoded : encodeScratch th tl cfg s = .ok [th, tl, cfg] (s.setTxbuf [th, tl, cfg]) := rfl
    exact ⟨_, perform_hangs hwf ((bind_ok encoded).trans (bind_error trip)), rfl⟩
  · intro cmd payload e0 es b hp h0 he hb hl
    obtain ⟨hsplit, hlen⟩ := split_at_getElem? hb
    exact ⟨_, exec_requestOf_hangs hwf (execute_slot_hangs hnr cmd payload hp h0 hsplit hlen he hl), rfl⟩

end Sys2Proof.Machine
end

section
/-! The host's reads, between two steps and inside one (70_reset_and_hazards.md R224, R250). -/

namespace Sys2Proof.Machine

/-! ### Reads between two steps -/

theorem hostRead_busy (s : State) : s.hostRead .busy = some (if s.busy then 1 else 0) := by
  show some s.busy.toNat = _
  cases s.busy <;> rfl

theorem hostRead_initialized (s : State) : s.hostRead .initialized = some (if s.initialized then 1 else 0) := by
  show some s.initialized.toNat = _
  cases s.initialized <;> rfl

theorem hostRead_connected (s : State) : s.hostRead .connected = some (if s.connected then 1 else 0) := by
  show some s.connected.toNat = _
  cases s.connected <;> rfl

theorem hostRead_baudsel {s : State} {b : BaudSel} (h : s.baudsel = b) : s.hostRead .baudsel = some b.code.toNat :=
  h ▸ rfl

/-! ### Reads at the end of an event -/

theorem hostReadInside_of_inside {s u : State} {k : Nat} (h : s.inside k = some u) (r : HostReg) :
    s.hostReadInside k r = u.hostRead r := by
  rw [State.hostReadInside, h]
  rfl

/-- What a step performs is an operation or a poll, and keeps the record, `REQ` and the host's list. -/
theorem running_frame {s : State} {p : Proc Unit} (h : s.running = some p) : Runs Frame FrameEnd p := by
  unfold State.running at h
  split at h
  · cases h
  · split at h
    · split at h
      · cases h
        exact procOf_frame _
      · cases h
    · cases h
      exact pollOnce_frame _
    · cases h

/-- At the end of its `(k+1)`-th event a step has added `k+1` events (R250; log 14). -/
theorem inside_trace {s u : State} {k : Nat} (h : s.inside k = some u) :
    u.link.trace.length = s.link.trace.length + k + 1 := by
  unfold State.inside at h
  split at h
  · cases h
  · rename_i p hp
    split at h
    · split at h
      · rename_i t ht
        cases h
        obtain ⟨hne, -⟩ | ⟨-, hcut⟩ := ((running_frame hp).of_error ht).moves
        · exact absurd rfl hne
        · obtain ⟨j, hj, hlen⟩ := hcut.due
          obtain rfl : k = j := Option.some.inj hj
          exact hlen
      · cases h
      · cases h
    · cases h

/-! ### The first two events of a round trip -/

/-- The block with a reset due after `k` more events, as `State.inside` breaks its step off. -/
def State.dueAfter (s : State) (k : Nat) : State := s.setLink { s.link with resetAfter := some k }

/-- A bus reset broken off at its first event: only the boundary has changed (R123). -/
theorem busReset_cut_first {s : State} (h : s.link.resetAfter = some 0) :
    ∃ l, busReset s = .error .reset (s.setLink l) := by
  refine ⟨s.link.log (.setBaud s.params.baudReset), ?_⟩
  simp only [busReset, get_bind]
  exact bind_error (event_cut h _)

/-- A bus reset broken off at its second event: the rate is that of the reset, `CONNECTED` is as before (R123). -/
theorem busReset_cut_second {s : State} (h : s.link.resetAfter = some 1) :
    ∃ l, busReset s = .error .reset ((s.setBaudsel .reset).setLink l) := by
  simp only [busReset, get_bind]
  rw [setBaud, bind_ok (event_due h _), modify_bind]
  exact ⟨_, bind_error (tx_cut rfl _)⟩

/-- A busy block that has accepted a command performs its round trip. -/
theorem running_requestOf {s : State} (hwf : s.params.wf = true) (hb : s.busy = true) (hq : s.seq = .idle)
    {cmd : Command} {payload : List Byte} (hd : decode s.req = .ok (requestOf cmd payload)) :
    s.running = some (do let _ ← execute cmd payload) := by
  have hproc : procOf (requestOf cmd payload) = (do let _ ← execute cmd payload) := by cases cmd <;> rfl
  simp [State.running, hwf, hb, hq, hd, hproc]

/-- Settles O59: the reads of every state, of every event, of a round trip's first two events and of the first poll of
`S.CONVERT DATA`. -/
theorem hostReadsEveryRegister : Obligations.HostReadsEveryRegister := by
  unfold Obligations.HostReadsEveryRegister
  refine ⟨fun s => ?_, fun s u k h => ?_, fun s cmd payload hs hb hq hd hp => ?_,
    fun s e0 e1 es fs z hs h0 h1 hl1 hl2 hz hlim he => ?_⟩
  · exact ⟨rfl, rfl, hostRead_busy s, rfl, rfl, rfl, fun k => ⟨rfl, rfl, rfl⟩, hostRead_baudsel, hostRead_baudsel,
      hostRead_baudsel, hostRead_initialized s, hostRead_connected s, rfl, rfl, rfl, rfl⟩
  · obtain ⟨hb, q⟩ := inside_quiet h
    simp only [hostReadInside_of_inside h]
    refine ⟨inside_trace h, by rw [hostRead_busy, q.busy, hb]; rfl, ?_, fun j => ?_⟩
    · simp [State.hostRead, q.req, q.status, q.rdata, q.initialized, q.th, q.tl, q.cfg, q.temp]
    · simp [State.hostRead, q.sn]
  · have hrun := running_requestOf hs.1 hb hq hd
    obtain ⟨l0, cut0⟩ := busReset_cut_first (s := (s.dueAfter 0).openResponse) rfl
    obtain ⟨l1, cut1⟩ := busReset_cut_second (s := (s.dueAfter 1).openResponse) rfl
    have first := inside_of_cut hrun hs.2 (bind_error (execute_reset_stop (s := s.dueAfter 0) cmd payload hp cut0))
    have second := inside_of_cut hrun hs.2 (bind_error (execute_reset_stop (s := s.dueAfter 1) cmd payload hp cut1))
    simp only [hostReadInside_of_inside first, hostReadInside_of_inside second]
    exact ⟨rfl, rfl, rfl, rfl⟩
  · obtain ⟨u, hstart, hdone⟩ := startConversion_succeeds hs h0 h1 hl1 hl2 he.left
    have hpoll : u.link.Echoes [z] := by
      rw [hdone.link]
      exact echoes_after_conversion hl1 hl2 he _
    rw [← hdone.params] at hz hlim
    rw [exec_sConvertData_started hs.1 hstart hdone.params,
      exec_wWaitData_zero (hdone.ready hs hs.2) hlim hz hpoll]
    refine ⟨_, rfl, ?_⟩
    rw [hdone]
    exact ⟨rfl, rfl, rfl, rfl, rfl⟩

end Sys2Proof.Machine
end
